-- ==== Sys2Proof/Word.lean ====
section
/-!
DEFINITION. The word types of the OS_MMU paging engine. Every width is the spec's own (00_scope.md R6, R10;
10_state.md R20; 20_memory.md R60): all values are unsigned and bit 0 is the least significant bit.
-/

namespace Sys2Proof

/-- One byte of any of the three memories (20_memory.md R60). -/
abbrev Byte := BitVec 8

/-- A command word on the `cmd` port (30_encoding.md R92). -/
abbrev CommandWord := BitVec 32

/-- A response word on the `rsp` port, the width of `RSP` (30_encoding.md R95). -/
abbrev ResponseWord := BitVec 16

/-- A process id: an 8-bit pattern, used for equality only (30_encoding.md R93). -/
abbrev Pid := BitVec 8

/-- A virtual address: `va[7:2]` VPN, `va[1:0]` offset (20_memory.md R60). -/
abbrev VirtAddr := BitVec 8

/-- A physical address, and so also a frame address or a page-table base (20_memory.md R60; 10_state.md R28, R31). -/
abbrev PhysAddr := BitVec 8

/-- A swap address, and so also a slot address (20_memory.md R60; 10_state.md R29). -/
abbrev SwapAddr := BitVec 9

/-- A PTE location, the address of one PTE byte in the page-table store (10_state.md R27). -/
abbrev PteLocation := BitVec 12

/-- A virtual page number (00_scope.md R6). -/
abbrev Vpn := BitVec 6

/-- A physical frame number (00_scope.md R6). -/
abbrev Pfn := BitVec 6

/-- A swap slot index (00_scope.md R6). -/
abbrev SlotIndex := BitVec 7

end Sys2Proof
end

