-- ==== Sys2Proof/Config.lean ====
section
/-!
DEFINITION. What an implementation of the engine fixes: the parameters of 00_scope.md R6 and the capacities of R8,
and the one value the spec leaves open at run time (what `RSP` holds after the `rst` input, 10_state.md R32, R37).
-/

namespace Sys2Proof

/-- Bytes of a page, a frame and a swap slot (00_scope.md R6, `PAGE_SIZE`). -/
def Config.pageSize : Nat := 4

/-- PTEs of one page table (00_scope.md R6, `NPTE`). -/
def Config.npte : Nat := 64

/-- Bytes of `PMEM` (00_scope.md R8). The spec lets a model take a smaller capacity (D6): DESIGN CHOICE, log entry 8. -/
def Config.pmemCap : Nat := 256

/-- Bytes of `SWAP` (00_scope.md R8). The spec lets a model take a smaller capacity (D6): DESIGN CHOICE, log entry 8. -/
def Config.swapCap : Nat := 512

/-- Bytes of `PTRAM` (00_scope.md R8). -/
def Config.ptramCap : Nat := 4096

/-- Most records of the process table (00_scope.md R8, `NPROC_MAX`). -/
def Config.procMax : Nat := 64

/-- Most entries of the frame free queue (00_scope.md R8). -/
def Config.frameQueueMax : Nat := 64

/-- Most entries of the swap-slot free queue (00_scope.md R8). -/
def Config.slotQueueMax : Nat := 127

/-- Most entries of the victim queue (00_scope.md R8). -/
def Config.victimQueueMax : Nat := 64

/-- FREE VALUE: what `RSP` holds after the `n`-th assertion of `rst` that the model has seen. The spec says
'unspecified after reset' (10_state.md R37) and nothing constrains it. Log entry 2. -/
opaque Config.freeRsp : Nat → ResponseWord

end Sys2Proof
end

