-- ==== Sys2Proof/Syntax.lean ====
section
/-!
DEFINITION. The commands of the engine, one constructor for each row of spec/opcode_table.json (30_encoding.md R94),
and the four fields of a command word (R92). Each operand has exactly the width the table of R94 gives it, so a term
of `Instr` cannot carry a non-zero unused operand bit.
-/

namespace Sys2Proof

/-- The eleven commands (30_encoding.md R94). -/
inductive Instr where
  /-- `INIT pmem_size, swap_size` (46_lifecycle_and_access.md R215). -/
  | init (pmemSize swapSize : BitVec 12)
  /-- `ADMIT pid` (43_process_table.md R172). -/
  | admitProc (pid : Pid)
  /-- `LOOKUP pid` (43_process_table.md R171). -/
  | lookup (pid : Pid)
  /-- `TRANSLATE base, va` (45_translator.md R205). -/
  | translate (base : PhysAddr) (va : VirtAddr)
  /-- `RESOLVE pid, va` (44_fault_engine.md R186). -/
  | resolve (pid : Pid) (va : VirtAddr)
  /-- `MEMRD pa` (46_lifecycle_and_access.md R218). -/
  | memrd (pa : PhysAddr)
  /-- `MEMWR pa, data` (46_lifecycle_and_access.md R219). -/
  | memwr (pa : PhysAddr) (data : Byte)
  /-- `SWRD sa` (46_lifecycle_and_access.md R220). -/
  | swrd (sa : SwapAddr)
  /-- `PTERD base, vpn` (46_lifecycle_and_access.md R221). -/
  | pterd (base : PhysAddr) (vpn : Vpn)
  /-- `CSRRD n` (46_lifecycle_and_access.md R222). -/
  | csrrd (n : BitVec 8)
  /-- `TEARDOWN` (46_lifecycle_and_access.md R217). -/
  | teardown
  deriving DecidableEq, Repr

/-- The four fields of a command word (30_encoding.md R92). -/
structure CommandFields where
  /-- Bits 31:28, the opcode. -/
  op : BitVec 4
  /-- Bits 27:24, reserved, must be 0. -/
  rsv : BitVec 4
  /-- Bits 23:12, the first operand field. -/
  a : BitVec 12
  /-- Bits 11:0, the second operand field. -/
  b : BitVec 12
  deriving DecidableEq, Repr

/-- Why a command word is malformed (30_encoding.md R97). The engine answers all of them alike; the names are the
model's. -/
inductive Malformed where
  /-- `op` is one of the reserved opcodes. -/
  | reservedOpcode
  /-- `rsv` is not 0. -/
  | reservedField
  /-- A bit of `A` that the command does not use is not 0. -/
  | operandA
  /-- A bit of `B` that the command does not use is not 0. -/
  | operandB
  deriving DecidableEq, Repr

end Sys2Proof
end

