-- ==== Sys2Proof/Machine/State.lean ====
section
/-!
DEFINITION. The state of the engine as plain data (10_state.md R20 to R37), the reasons a step stops, and the state
right after reset (R37, second column).
-/

namespace Sys2Proof.Machine

/-- The values of the lifecycle register `LC` (10_state.md R23). Its value 3 is never written
(93_implementation_defined.md W4), so the type has three values. -/
inductive Lifecycle where
  | uninit
  | ready
  | failed
  deriving DecidableEq, Repr

/-- One record of the process table (10_state.md R31). -/
structure ProcRecord where
  pid : Pid
  base : PhysAddr
  deriving DecidableEq, Repr

/-- One memory: (address, byte) pairs in canonical form. An address not listed reads as `Memory.unlisted`
(Machine/Memory.lean); the form is `Memory.wf`. -/
abbrev Memory := List Host.Cell

/-- The three memories (10_state.md R25, R26, R27). They come to exist together, by `INIT`, and cease to exist
together, by `TEARDOWN` or `rst`. -/
structure Memories where
  /-- `PMEM`, 256 bytes (10_state.md R25). -/
  pmem : Memory
  /-- `SWAP`, 512 bytes (10_state.md R26). -/
  swap : Memory
  /-- `PTRAM`, 4096 bytes (10_state.md R27). -/
  ptram : Memory
  deriving DecidableEq, Repr

/-- What the host drives on the ports between two states of the abstract machine (30_encoding.md R90, R91;
70_reset_and_hazards.md R270). Cycles are not modelled: an input is one transaction, not one clock. -/
inductive PortInput where
  /-- `rst` low, `cmd_valid` low: nothing is presented. -/
  | idle
  /-- `rst` low, `cmd_valid` and `cmd_ready` high: the word is taken (30_encoding.md R91). -/
  | command (w : CommandWord)
  /-- `cmd_valid` high while `cmd_ready` is low: the word is not taken (93_implementation_defined.md W7). -/
  | notReady (w : CommandWord)
  /-- `rst` high at a rising edge of `clk`; a word in flight, if there is one, is abandoned
  (70_reset_and_hazards.md R270). -/
  | reset (inFlight : Option CommandWord)
  deriving DecidableEq, Repr

/-- The state of the engine. The first eight fields and `rsp` are the spec's (10_state.md R20); `rspValid` is its port
(30_encoding.md R90); `port` and `freeDraws` are the model's own (log entries 1 and 2). -/
structure State where
  /-- `LC`, the lifecycle register (R23). -/
  lc : Lifecycle
  /-- `PMEM_SIZE`, 9 bits (R24). -/
  pmemSize : BitVec 9
  /-- `SWAP_SIZE`, 10 bits (R24). -/
  swapSize : BitVec 10
  /-- `PMEM`, `SWAP`, `PTRAM`; `none` while they are unspecified: before `INIT` and after `TEARDOWN` or `rst`
  (R37; 93_implementation_defined.md U1). -/
  mem : Option Memories
  /-- `FQ`, the frame free queue, head first (R28). -/
  fq : List PhysAddr
  /-- `SQ`, the swap-slot free queue, head first (R29). -/
  sq : List SwapAddr
  /-- `VQ`, the victim queue, head first (R30). -/
  vq : List PteLocation
  /-- `PROC`, the process table in admission order (R31). -/
  proc : List ProcRecord
  /-- `RSP`, the response register (R32). -/
  rsp : ResponseWord
  /-- The `rsp_valid` port: the last step ended a command, whose response `rsp` carries (30_encoding.md R90). -/
  rspValid : Bool
  /-- MODEL: what the host drives on the ports from here on, first input first. -/
  port : List PortInput
  /-- MODEL: how many free values have been drawn (`Config.freeRsp`). -/
  freeDraws : Nat
  deriving DecidableEq, Repr

/-- What about a state breaks an invariant that a rule relies on (10_state.md R48). -/
inductive Broken where
  /-- A memory is read or written while the memories are unspecified. -/
  | memoryAbsent
  /-- The location taken from `VQ` holds no present PTE (R43). -/
  | victimNotPresent
  /-- A frame address or PFN names no frame below `NFRAMES`, or is not a multiple of 4 (R44). -/
  | frameOutOfRange
  /-- A slot address or index names no slot in `1 .. NSLOTS-1`, or is not a multiple of 4 (R44). -/
  | slotOutOfRange
  /-- `VQ` holds its 64 entries and another is to be appended (R44). -/
  | victimQueueFull
  /-- `PROC` holds its 64 records and another is to be appended (R44). -/
  | processTableFull
  /-- A count register is read whose queue or table is longer than the hardware's (00_scope.md R8). -/
  | countOverCapacity
  deriving DecidableEq, Repr

/-- Why a step stops with a fault. -/
inductive Fault where
  /-- The state breaks an invariant the command's rule relies on: 'it should fault the step with a reason of its own
  (InvariantBroken)' (10_state.md R48, D25). Raised by `ADMIT`, `RESOLVE`, `TRANSLATE`, `MEMRD`, `MEMWR`, `SWRD`,
  `PTERD` and `CSRRD`, each through the shared operations of Machine/Ops.lean. Safe: no command sequence reaches such
  a state. -/
  | invariantBroken (why : Broken)
  deriving DecidableEq, Repr

/-- Why a step has no meaning. -/
inductive Refusal where
  /-- An instruction the model gives no meaning, by its mnemonic. Raised by no arm: every command has its meaning.
  Safe. (The status `REFUSED` is no refusal of the model: it is a response, a next state.) -/
  | notModelled (mnemonic : String)
  deriving DecidableEq, Repr

/-- The outcome of a step of this machine. -/
abbrev Out := Host.Outcome State Fault Refusal

/-- The state right after power-on reset (10_state.md R37, second column; 70_reset_and_hazards.md R270, R271). The
memories are unspecified, so absent. `RSP` is unspecified: its 0 here is a DESIGN CHOICE (log entry 2). The host has
driven nothing yet. -/
def State.reset : State :=
  { lc := .uninit
    pmemSize := 0
    swapSize := 0
    mem := none
    fq := []
    sq := []
    vq := []
    proc := []
    rsp := 0
    rspValid := false
    port := []
    freeDraws := 0 }

end Sys2Proof.Machine
end

