-- ==== Sys2Proof/Machine/Flags.lean ====
section
/-!
DEFINITION. The engine's flag-like values (10_state.md R34): the present bit and the user flag of a PTE byte, with the
PTE decoder and encoders (40_pte_codec.md R120 to R125); the codes of `LC` (10_state.md R23); the status codes of a
response (30_encoding.md R96).
-/

namespace Sys2Proof.Machine

/-- The three readings of a PTE byte (40_pte_codec.md R120). -/
inductive Pte where
  /-- Bit 0 is 1: `[7:2]` the frame number, bit 1 the user flag. -/
  | present (pfn : Pfn) (user : Bool)
  /-- Bit 0 is 0, the byte is not 0: `[7:1]` the slot index. -/
  | swapped (slot : SlotIndex)
  /-- The byte is 0: no mapping. -/
  | unmapped
  deriving DecidableEq, Repr

/-- `PteDecode(b)` (40_pte_codec.md R120). -/
def pteDecode (b : Byte) : Pte :=
  if b.getLsbD 0 then .present (b.extractLsb' 2 6) (b.getLsbD 1)
  else if b = 0 then .unmapped
  else .swapped (b.extractLsb' 1 7)

/-- `PteEncPresentU(pfn, user) = {pfn, user, 0b1}`, the inverse of the decoder's present arm, used by no rule
(40_pte_codec.md R123). -/
def pteEncPresentU (pfn : Pfn) (user : Bool) : Byte := pfn ++ BitVec.ofBool user ++ 1#1

/-- `PteEncPresent(pfn) = {pfn, 0b0, 0b1}`: the user flag is written 0 (40_pte_codec.md R123). -/
def pteEncPresent (pfn : Pfn) : Byte := pfn ++ 0#1 ++ 1#1

/-- `PteEncSwapped(slot) = {slot, 0b0}`, for `slot` not 0 (40_pte_codec.md R124). -/
def pteEncSwapped (slot : SlotIndex) : Byte := slot ++ 0#1

/-- The two bits of `LC` (10_state.md R23). -/
def lifecycleCode : Lifecycle → BitVec 2
  | .uninit => 0
  | .ready => 1
  | .failed => 2

/-- The statuses of a response (30_encoding.md R96). Codes 6 to 15 are never produced. -/
inductive Status where
  | ok
  | fault
  | noCapacity
  | allocError
  | notFound
  | refused
  deriving DecidableEq, Repr

/-- The status codes (30_encoding.md R96). -/
def statusCode : Status → BitVec 4
  | .ok => 0
  | .fault => 1
  | .noCapacity => 2
  | .allocError => 3
  | .notFound => 4
  | .refused => 5

/-- The response word: `rsp[15:12] = status`, `rsp[11:0] = value` (30_encoding.md R95). -/
def responseWord (st : Status) (value : BitVec 12) : ResponseWord := statusCode st ++ value

end Sys2Proof.Machine
end

