-- ==== Sys2Proof/Machine/Memory.lean ====
section
/-!
DEFINITION. One byte memory in canonical form: reading and writing a byte, zeroing, and the form itself. No access of
the engine is wider than one byte (20_memory.md R62), so nothing here has a byte order or an alignment.
-/

namespace Sys2Proof.Machine

/-- What an address reads as that the memory does not list: 0x00, the value `INIT` writes to every byte of the three
memories (46_lifecycle_and_access.md R215). Before `INIT` there is no memory to read (`State.mem` is `none`). -/
def Memory.unlisted : Byte := 0x00

/-- The memory all of whose bytes are 0x00, as `INIT` leaves each (46_lifecycle_and_access.md R215). -/
def Memory.zeroed : Memory := []

/-- The byte at an address, `MemRead(SPACE, addr, 1)` (00_scope.md R11). -/
def Memory.read : Memory → Nat → Byte
  | [], _ => Memory.unlisted
  | (b, v) :: rest, a => if a = b then v else Memory.read rest a

/-- A cell before the rest of a memory, left out if it holds what an unlisted address reads as. -/
def Memory.cons (a : Nat) (v : Byte) (rest : Memory) : Memory :=
  if v = Memory.unlisted then rest else (a, v) :: rest

/-- Store a byte, `MemWrite(SPACE, addr, 1, v)` (00_scope.md R11), keeping the canonical form. -/
def Memory.write : Memory → Nat → Byte → Memory
  | [], a, v => Memory.cons a v []
  | (b, w) :: rest, a, v =>
    if a < b then Memory.cons a v ((b, w) :: rest)
    else if a = b then Memory.cons a v rest
    else (b, w) :: Memory.write rest a v

/-- The canonical form of a memory of `size` bytes whose listed addresses are all at least `low`: addresses strictly
rising and below `size`, no entry equal to what an unlisted address reads as. -/
def Memory.wfFrom (size : Nat) : Nat → Memory → Bool
  | _, [] => true
  | low, (a, v) :: rest => decide (low ≤ a) && decide (a < size) && decide (v ≠ Memory.unlisted) && Memory.wfFrom size (a + 1) rest

/-- The canonical form of a memory of `size` bytes. -/
def Memory.wf (size : Nat) (m : Memory) : Bool := Memory.wfFrom size 0 m

/-- The canonical form of the three memories (10_state.md R25, R26, R27). -/
def Memories.wf (m : Memories) : Bool :=
  Memory.wf Config.pmemCap m.pmem && Memory.wf Config.swapCap m.swap && Memory.wf Config.ptramCap m.ptram

/-- The memories as `INIT` leaves them: every byte of all three 0x00 (46_lifecycle_and_access.md R215). -/
def Memories.zeroed : Memories := { pmem := Memory.zeroed, swap := Memory.zeroed, ptram := Memory.zeroed }

/-- The byte of `PMEM` at a physical address. -/
def Memories.readPmem (m : Memories) (pa : PhysAddr) : Byte := m.pmem.read pa.toNat

/-- The byte of `SWAP` at a swap address. -/
def Memories.readSwap (m : Memories) (sa : SwapAddr) : Byte := m.swap.read sa.toNat

/-- The PTE byte of `PTRAM` at a location. -/
def Memories.readPte (m : Memories) (loc : PteLocation) : Byte := m.ptram.read loc.toNat

/-- Store a byte of `PMEM`. -/
def Memories.writePmem (m : Memories) (pa : PhysAddr) (v : Byte) : Memories :=
  { m with pmem := m.pmem.write pa.toNat v }

/-- Store a byte of `SWAP`. -/
def Memories.writeSwap (m : Memories) (sa : SwapAddr) (v : Byte) : Memories :=
  { m with swap := m.swap.write sa.toNat v }

/-- Store a PTE byte of `PTRAM`. -/
def Memories.writePte (m : Memories) (loc : PteLocation) (v : Byte) : Memories :=
  { m with ptram := m.ptram.write loc.toNat v }

end Sys2Proof.Machine
end

