-- ==== Sys2Proof/Machine/Operands.lean ====
section
/-!
DEFINITION. Address arithmetic (40_pte_codec.md R126 to R130): every address an operand leads to. All of it is
unsigned slicing and concatenation; nothing overflows or wraps.
-/

namespace Sys2Proof.Machine

/-- `FrameAddr(pfn) = {pfn, 0b00}` (R126). -/
def frameAddr (pfn : Pfn) : PhysAddr := pfn ++ 0#2

/-- `Pfn(faddr) = faddr[7:2]` (R126). -/
def pfnOf (faddr : PhysAddr) : Pfn := faddr.extractLsb' 2 6

/-- `SlotAddr(slot) = {slot, 0b00}` (R127). -/
def slotAddr (slot : SlotIndex) : SwapAddr := slot ++ 0#2

/-- `SlotIdx(saddr) = saddr[8:2]` (R127). -/
def slotIdx (saddr : SwapAddr) : SlotIndex := saddr.extractLsb' 2 7

/-- `Vpn(va) = va[7:2]` (R128). -/
def vpnOfVa (va : VirtAddr) : Vpn := va.extractLsb' 2 6

/-- `Off(va) = va[1:0]` (R128). -/
def offOfVa (va : VirtAddr) : BitVec 2 := va.extractLsb' 0 2

/-- `PhysAddr(pfn, off) = {pfn, off}` (R128). -/
def physAddr (pfn : Pfn) (off : BitVec 2) : PhysAddr := pfn ++ off

/-- `PteLoc(base, vpn) = {base[7:2], vpn}` (R129). -/
def pteLoc (base : PhysAddr) (vpn : Vpn) : PteLocation := base.extractLsb' 2 6 ++ vpn

/-- `BaseOf(loc) = {loc[11:6], 0b00}` (R129). -/
def baseOfLoc (loc : PteLocation) : PhysAddr := loc.extractLsb' 6 6 ++ 0#2

/-- `VpnOf(loc) = loc[5:0]` (R129). -/
def vpnOfLoc (loc : PteLocation) : Vpn := loc.extractLsb' 0 6

/-- `NFRAMES = PMEM_SIZE div 4` (10_state.md R24; R130). -/
def nframes (s : State) : Nat := s.pmemSize.toNat / Config.pageSize

/-- `NSLOTS = SWAP_SIZE div 4` (10_state.md R24; R130). -/
def nslots (s : State) : Nat := s.swapSize.toNat / Config.pageSize

/-- The four byte offsets of a page, frame or slot, in the order the rules' loops take them. -/
def pageOffsets : List (BitVec 2) := [0, 1, 2, 3]

/-- Byte `i` of the frame at `f`. For a frame address it is `f + i` (R128). -/
def frameByte (f : PhysAddr) (i : BitVec 2) : PhysAddr := f + i.setWidth 8

/-- Byte `i` of the slot at `sa`. For a slot address it is `sa + i`. -/
def slotByte (sa : SwapAddr) (i : BitVec 2) : SwapAddr := sa + i.setWidth 9

/-- The 64 locations of the page table of a base, in VPN order (10_state.md R27). -/
def tableLocs (base : PhysAddr) : List PteLocation :=
  (List.range Config.npte).map fun v => pteLoc base (BitVec.ofNat 6 v)

end Sys2Proof.Machine
end

