-- ==== Sys2Proof/Machine/Ops.lean ====
section
/-!
DEFINITION. The operations the commands share: ending a command with a response (the engine's whole analogue of taking
an exception, 60_exceptions.md R240, R250), the lifecycle gate, the two allocators, the victim queue, eviction, bind,
the exchange of a swap-in, the process table, and the register map. Where a rule relies on an invariant that the state
breaks, the operation answers a `Broken` reason and the step faults (10_state.md R48).
-/

namespace Sys2Proof.Machine

/-! ### Ending a command -/

/-- The state in which a command has ended with a response: `RSP` is written and `rsp_valid` is high
(10_state.md R32; 30_encoding.md R90, R95). -/
def State.answer (s : State) (st : Status) (value : BitVec 12) : State :=
  { s with rsp := responseWord st value, rspValid := true }

/-- `respond(STATUS, value)` (00_scope.md R11). Every outcome of a command, normal or not, is this one operation:
nothing else is saved, no mode changes, control goes nowhere (60_exceptions.md R240, R250). There is no return
instruction to stand beside it (R251). -/
def respond (s : State) (st : Status) (value : BitVec 12) : Out := .next (s.answer st value)

/-- The command was not executed: `respond(REFUSED, 0)` (60_exceptions.md R246). -/
def refuse (s : State) : Out := respond s .refused 0

/-- A frame is needed and none can be had: `csr[LC] <- FAILED`, `respond(NO_CAPACITY, 0)`, nothing else changed
(60_exceptions.md R243, R250; 42_victim_queue.md R158). -/
def failNoCapacity (s : State) : Out := respond { s with lc := .failed } .noCapacity 0

/-- The state breaks an invariant the rule relies on (10_state.md R48). -/
def breakStep (why : Broken) : Out := .fault (.invariantBroken why)

/-- Stage (2) of 30_encoding.md R98 for the commands accepted in `READY` only (R99). -/
def whenReady (s : State) (body : Out) : Out := if s.lc = .ready then body else refuse s

/-- Stage (2) of 30_encoding.md R98 for `INIT`, accepted in `UNINIT` only (R99). -/
def whenUninit (s : State) (body : Out) : Out := if s.lc = .uninit then body else refuse s

/-- Go on with the memories, which exist in every reachable `READY` state (10_state.md R37). -/
def withMemories (s : State) (body : Memories → Out) : Out :=
  match s.mem with
  | none => breakStep .memoryAbsent
  | some m => body m

/-- Go on with the result of an operation that may find an invariant broken. -/
def orBreak {α : Type} (r : Except Broken α) (body : α → Out) : Out :=
  match r with
  | .error why => breakStep why
  | .ok x => body x

/-! ### Allocators (41_allocators.md) -/

/-- `FrameInit(pm)`: the queue `[0, 4, .., 4*(pm div 4) - 4]` (R140). -/
def frameInit (pm : Nat) : List PhysAddr :=
  (List.range (pm / Config.pageSize)).map fun n => BitVec.ofNat 8 (4 * n)

/-- `SwapInit(sw)`: the queue `[4, 8, .., 4*(sw div 4) - 4]`, slot 0 skipped (R141). -/
def swapInit (sw : Nat) : List SwapAddr :=
  (List.range (sw / Config.pageSize - 1)).map fun k => BitVec.ofNat 9 (4 * (k + 1))

/-- `FrameAcquire()`: the head of `FQ`, or `EMPTY` (R142). -/
def frameAcquire (s : State) : Option (PhysAddr × State) :=
  match s.fq with
  | [] => none
  | f :: rest => some (f, { s with fq := rest })

/-- `SwapAcquire()`: the head of `SQ`, or `EMPTY` (R143). -/
def swapAcquire (s : State) : Option (SwapAddr × State) :=
  match s.sq with
  | [] => none
  | a :: rest => some (a, { s with sq := rest })

/-- A frame address names a frame below `NFRAMES` (10_state.md R44). -/
def frameInRange (s : State) (f : PhysAddr) : Bool :=
  decide (f.toNat % Config.pageSize = 0) && decide (f.toNat / Config.pageSize < nframes s)

/-- A slot address names a slot in `1 .. NSLOTS-1` (10_state.md R44). -/
def slotInRange (s : State) (a : SwapAddr) : Bool :=
  decide (a.toNat % Config.pageSize = 0) && decide (0 < a.toNat) && decide (a.toNat / Config.pageSize < nslots s)

/-! ### Victim queue (42_victim_queue.md) -/

/-- `VictimEnqueue(loc)` (R155). The queue has room for 64 entries (10_state.md R44). -/
def victimEnqueue (loc : PteLocation) (s : State) : Except Broken State :=
  if s.vq.length < Config.victimQueueMax then .ok { s with vq := s.vq ++ [loc] } else .error .victimQueueFull

/-- `VictimSelect()`: the head of `VQ`, or `EMPTY` (R156). It looks at nothing but the order of binding (R157). -/
def victimSelect (s : State) : Option (PteLocation × State) :=
  match s.vq with
  | [] => none
  | v :: rest => some (v, { s with vq := rest })

/-- The PFN of the victim at `v`, whose PTE is present by 10_state.md R43 (42_victim_queue.md R160;
44_fault_engine.md R191). -/
def victimPfn (s : State) (m : Memories) (v : PteLocation) : Except Broken Pfn :=
  match pteDecode (m.readPte v) with
  | .present pfn _ => if pfn.toNat < nframes s then .ok pfn else .error .frameOutOfRange
  | .swapped _ => .error .victimNotPresent
  | .unmapped => .error .victimNotPresent

/-! ### Frames and slots, four one-byte moves each (20_memory.md R62) -/

/-- Zero the frame at `f` (42_victim_queue.md R160; 44_fault_engine.md R188). -/
def zeroFrame (f : PhysAddr) (m : Memories) : Memories :=
  pageOffsets.foldl (fun m i => m.writePmem (frameByte f i) 0x00) m

/-- Copy the frame at `f` into the slot at `a` (42_victim_queue.md R160). -/
def copyFrameToSlot (f : PhysAddr) (a : SwapAddr) (m : Memories) : Memories :=
  pageOffsets.foldl (fun m i => m.writeSwap (slotByte a i) (m.readPmem (frameByte f i))) m

/-- Exchange byte `i` of the frame at `f` with byte `i` of the slot at `a` (44_fault_engine.md R191). -/
def exchangeByte (f : PhysAddr) (a : SwapAddr) (m : Memories) (i : BitVec 2) : Memories :=
  let tmp := m.readPmem (frameByte f i)
  (m.writePmem (frameByte f i) (m.readSwap (slotByte a i))).writeSwap (slotByte a i) tmp

/-- Exchange the frame at `f` with the slot at `a` (44_fault_engine.md R191). -/
def exchangeFrameSlot (f : PhysAddr) (a : SwapAddr) (m : Memories) : Memories :=
  pageOffsets.foldl (exchangeByte f a) m

/-- Zero the 64 PTE bytes of the table of base `f` (43_process_table.md R172). -/
def zeroTable (f : PhysAddr) (m : Memories) : Memories :=
  (tableLocs f).foldl (fun m loc => m.writePte loc 0x00) m

/-! ### Eviction, bind, swap-in -/

/-- What an eviction from the frame of `pfn` to the slot at `a` leaves in the memories: the frame copied, then zeroed,
then the victim's PTE rewritten as swapped (42_victim_queue.md R160). -/
def evictedMemories (v : PteLocation) (pfn : Pfn) (a : SwapAddr) (m : Memories) : Memories :=
  (zeroFrame (frameAddr pfn) (copyFrameToSlot (frameAddr pfn) a m)).writePte v (pteEncSwapped (slotIdx a))

/-- `EvictTo()` for the victim `v` and the slot address `a` just taken from their queues: the frame address now free
for the caller, and the state (42_victim_queue.md R160). -/
def evictTo (v : PteLocation) (a : SwapAddr) (s : State) : Except Broken (PhysAddr × State) :=
  match s.mem with
  | none => .error .memoryAbsent
  | some m =>
    match victimPfn s m v with
    | .error why => .error why
    | .ok pfn =>
      if slotInRange s a then .ok (frameAddr pfn, { s with mem := some (evictedMemories v pfn a m) })
      else .error .slotOutOfRange

/-- What a request for a frame gives. -/
inductive Obtained where
  /-- A frame address and the state without it. -/
  | frame (f : PhysAddr) (s : State)
  /-- No frame is free and no eviction can complete (42_victim_queue.md R158). -/
  | exhausted
  /-- The state breaks an invariant. -/
  | broken (why : Broken)

/-- Obtain a frame: 'Frame Allocator first; if exhausted, evict a victim' (43_process_table.md R172;
44_fault_engine.md R188, R189). The resources of an eviction are tested before anything changes
(42_victim_queue.md R158). -/
def obtainFrame (s : State) : Obtained :=
  match frameAcquire s with
  | some (f, s1) => if frameInRange s f then .frame f s1 else .broken .frameOutOfRange
  | none =>
    match victimSelect s with
    | none => .exhausted
    | some (v, s1) =>
      match swapAcquire s1 with
      | none => .exhausted
      | some (a, s2) =>
        match evictTo v a s2 with
        | .error why => .broken why
        | .ok (f, s3) => .frame f s3

/-- What a bind of the frame `f` to the location `e` leaves in the memories (44_fault_engine.md R188). -/
def boundMemories (e : PteLocation) (f : PhysAddr) (m : Memories) : Memories :=
  (zeroFrame f m).writePte e (pteEncPresent (pfnOf f))

/-- `Bind(e, f)` (44_fault_engine.md R188). -/
def bindFrame (e : PteLocation) (f : PhysAddr) (s : State) : Except Broken State :=
  match s.mem with
  | none => .error .memoryAbsent
  | some m => victimEnqueue e { s with mem := some (boundMemories e f m) }

/-- What a swap-in of `e` from `slot`, exchanging with the victim `v` in the frame of `pfn`, leaves in the memories
(44_fault_engine.md R191). -/
def swappedInMemories (e v : PteLocation) (pfn : Pfn) (slot : SlotIndex) (m : Memories) : Memories :=
  ((exchangeFrameSlot (frameAddr pfn) (slotAddr slot) m).writePte v (pteEncSwapped slot)).writePte e
    (pteEncPresent pfn)

/-- The swap-in of `e` from `slot` once the victim `v` has been taken from `VQ` (44_fault_engine.md R191). The slot
lies in `1 .. NSLOTS-1` by 10_state.md R44 (D25). -/
def swapIn (e : PteLocation) (slot : SlotIndex) (v : PteLocation) (s : State) : Except Broken State :=
  match s.mem with
  | none => .error .memoryAbsent
  | some m =>
    match victimPfn s m v with
    | .error why => .error why
    | .ok pfn =>
      if slotInRange s (slotAddr slot) then
        victimEnqueue e { s with mem := some (swappedInMemories e v pfn slot m) }
      else .error .slotOutOfRange

/-! ### Process table (43_process_table.md) -/

/-- `ProcLookup(pid)`: the base of the first record of `pid`, or `NOT_FOUND` (R170). -/
def procLookup : List ProcRecord → Pid → Option PhysAddr
  | [], _ => none
  | r :: rest, pid => if r.pid = pid then some r.base else procLookup rest pid

/-- Some record holds `base`: a live base (45_translator.md R208). -/
def liveBase : List ProcRecord → PhysAddr → Bool
  | [], _ => false
  | r :: rest, base => decide (r.base = base) || liveBase rest base

/-- Zero the table of the frame `f` and append the record `(pid, f)` (43_process_table.md R172). The table has room
for 64 records (10_state.md R44). -/
def addProcess (pid : Pid) (f : PhysAddr) (s : State) : Except Broken State :=
  match s.mem with
  | none => .error .memoryAbsent
  | some m =>
    if s.proc.length < Config.procMax then
      .ok { s with mem := some (zeroTable f m), proc := s.proc ++ [⟨pid, f⟩] }
    else .error .processTableFull

/-! ### Registers (10_state.md R33) -/

/-- A count register: the length of a queue or table that holds at most `most` entries. -/
def countRegister (most len : Nat) : Except Broken (BitVec 12) :=
  if len ≤ most then .ok (BitVec.ofNat 12 len) else .error .countOverCapacity

/-- Register number `n`, zero-extended to 12 bits; `none` for a reserved number (10_state.md R33). -/
def csrRead (s : State) (n : BitVec 8) : Option (Except Broken (BitVec 12)) :=
  match n.toNat with
  | 0 => some (.ok ((lifecycleCode s.lc).setWidth 12))
  | 1 => some (.ok (s.pmemSize.setWidth 12))
  | 2 => some (.ok (s.swapSize.setWidth 12))
  | 3 => some (.ok (BitVec.ofNat 12 (nframes s)))
  | 4 => some (.ok (BitVec.ofNat 12 (nslots s)))
  | 5 => some (countRegister Config.frameQueueMax s.fq.length)
  | 6 => some (countRegister Config.slotQueueMax s.sq.length)
  | 7 => some (countRegister Config.victimQueueMax s.vq.length)
  | 8 => some (countRegister Config.procMax s.proc.length)
  | _ => none

/-! ### Clearing the paging state -/

/-- Registers, queues and tables as after reset and after `TEARDOWN`; the memories become unspecified, so absent
(10_state.md R37, second column). -/
def State.cleared (s : State) : State :=
  { s with lc := .uninit, pmemSize := 0, swapSize := 0, mem := none, fq := [], sq := [], vq := [], proc := [] }

end Sys2Proof.Machine
end

