-- ==== Sys2Proof/Machine/Access.lean ====
section
/-!
DEFINITION. The host access commands `MEMRD`, `MEMWR`, `SWRD`, `PTERD`, `CSRRD` (46_lifecycle_and_access.md R218 to
R222).
-/

namespace Sys2Proof.Machine

/-- `MEMRD pa` (46_lifecycle_and_access.md R218). -/
def execMemrd (pa : PhysAddr) (s : State) : Out :=
  whenReady s
    (if s.pmemSize.toNat ≤ pa.toNat then refuse s
     else withMemories s fun m => respond s .ok ((m.readPmem pa).setWidth 12))

/-- `MEMWR pa, data` (46_lifecycle_and_access.md R219). -/
def execMemwr (pa : PhysAddr) (data : Byte) (s : State) : Out :=
  whenReady s
    (if s.pmemSize.toNat ≤ pa.toNat then refuse s
     else withMemories s fun m => respond { s with mem := some (m.writePmem pa data) } .ok 0)

/-- `SWRD sa` (46_lifecycle_and_access.md R220). -/
def execSwrd (sa : SwapAddr) (s : State) : Out :=
  whenReady s
    (if s.swapSize.toNat ≤ sa.toNat then refuse s
     else withMemories s fun m => respond s .ok ((m.readSwap sa).setWidth 12))

/-- `PTERD base, vpn` (46_lifecycle_and_access.md R221). -/
def execPterd (base : PhysAddr) (vpn : Vpn) (s : State) : Out :=
  whenReady s
    (if liveBase s.proc base then
      withMemories s fun m => respond s .ok ((m.readPte (pteLoc base vpn)).setWidth 12)
     else refuse s)

/-- `CSRRD n`, accepted in every lifecycle state (46_lifecycle_and_access.md R222). -/
def execCsrrd (n : BitVec 8) (s : State) : Out :=
  match csrRead s n with
  | none => refuse s
  | some r => orBreak r fun v => respond s .ok v

end Sys2Proof.Machine
end

