-- ==== Sys2Proof/Machine/FaultEngine.lean ====
section
/-!
DEFINITION. `RESOLVE`, the page-fault engine (44_fault_engine.md R185 to R196).
-/

namespace Sys2Proof.Machine

/-- Paths 2a and 2b: the PTE at `e` is unmapped. A frame comes from `FQ`, or from an eviction, and is bound to `e`
(44_fault_engine.md R188, R189). -/
def resolveUnmapped (e : PteLocation) (s : State) : Out :=
  match obtainFrame s with
  | .exhausted => failNoCapacity s
  | .broken why => breakStep why
  | .frame f s1 => orBreak (bindFrame e f s1) fun s2 => respond s2 .ok 0

/-- Path 3: the PTE at `e` is swapped. The page is exchanged with the oldest present one (44_fault_engine.md R191).
Neither `FQ` nor `SQ` is consulted (R192). -/
def resolveSwapped (e : PteLocation) (slot : SlotIndex) (s : State) : Out :=
  match victimSelect s with
  | none => failNoCapacity s
  | some (v, s1) => orBreak (swapIn e slot v s1) fun s2 => respond s2 .ok 0

/-- `RESOLVE pid, va` (44_fault_engine.md R186). The location always combines the base with the VPN (R195). -/
def execResolve (pid : Pid) (va : VirtAddr) (s : State) : Out :=
  whenReady s
    (match procLookup s.proc pid with
     | none => respond s .notFound 0
     | some b =>
       withMemories s fun m =>
         match pteDecode (m.readPte (pteLoc b (vpnOfVa va))) with
         | .present _ _ => respond s .ok 0
         | .unmapped => resolveUnmapped (pteLoc b (vpnOfVa va)) s
         | .swapped slot => resolveSwapped (pteLoc b (vpnOfVa va)) slot s)

end Sys2Proof.Machine
end

