-- ==== Sys2Proof/Machine/Lifecycle.lean ====
section
/-!
DEFINITION. `INIT` and `TEARDOWN` (46_lifecycle_and_access.md R215 to R217).
-/

namespace Sys2Proof.Machine

/-- The state `INIT` builds (46_lifecycle_and_access.md R215; 10_state.md R37, third column). -/
def State.initialised (s : State) (pm sw : BitVec 12) : State :=
  { s with
    lc := .ready
    pmemSize := pm.setWidth 9
    swapSize := sw.setWidth 10
    mem := some Memories.zeroed
    fq := frameInit pm.toNat
    sq := swapInit sw.toNat
    vq := []
    proc := [] }

/-- `INIT pmem_size, swap_size` (46_lifecycle_and_access.md R215, R216). -/
def execInit (pm sw : BitVec 12) (s : State) : Out :=
  whenUninit s
    (if Config.pmemCap < pm.toNat ∨ Config.swapCap < sw.toNat then respond s .allocError 0
     else respond (s.initialised pm sw) .ok 0)

/-- `TEARDOWN`, accepted in every lifecycle state (46_lifecycle_and_access.md R217). -/
def execTeardown (s : State) : Out := respond s.cleared .ok 0

end Sys2Proof.Machine
end

