-- ==== Sys2Proof/Machine/ProcessTable.lean ====
section
/-!
DEFINITION. `ADMIT` and `LOOKUP` (43_process_table.md R170 to R175).
-/

namespace Sys2Proof.Machine

/-- `ADMIT` of a pid that has no record: obtain a frame, zero its table, append the record
(43_process_table.md R172). The frame is not entered in `VQ`. -/
def admitNew (pid : Pid) (s : State) : Out :=
  match obtainFrame s with
  | .exhausted => failNoCapacity s
  | .broken why => breakStep why
  | .frame f s1 => orBreak (addProcess pid f s1) fun s2 => respond s2 .ok (f.setWidth 12)

/-- `ADMIT pid` (43_process_table.md R172, R173). -/
def execAdmit (pid : Pid) (s : State) : Out :=
  whenReady s
    (match procLookup s.proc pid with
     | some b => respond s .ok (b.setWidth 12)
     | none => admitNew pid s)

/-- `LOOKUP pid` (43_process_table.md R171). -/
def execLookup (pid : Pid) (s : State) : Out :=
  whenReady s
    (match procLookup s.proc pid with
     | some b => respond s .ok (b.setWidth 12)
     | none => respond s .notFound 0)

end Sys2Proof.Machine
end

