-- ==== Sys2Proof/Machine/Translator.lean ====
section
/-!
DEFINITION. `TRANSLATE`, the page-table walker (45_translator.md R205 to R208).
-/

namespace Sys2Proof.Machine

/-- `TRANSLATE base, va` (45_translator.md R205, R208). The user flag is ignored; no state changes but `RSP`
(R206). -/
def execTranslate (base : PhysAddr) (va : VirtAddr) (s : State) : Out :=
  whenReady s
    (if liveBase s.proc base then
      withMemories s fun m =>
        match pteDecode (m.readPte (pteLoc base (vpnOfVa va))) with
        | .present pfn _ => respond s .ok ((physAddr pfn (offOfVa va)).setWidth 12)
        | .unmapped => respond s .fault 0
        | .swapped _ => respond s .fault 0
     else refuse s)

end Sys2Proof.Machine
end

