-- ==== Sys2Proof/Machine/Dispatch.lean ====
section
/-!
DEFINITION. The meaning of each command, one arm per row of spec/opcode_table.json.
-/

namespace Sys2Proof.Machine

def exec (i : Instr) (s : State) : Host.Outcome State Fault Refusal :=
  match i with
  | .init pm sw => Sys2Proof.Machine.execInit pm sw s
  | .admitProc pid => Sys2Proof.Machine.execAdmit pid s
  | .lookup pid => Sys2Proof.Machine.execLookup pid s
  | .translate base va => Sys2Proof.Machine.execTranslate base va s
  | .resolve pid va => Sys2Proof.Machine.execResolve pid va s
  | .memrd pa => Sys2Proof.Machine.execMemrd pa s
  | .memwr pa data => Sys2Proof.Machine.execMemwr pa data s
  | .swrd sa => Sys2Proof.Machine.execSwrd sa s
  | .pterd base vpn => Sys2Proof.Machine.execPterd base vpn s
  | .csrrd n => Sys2Proof.Machine.execCsrrd n s
  | .teardown => Sys2Proof.Machine.execTeardown s

end Sys2Proof.Machine
end

