-- ==== Sys2Proof/Decode.lean ====
section
/-!
DEFINITION. The decoder of command words, total, rejecting by name (30_encoding.md R92 to R98), and after it the
encoder. The engine fetches nothing from a memory (20_memory.md R71): a command is the 32-bit word on the `cmd` port,
so there are no instruction bytes and no byte order.
-/

namespace Sys2Proof

/-- The fields of a command word (30_encoding.md R92). -/
def commandFields (w : CommandWord) : CommandFields :=
  { op := w.extractLsb' 28 4, rsv := w.extractLsb' 24 4, a := w.extractLsb' 12 12, b := w.extractLsb' 0 12 }

/-- The low `n` bits of an operand field, if the bits above them are 0 (30_encoding.md R93, R97). -/
def operand (n : Nat) (field : BitVec 12) : Option (BitVec n) :=
  if field.toNat < 2 ^ n then some (field.setWidth n) else none

/-- A command with one operand of `n` bits in `A` and `B` zero. -/
def oneOperand (n : Nat) (f : CommandFields) (mk : BitVec n → Instr) : Except Malformed Instr :=
  match operand n f.a with
  | none => .error .operandA
  | some x => if f.b = 0 then .ok (mk x) else .error .operandB

/-- A command with an operand of `n` bits in `A` and one of `k` bits in `B`. -/
def twoOperands (n k : Nat) (f : CommandFields) (mk : BitVec n → BitVec k → Instr) : Except Malformed Instr :=
  match operand n f.a with
  | none => .error .operandA
  | some x =>
    match operand k f.b with
    | none => .error .operandB
    | some y => .ok (mk x y)

/-- A command with no operand: both fields zero. -/
def noOperand (f : CommandFields) (i : Instr) : Except Malformed Instr :=
  if f.a ≠ 0 then .error .operandA else if f.b ≠ 0 then .error .operandB else .ok i

/-- The opcode map (30_encoding.md R94) over the fields of a word whose `rsv` is 0. -/
def decodeOpcode (f : CommandFields) : Except Malformed Instr :=
  match f.op.toNat with
  | 0x1 => .ok (.init f.a f.b)
  | 0x2 => oneOperand 8 f .admitProc
  | 0x3 => oneOperand 8 f .lookup
  | 0x4 => twoOperands 8 8 f .translate
  | 0x5 => twoOperands 8 8 f .resolve
  | 0x6 => oneOperand 8 f .memrd
  | 0x7 => twoOperands 8 8 f .memwr
  | 0x8 => oneOperand 9 f .swrd
  | 0x9 => twoOperands 8 6 f .pterd
  | 0xA => oneOperand 8 f .csrrd
  | 0xF => noOperand f .teardown
  | _ => .error .reservedOpcode

/-- The decoder: stage (1) of 30_encoding.md R98. A word it rejects is malformed (R97). -/
def decode (w : CommandWord) : Except Malformed Instr :=
  let f := commandFields w
  if f.rsv ≠ 0 then .error .reservedField else decodeOpcode f

/-- The instruction the decoder reads from a table row's bits `w`, numbered as spec/opcode_table.json numbers them. A
command is one 32-bit word (30_encoding.md R100), so a longer row is no command. -/
def decodeTableWord (nbits w : Nat) : Option Instr :=
  if nbits ≤ 32 then
    match decode (BitVec.ofNat 32 (w % 2 ^ nbits)) with
    | .ok i => some i
    | .error _ => none
  else none

/-- A command word from its opcode and operand fields, `rsv` 0: `(op << 28) | (A << 12) | B` (30_encoding.md R101). -/
def commandWord (op : BitVec 4) (a b : BitVec 12) : CommandWord := op ++ 0#4 ++ a ++ b

/-- The encoder (30_encoding.md R92 to R94). -/
def encode : Instr → CommandWord
  | .init pm sw => commandWord 0x1 pm sw
  | .admitProc pid => commandWord 0x2 (pid.setWidth 12) 0
  | .lookup pid => commandWord 0x3 (pid.setWidth 12) 0
  | .translate base va => commandWord 0x4 (base.setWidth 12) (va.setWidth 12)
  | .resolve pid va => commandWord 0x5 (pid.setWidth 12) (va.setWidth 12)
  | .memrd pa => commandWord 0x6 (pa.setWidth 12) 0
  | .memwr pa data => commandWord 0x7 (pa.setWidth 12) (data.setWidth 12)
  | .swrd sa => commandWord 0x8 (sa.setWidth 12) 0
  | .pterd base vpn => commandWord 0x9 (base.setWidth 12) (vpn.setWidth 12)
  | .csrrd n => commandWord 0xA (n.setWidth 12) 0
  | .teardown => commandWord 0xF 0 0

end Sys2Proof
end

