-- ==== Sys2Proof/Machine/Port.lean ====
section
/-!
DEFINITION. The command port and the reset input (30_encoding.md R90, R91; 70_reset_and_hazards.md R270): what each
port input does, but for running a command, which Step.lean adds from exec.
-/

namespace Sys2Proof.Machine

/-- The port value `cmd_ready` while an input is on the ports (30_encoding.md R91; 70_reset_and_hazards.md R270). -/
def cmdReady : PortInput → Bool
  | .idle => true
  | .command _ => true
  | .notReady _ => false
  | .reset _ => false

/-- No command ends in this step: `rsp_valid` is low, all else is kept (60_exceptions.md R258;
93_implementation_defined.md W7). -/
def State.quiet (s : State) : State := { s with rspValid := false }

/-- The `rst` input: the state of 10_state.md R37, second column; `RSP` is unspecified, so a free value
(70_reset_and_hazards.md R270; log entry 2). A command in flight gets no response. -/
def State.powerOnReset (s : State) : State :=
  { s.cleared with rsp := Config.freeRsp s.freeDraws, rspValid := false, freeDraws := s.freeDraws + 1 }

/-- What the host gets on the response port: the response word while `rsp_valid` is high, else nothing it may sample
(30_encoding.md R90, R91; 93_implementation_defined.md U2). -/
def State.response (s : State) : Option ResponseWord := if s.rspValid then some s.rsp else none

/-- Run a taken command word: stage (1) of 30_encoding.md R98 answers a malformed word (R97), else the meaning runs
the command with its own stages (2) and (3). -/
def runWord (meaning : Instr → State → Out) (w : CommandWord) (s : State) : Out :=
  match decode w with
  | .error _ => refuse s
  | .ok i => meaning i s

/-- One port input, over the state from which it has been taken off. -/
def takeInput (meaning : Instr → State → Out) (x : PortInput) (s : State) : Out :=
  match x with
  | .idle => .next s.quiet
  | .command w => runWord meaning w s
  | .notReady _ => .next s.quiet
  | .reset _ => .next s.powerOnReset

/-- One step: the next port input is taken off and acted on; with nothing driven the engine is idle. -/
def portStep (meaning : Instr → State → Out) (s : State) : Out :=
  match s.port with
  | [] => .next s.quiet
  | x :: rest => takeInput meaning x { s with port := rest }

/-- The state with a command word presented ahead of whatever the host drives. -/
def State.present (s : State) (w : CommandWord) : State := { s with port := .command w :: s.port }

end Sys2Proof.Machine
end

