-- ==== Sys2Proof/Machine/Step.lean ====
section
/-!
DEFINITION. One step of the engine: the next port input, with exec as the meaning of a command.
-/

namespace Sys2Proof.Machine

/-- One step (INDEX.md, reading order: 'decode the word, then run the command's rule'). -/
def step (s : State) : Host.Outcome State Fault Refusal := portStep exec s

/-- The state in which the very next step takes the command word whose table bits are `w` (bits above `nbits` zero):
the word is the next thing the host presents on the `cmd` port. -/
def State.withFetchWord (s : State) (nbits w : Nat) : State := s.present (BitVec.ofNat 32 (w % 2 ^ nbits))

end Sys2Proof.Machine
end

