-- ==== Sys2Proof/Safety.lean ====
section
/-!
DEFINITION. The terms the statements use: which commands a lifecycle state accepts (30_encoding.md R99), the live page
tables and what their PTEs say, the consistency of a state (the invariants of 10_state.md R40 to R47), and the states
the host can bring the engine to.
-/

namespace Sys2Proof.Machine

/-- The table of lifecycle acceptance (30_encoding.md R99). -/
def accepts : Instr → Lifecycle → Bool
  | .init _ _, lc => decide (lc = .uninit)
  | .admitProc _, lc => decide (lc = .ready)
  | .lookup _, lc => decide (lc = .ready)
  | .translate _ _, lc => decide (lc = .ready)
  | .resolve _ _, lc => decide (lc = .ready)
  | .memrd _, lc => decide (lc = .ready)
  | .memwr _ _, lc => decide (lc = .ready)
  | .swrd _, lc => decide (lc = .ready)
  | .pterd _ _, lc => decide (lc = .ready)
  | .csrrd _, _ => true
  | .teardown, _ => true

/-! ### Live page tables -/

/-- The live locations: the 64 PTE locations of each live base, in admission order (10_state.md section 7). -/
def liveLocs (proc : List ProcRecord) : List PteLocation := proc.flatMap fun r => tableLocs r.base

/-- The frame a PTE names, if it is present (40_pte_codec.md R120, R126). -/
def presentFrame (m : Memories) (loc : PteLocation) : Option PhysAddr :=
  match pteDecode (m.readPte loc) with
  | .present pfn _ => some (frameAddr pfn)
  | .swapped _ => none
  | .unmapped => none

/-- The slot a PTE names, if it is swapped (40_pte_codec.md R120, R127). -/
def swappedSlot (m : Memories) (loc : PteLocation) : Option SwapAddr :=
  match pteDecode (m.readPte loc) with
  | .present _ _ => none
  | .swapped slot => some (slotAddr slot)
  | .unmapped => none

/-- `present(loc)`: bit 0 of the PTE byte is 1 (10_state.md section 7). -/
def isPresent (m : Memories) (loc : PteLocation) : Bool := (m.readPte loc).getLsbD 0

/-- The frames of the present live PTEs. -/
def presentFrames (s : State) (m : Memories) : List PhysAddr := (liveLocs s.proc).filterMap (presentFrame m)

/-- The slots of the swapped live PTEs. -/
def swappedSlots (s : State) (m : Memories) : List SwapAddr := (liveLocs s.proc).filterMap (swappedSlot m)

/-- The frames that processes consumed for their page tables. -/
def tableFrames (s : State) : List PhysAddr := s.proc.map (·.base)

/-- The content of a page: byte `i` of its frame if it is present, of its slot if it is swapped, nothing if it is
unmapped. -/
def pageByte (m : Memories) (loc : PteLocation) (i : BitVec 2) : Option Byte :=
  match pteDecode (m.readPte loc) with
  | .present p _ => some (m.readPmem (frameByte (frameAddr p) i))
  | .swapped x => some (m.readSwap (slotByte (slotAddr x) i))
  | .unmapped => none

/-! ### Consistency -/

/-- The invariants of a state whose memories exist. -/
structure PagingConsistent (s : State) (m : Memories) : Prop where
  /-- The sizes are legal (10_state.md R24). -/
  pmemSize_le : s.pmemSize.toNat ≤ Config.pmemCap
  swapSize_le : s.swapSize.toNat ≤ Config.swapCap
  /-- Frame ownership and conservation: free frames, frames of present live PTEs and page-table frames together are
  every frame exactly once (R40, R41, R44). -/
  frames : (s.fq ++ presentFrames s m ++ tableFrames s).Perm (frameInit s.pmemSize.toNat)
  /-- Slot ownership: free slots and slots of swapped live PTEs together are every slot but slot 0 exactly once
  (R42, R44). -/
  slots : (s.sq ++ swappedSlots s m).Perm (swapInit s.swapSize.toNat)
  /-- The victim queue holds each present live location exactly once (R43). -/
  victims : s.vq.Perm ((liveLocs s.proc).filter (isPresent m))
  /-- Pids are unique (R44). -/
  pids : (s.proc.map (·.pid)).Nodup
  /-- The user flag of a present live PTE is 0 (R45). -/
  userFlag : ∀ loc ∈ liveLocs s.proc, isPresent m loc = true → (m.readPte loc).getLsbD 1 = false
  /-- While a live PTE is swapped no frame is free (R46). -/
  swappedNoFree : swappedSlots s m ≠ [] → s.fq = []
  /-- Every PTE byte outside the live page tables is 0 (R47). -/
  deadZero : ∀ loc, loc ∉ liveLocs s.proc → m.readPte loc = 0
  /-- The memories are in canonical form. -/
  wf : m.wf = true

/-- A state every part of which is as the rules leave it: in `UNINIT` as after reset (10_state.md R37), in `READY` and
`FAILED` the invariants of R40 to R47. -/
def State.Consistent (s : State) : Prop :=
  match s.lc with
  | .uninit =>
    s.pmemSize = 0 ∧ s.swapSize = 0 ∧ s.mem = none ∧ s.fq = [] ∧ s.sq = [] ∧ s.vq = [] ∧ s.proc = []
  | .ready => ∃ m, s.mem = some m ∧ PagingConsistent s m
  | .failed => ∃ m, s.mem = some m ∧ PagingConsistent s m

/-- The states the host can bring the engine to: from power-on reset with any value in `RSP` (10_state.md R37) and any
inputs on the ports, by steps. -/
inductive Reachable : State → Prop
  | reset (inputs : List PortInput) (word : ResponseWord) :
      Reachable { State.reset with port := inputs, rsp := word }
  | step {s t : State} (hs : Reachable s) (h : step s = .next t) : Reachable t

end Sys2Proof.Machine
end

