-- ==== Sys2Proof/Certificates/Slice0/Obligations.lean ====
section
/-!
DEFINITION. The statements for the provers. Each docstring names the rule of spec/ it formalises. A state's
`Consistent` is the conjunction of the invariants 10_state.md R40 to R47 (Safety.lean): it is stated of the reset state
(ResetIsConsistent), of every step (StepKeepsConsistency), and assumed where a rule needs it. Response words are written
out: status in bits 15:12, value in bits 11:0 (30_encoding.md R95).
-/

open Sys2Proof Sys2Proof.Machine

/-! ### Encoding -/

/-- The words of the spec's worked examples decode to the commands they stand for (the examples of each command's rule;
95_test_vectors.md). -/
def Obligations.SpecWordsDecode : Prop :=
  decode 0x10008008 = .ok (.init 8 8) ∧ decode 0x10100200 = .ok (.init 256 512) ∧
  decode 0x200FF000 = .ok (.admitProc 255) ∧ decode 0x30007000 = .ok (.lookup 7) ∧
  decode 0x4000C000 = .ok (.translate 12 0) ∧ decode 0x400000FF = .ok (.translate 0 0xFF) ∧
  decode 0x500FF0FC = .ok (.resolve 255 0xFC) ∧ decode 0x60004000 = .ok (.memrd 4) ∧
  decode 0x700040A1 = .ok (.memwr 4 0xA1) ∧ decode 0x80004000 = .ok (.swrd 4) ∧
  decode 0x9000003F = .ok (.pterd 0 63) ∧ decode 0xA0006000 = .ok (.csrrd 6) ∧
  decode 0xF0000000 = .ok .teardown

/-- Decoding the encoding of a command gives the command, every operand at every value (30_encoding.md R92 to R94). -/
def Obligations.DecodeOfEncode : Prop := ∀ i : Instr, decode (encode i) = .ok i

/-- A word that decodes is the encoding of what it decodes to: no two words mean the same command
(92_eei_decisions.md D13). -/
def Obligations.EncodeOfDecode : Prop := ∀ (w : CommandWord) (i : Instr), decode w = .ok i → encode i = w

/-- The decoder rejects exactly the malformed words of 30_encoding.md R97, written out bit by bit; a malformed word is
answered `REFUSED` in every lifecycle state and changes no state but `RSP`; and every word has a response and a next
state (in every state that keeps the invariants). -/
def Obligations.RefusesExactlyMalformedWords : Prop :=
  ∀ w : CommandWord,
    ((∃ e, decode w = .error e) ↔
      (w.extractLsb' 28 4 ∈ ([0x0, 0xB, 0xC, 0xD, 0xE] : List (BitVec 4)) ∨
       w.extractLsb' 24 4 ≠ 0 ∨
       (w.extractLsb' 28 4 = 0xF ∧ w.extractLsb' 12 12 ≠ 0) ∨
       (w.extractLsb' 28 4 ∈ ([0x2, 0x3, 0x6, 0x8, 0xA, 0xF] : List (BitVec 4)) ∧ w.extractLsb' 0 12 ≠ 0) ∨
       (w.extractLsb' 28 4 ∈ ([0x2, 0x3, 0x4, 0x5, 0x6, 0x7, 0x9, 0xA] : List (BitVec 4)) ∧ w.extractLsb' 20 4 ≠ 0) ∨
       (w.extractLsb' 28 4 = 0x8 ∧ w.extractLsb' 21 3 ≠ 0) ∨
       (w.extractLsb' 28 4 ∈ ([0x4, 0x5, 0x7] : List (BitVec 4)) ∧ w.extractLsb' 8 4 ≠ 0) ∨
       (w.extractLsb' 28 4 = 0x9 ∧ w.extractLsb' 6 6 ≠ 0))) ∧
    (∀ (e : Malformed) (s : State) (rest : List PortInput), decode w = .error e → s.port = .command w :: rest →
      step s = .next { s with port := rest, rsp := 0x5000, rspValid := true }) ∧
    (∀ (s : State) (rest : List PortInput), s.Consistent → s.port = .command w :: rest →
      ∃ t, step s = .next t ∧ t.rspValid = true)

/-! ### The port and reset -/

/-- A step at which the host presents a well-formed command word runs the decoded command: step is exec of it over the
state whose port has given the word up. -/
def Obligations.StepRunsDecodedCommand : Prop :=
  ∀ (s : State) (w : CommandWord) (rest : List PortInput) (i : Instr),
    s.port = .command w :: rest → decode w = .ok i → step s = exec i { s with port := rest }

/-- With nothing presented (an empty list or an idle input: the model's log entry 1), or with a word presented while
`cmd_ready` is low (an input of its own: log entry 10), no command is taken: all state but `rsp_valid` is kept, the input
leaves the port list, and `rsp_valid` is low (30_encoding.md R91; 60_exceptions.md R258; 93_implementation_defined.md W7).
The `rst` input, which clears state, is `Obligations.PowerOnResetClears`. -/
def Obligations.QuietInputsKeepTheState : Prop :=
  ∀ (s : State) (rest : List PortInput) (w : CommandWord),
    (s.port = [] → step s = .next { s with rspValid := false }) ∧
    (s.port = .idle :: rest → step s = .next { s with port := rest, rspValid := false }) ∧
    (s.port = .notReady w :: rest → step s = .next { s with port := rest, rspValid := false })

/-- The `rst` input puts the engine in the state of 10_state.md R37, second column, from every state and whatever
command is in flight, which gets no response (70_reset_and_hazards.md R270). The memories are absent: the model's
reading of 'unspecified' (log entry 3). Nothing is said of `RSP`. -/
def Obligations.PowerOnResetClears : Prop :=
  ∀ (s : State) (inFlight : Option CommandWord) (rest : List PortInput), s.port = .reset inFlight :: rest →
    ∃ t, step s = .next t ∧ t.lc = .uninit ∧ t.pmemSize = 0 ∧ t.swapSize = 0 ∧ t.mem = none ∧ t.fq = [] ∧ t.sq = [] ∧
      t.vq = [] ∧ t.proc = [] ∧ t.rspValid = false ∧ t.port = rest

/-- Exactly one response follows each taken command, and none follows anything else (30_encoding.md R91); a step takes
exactly one input off the port. -/
def Obligations.OneResponsePerCommand : Prop :=
  ∀ (s t : State) (x : PortInput) (rest : List PortInput), s.port = x :: rest → step s = .next t →
    (t.rspValid = true ↔ ∃ w, x = .command w) ∧ t.port = rest

/-- The table of 10_state.md R37: after power-on reset, after `TEARDOWN` (whose response is 0x0000), and after an
`INIT` that answers `OK`. The unspecified memories are absent (log entry 3). -/
def Obligations.ResetTeardownAndInitValues : Prop :=
  (State.reset.lc = .uninit ∧ State.reset.pmemSize = 0 ∧ State.reset.swapSize = 0 ∧ State.reset.mem = none ∧
    State.reset.fq = [] ∧ State.reset.sq = [] ∧ State.reset.vq = [] ∧ State.reset.proc = []) ∧
  (∀ s : State, exec .teardown s = .next
    { s with lc := .uninit, pmemSize := 0, swapSize := 0, mem := none, fq := [], sq := [], vq := [], proc := [],
             rsp := 0x0000, rspValid := true }) ∧
  (∀ (s t : State) (pm sw : BitVec 12), exec (.init pm sw) s = .next t → t.rsp = 0x0000 →
    t.lc = .ready ∧ t.pmemSize.toNat = pm.toNat ∧ t.swapSize.toNat = sw.toNat ∧
    t.fq = (List.range (pm.toNat / 4)).map (fun n => BitVec.ofNat 8 (4 * n)) ∧
    t.sq = (List.range (sw.toNat / 4 - 1)).map (fun k => BitVec.ofNat 9 (4 * (k + 1))) ∧
    t.vq = [] ∧ t.proc = [] ∧
    ∃ m, t.mem = some m ∧ (∀ a, m.readPmem a = 0) ∧ (∀ a, m.readSwap a = 0) ∧ (∀ a, m.readPte a = 0))

/-! ### Lifecycle -/

/-- In a lifecycle state whose column has no `x` a well-formed command is answered `REFUSED` and changes no state but
`RSP` (30_encoding.md R99). -/
def Obligations.LifecycleRefusal : Prop :=
  ∀ (i : Instr) (s : State), accepts i s.lc = false →
    exec i s = .next { s with rsp := 0x5000, rspValid := true }

/-- The transitions of `LC`: no command makes any other; `LC` reads as CSR 0 with its codes; its reset value is
`UNINIT` (10_state.md R23). -/
def Obligations.LifecycleTransitions : Prop :=
  (∀ (i : Instr) (s t : State), exec i s = .next t →
    t.lc = s.lc ∨
    (s.lc = .uninit ∧ t.lc = .ready ∧ (∃ pm sw, i = .init pm sw) ∧ t.rsp = 0x0000) ∨
    (s.lc = .ready ∧ t.lc = .failed ∧ ((∃ pid, i = .admitProc pid) ∨ ∃ pid va, i = .resolve pid va) ∧ t.rsp = 0x2000) ∨
    (t.lc = .uninit ∧ i = .teardown)) ∧
  (∀ (i : Instr) (s t : State), exec i s = .next t → t.rsp = 0x2000 → t.lc = .failed) ∧
  (∀ s : State, exec (.csrrd 0) s = .next
    { s with rsp := 0x0#4 ++ (match s.lc with | .uninit => 0#12 | .ready => 1#12 | .failed => 2#12),
             rspValid := true }) ∧
  State.reset.lc = .uninit

/-- `INIT`: its encoding; in `UNINIT` sizes within the capacities build the paging state over zeroed memories and
answer `OK 0`, larger sizes answer `ALLOC_ERROR` and change no state but `RSP`; elsewhere `REFUSED`
(46_lifecycle_and_access.md R215, R216; 41_allocators.md R140, R141). -/
def Obligations.InitBuildsThePagingState : Prop :=
  ∀ (pm sw : BitVec 12) (s : State),
    encode (.init pm sw) = 0x1#4 ++ 0#4 ++ pm ++ sw ∧
    (s.lc ≠ .uninit → exec (.init pm sw) s = .next { s with rsp := 0x5000, rspValid := true }) ∧
    (s.lc = .uninit → 256 < pm.toNat ∨ 512 < sw.toNat →
      exec (.init pm sw) s = .next { s with rsp := 0x3000, rspValid := true }) ∧
    (s.lc = .uninit → pm.toNat ≤ 256 → sw.toNat ≤ 512 →
      ∃ m, exec (.init pm sw) s = .next
          { s with lc := .ready, pmemSize := BitVec.ofNat 9 pm.toNat, swapSize := BitVec.ofNat 10 sw.toNat,
                   mem := some m,
                   fq := (List.range (pm.toNat / 4)).map (fun n => BitVec.ofNat 8 (4 * n)),
                   sq := (List.range (sw.toNat / 4 - 1)).map (fun k => BitVec.ofNat 9 (4 * (k + 1))),
                   vq := [], proc := [], rsp := 0x0000, rspValid := true } ∧
        (∀ a, m.readPmem a = 0) ∧ (∀ a, m.readSwap a = 0) ∧ (∀ a, m.readPte a = 0))

/-- `TEARDOWN`: its encoding; in every lifecycle state it clears registers, queues and process table, the memories
become unspecified (absent: log entry 3) and it answers `OK 0`; it is the only way out of `FAILED`; in `UNINIT` it
changes nothing but `RSP` (46_lifecycle_and_access.md R217). -/
def Obligations.TeardownClearsThePagingState : Prop :=
  encode .teardown = 0xF0000000 ∧
  (∀ s : State, exec .teardown s = .next
    { s with lc := .uninit, pmemSize := 0, swapSize := 0, mem := none, fq := [], sq := [], vq := [], proc := [],
             rsp := 0x0000, rspValid := true }) ∧
  (∀ (i : Instr) (s t : State), s.lc = .failed → exec i s = .next t → t.lc ≠ .failed → i = .teardown) ∧
  (∀ s : State, s.Consistent → s.lc = .uninit → exec .teardown s = .next { s with rsp := 0x0000, rspValid := true })

/-! ### Host access -/

/-- `MEMRD`: its encoding; `REFUSED` outside `READY` and at or beyond `PMEM_SIZE`; else the byte of `PMEM`, nothing
changed but `RSP` (46_lifecycle_and_access.md R218). -/
def Obligations.MemrdReadsOneByte : Prop :=
  ∀ (pa : PhysAddr) (s : State) (m : Memories),
    encode (.memrd pa) = 0x6#4 ++ 0#4 ++ (0#4 ++ pa) ++ 0#12 ∧
    (s.lc ≠ .ready → exec (.memrd pa) s = .next { s with rsp := 0x5000, rspValid := true }) ∧
    (s.lc = .ready → s.pmemSize.toNat ≤ pa.toNat →
      exec (.memrd pa) s = .next { s with rsp := 0x5000, rspValid := true }) ∧
    (s.lc = .ready → pa.toNat < s.pmemSize.toNat → s.mem = some m →
      exec (.memrd pa) s = .next { s with rsp := 0x0#4 ++ (0#4 ++ m.readPmem pa), rspValid := true })

/-- `MEMWR`: its encoding; `REFUSED` outside `READY` and at or beyond `PMEM_SIZE`; else the byte of `PMEM` is written
and every other byte of the three memories, every queue, register and record is as before
(46_lifecycle_and_access.md R219). -/
def Obligations.MemwrWritesOneByte : Prop :=
  ∀ (pa : PhysAddr) (data : Byte) (s : State) (m : Memories),
    encode (.memwr pa data) = 0x7#4 ++ 0#4 ++ (0#4 ++ pa) ++ (0#4 ++ data) ∧
    (s.lc ≠ .ready → exec (.memwr pa data) s = .next { s with rsp := 0x5000, rspValid := true }) ∧
    (s.lc = .ready → s.pmemSize.toNat ≤ pa.toNat →
      exec (.memwr pa data) s = .next { s with rsp := 0x5000, rspValid := true }) ∧
    (s.lc = .ready → pa.toNat < s.pmemSize.toNat → s.mem = some m → m.wf = true →
      ∃ m', exec (.memwr pa data) s = .next { s with mem := some m', rsp := 0x0000, rspValid := true } ∧
        m'.wf = true ∧ m'.readPmem pa = data ∧ (∀ x, x ≠ pa → m'.readPmem x = m.readPmem x) ∧
        (∀ x, m'.readSwap x = m.readSwap x) ∧ (∀ x, m'.readPte x = m.readPte x))

/-- `SWRD`: its encoding; `REFUSED` outside `READY` and at or beyond `SWAP_SIZE`; else the byte of `SWAP`, nothing
changed but `RSP` (46_lifecycle_and_access.md R220). -/
def Obligations.SwrdReadsOneByte : Prop :=
  ∀ (sa : SwapAddr) (s : State) (m : Memories),
    encode (.swrd sa) = 0x8#4 ++ 0#4 ++ (0#3 ++ sa) ++ 0#12 ∧
    (s.lc ≠ .ready → exec (.swrd sa) s = .next { s with rsp := 0x5000, rspValid := true }) ∧
    (s.lc = .ready → s.swapSize.toNat ≤ sa.toNat →
      exec (.swrd sa) s = .next { s with rsp := 0x5000, rspValid := true }) ∧
    (s.lc = .ready → sa.toNat < s.swapSize.toNat → s.mem = some m →
      exec (.swrd sa) s = .next { s with rsp := 0x0#4 ++ (0#4 ++ m.readSwap sa), rspValid := true })

/-- `PTERD`: its encoding; `REFUSED` outside `READY` and for a base no record holds; else the raw PTE byte, nothing
changed but `RSP` (46_lifecycle_and_access.md R221). -/
def Obligations.PterdReadsThePte : Prop :=
  ∀ (base : PhysAddr) (vpn : Vpn) (s : State) (m : Memories),
    encode (.pterd base vpn) = 0x9#4 ++ 0#4 ++ (0#4 ++ base) ++ (0#6 ++ vpn) ∧
    (s.lc ≠ .ready → exec (.pterd base vpn) s = .next { s with rsp := 0x5000, rspValid := true }) ∧
    (s.lc = .ready → base ∉ s.proc.map (·.base) →
      exec (.pterd base vpn) s = .next { s with rsp := 0x5000, rspValid := true }) ∧
    (s.lc = .ready → base ∈ s.proc.map (·.base) → s.mem = some m →
      exec (.pterd base vpn) s = .next
        { s with rsp := 0x0#4 ++ (0#4 ++ m.readPte (base.extractLsb' 2 6 ++ vpn)), rspValid := true })

/-- `CSRRD`: its encoding; in every lifecycle state each of the nine registers reads as its value and the other numbers
are `REFUSED`, nothing changed but `RSP`; at reset each reads 0 (46_lifecycle_and_access.md R222; 10_state.md R33). A
count register is read of a queue within its capacity (00_scope.md R8). -/
def Obligations.CsrrdReadsTheRegisterMap : Prop :=
  ∀ (n : BitVec 8) (s : State),
    encode (.csrrd n) = 0xA#4 ++ 0#4 ++ (0#4 ++ n) ++ 0#12 ∧
    (8 < n.toNat → exec (.csrrd n) s = .next { s with rsp := 0x5000, rspValid := true }) ∧
    exec (.csrrd 0) s = .next
      { s with rsp := 0x0#4 ++ (match s.lc with | .uninit => 0#12 | .ready => 1#12 | .failed => 2#12),
               rspValid := true } ∧
    exec (.csrrd 1) s = .next { s with rsp := 0x0#4 ++ (0#3 ++ s.pmemSize), rspValid := true } ∧
    exec (.csrrd 2) s = .next { s with rsp := 0x0#4 ++ (0#2 ++ s.swapSize), rspValid := true } ∧
    exec (.csrrd 3) s = .next { s with rsp := BitVec.ofNat 16 (s.pmemSize.toNat / 4), rspValid := true } ∧
    exec (.csrrd 4) s = .next { s with rsp := BitVec.ofNat 16 (s.swapSize.toNat / 4), rspValid := true } ∧
    (s.fq.length ≤ 64 → exec (.csrrd 5) s = .next { s with rsp := BitVec.ofNat 16 s.fq.length, rspValid := true }) ∧
    (s.sq.length ≤ 127 → exec (.csrrd 6) s = .next { s with rsp := BitVec.ofNat 16 s.sq.length, rspValid := true }) ∧
    (s.vq.length ≤ 64 → exec (.csrrd 7) s = .next { s with rsp := BitVec.ofNat 16 s.vq.length, rspValid := true }) ∧
    (s.proc.length ≤ 64 → exec (.csrrd 8) s = .next { s with rsp := BitVec.ofNat 16 s.proc.length, rspValid := true }) ∧
    (n.toNat ≤ 8 → exec (.csrrd n) State.reset = .next { State.reset with rsp := 0x0000, rspValid := true })

/-! ### Process table -/

/-- `LOOKUP`: its encoding; `REFUSED` outside `READY`; the base of the first record of the pid, or `NOT_FOUND`; nothing
changed but `RSP` (43_process_table.md R170, R171). -/
def Obligations.LookupFindsTheBase : Prop :=
  ∀ (pid : Pid) (s : State),
    encode (.lookup pid) = 0x3#4 ++ 0#4 ++ (0#4 ++ pid) ++ 0#12 ∧
    (s.lc ≠ .ready → exec (.lookup pid) s = .next { s with rsp := 0x5000, rspValid := true }) ∧
    (s.lc = .ready → pid ∉ s.proc.map (·.pid) →
      exec (.lookup pid) s = .next { s with rsp := 0x4000, rspValid := true }) ∧
    (∀ (before after : List ProcRecord) (b : PhysAddr), s.lc = .ready → s.proc = before ++ ⟨pid, b⟩ :: after →
      pid ∉ before.map (·.pid) →
      exec (.lookup pid) s = .next { s with rsp := 0x0#4 ++ (0#4 ++ b), rspValid := true })

/-- `ADMIT`: its encoding; `REFUSED` outside `READY`; the switch to an admitted pid; the creation of a process from the
head of the free queue; the creation by eviction of the oldest present page when the queue is empty; the failure when
neither can be. Every byte, queue, register and record that changes is named; the new frame is not entered in `VQ`
(43_process_table.md R172). -/
def Obligations.AdmitCreatesOrSwitches : Prop :=
  ∀ (pid : Pid) (s : State),
    encode (.admitProc pid) = 0x2#4 ++ 0#4 ++ (0#4 ++ pid) ++ 0#12 ∧
    (s.lc ≠ .ready → exec (.admitProc pid) s = .next { s with rsp := 0x5000, rspValid := true }) ∧
    (∀ b, s.lc = .ready → procLookup s.proc pid = some b →
      exec (.admitProc pid) s = .next { s with rsp := 0x0#4 ++ (0#4 ++ b), rspValid := true }) ∧
    (∀ (f : PhysAddr) (rest : List PhysAddr) (m : Memories), s.lc = .ready → pid ∉ s.proc.map (·.pid) →
      s.fq = f :: rest → f.toNat % 4 = 0 → f.toNat / 4 < s.pmemSize.toNat / 4 → s.mem = some m → m.wf = true →
      s.proc.length < 64 →
      ∃ m', exec (.admitProc pid) s = .next
          { s with fq := rest, proc := s.proc ++ [⟨pid, f⟩], mem := some m', rsp := 0x0#4 ++ (0#4 ++ f),
                   rspValid := true } ∧
        m'.wf = true ∧ (∀ x, m'.readPmem x = m.readPmem x) ∧ (∀ x, m'.readSwap x = m.readSwap x) ∧
        (∀ vpn, m'.readPte (pteLoc f vpn) = 0) ∧
        (∀ loc : PteLocation, (∀ vpn, loc ≠ pteLoc f vpn) → m'.readPte loc = m.readPte loc)) ∧
    (∀ (v : PteLocation) (vq : List PteLocation) (a : SwapAddr) (sq : List SwapAddr) (m : Memories) (p : Pfn)
        (u : Bool), s.lc = .ready → pid ∉ s.proc.map (·.pid) → s.fq = [] → s.vq = v :: vq → s.sq = a :: sq →
      s.mem = some m → m.wf = true → pteDecode (m.readPte v) = .present p u → p.toNat < s.pmemSize.toNat / 4 →
      a.toNat % 4 = 0 → 0 < a.toNat → a.toNat / 4 < s.swapSize.toNat / 4 → s.proc.length < 64 →
      ∃ m', exec (.admitProc pid) s = .next
          { s with vq := vq, sq := sq, proc := s.proc ++ [⟨pid, frameAddr p⟩], mem := some m',
                   rsp := 0x0#4 ++ (0#4 ++ (p ++ 0#2)), rspValid := true } ∧
        m'.wf = true ∧
        (∀ i, m'.readPmem (frameByte (frameAddr p) i) = 0) ∧
        (∀ x, (∀ i, x ≠ frameByte (frameAddr p) i) → m'.readPmem x = m.readPmem x) ∧
        (∀ i, m'.readSwap (slotByte a i) = m.readPmem (frameByte (frameAddr p) i)) ∧
        (∀ x, (∀ i, x ≠ slotByte a i) → m'.readSwap x = m.readSwap x) ∧
        (∀ vpn, m'.readPte (pteLoc (frameAddr p) vpn) = 0) ∧
        ((∀ vpn, v ≠ pteLoc (frameAddr p) vpn) → m'.readPte v = a.extractLsb' 2 7 ++ 0#1) ∧
        (∀ loc : PteLocation, loc ≠ v → (∀ vpn, loc ≠ pteLoc (frameAddr p) vpn) → m'.readPte loc = m.readPte loc)) ∧
    (s.lc = .ready → pid ∉ s.proc.map (·.pid) → s.fq = [] → (s.vq = [] ∨ s.sq = []) →
      exec (.admitProc pid) s = .next { s with lc := .failed, rsp := 0x2000, rspValid := true })

/-- The idempotent switch: a second `ADMIT` of a pid gives the same response and changes nothing at all, and a base,
once a pid's, stays that pid's until `TEARDOWN` (43_process_table.md R173). -/
def Obligations.AdmitIsIdempotent : Prop :=
  (∀ (pid : Pid) (s t : State), exec (.admitProc pid) s = .next t → t.rsp.extractLsb' 12 4 = 0 →
    exec (.admitProc pid) t = .next t) ∧
  (∀ (i : Instr) (s t : State) (pid : Pid) (b : PhysAddr), s.lc ≠ .uninit → exec i s = .next t → i ≠ .teardown →
    procLookup s.proc pid = some b → procLookup t.proc pid = some b)

/-! ### Translator -/

/-- `TRANSLATE`: its encoding; `REFUSED` outside `READY` and for a base no record holds, whatever its low bits; a
present PTE gives `{pfn, off}` whatever its user flag; an unmapped or swapped one gives `FAULT`; nothing changed but
`RSP` (45_translator.md R205, R208). -/
def Obligations.TranslateWalksTheTable : Prop :=
  ∀ (base : PhysAddr) (va : VirtAddr) (s : State) (m : Memories),
    encode (.translate base va) = 0x4#4 ++ 0#4 ++ (0#4 ++ base) ++ (0#4 ++ va) ∧
    (s.lc ≠ .ready → exec (.translate base va) s = .next { s with rsp := 0x5000, rspValid := true }) ∧
    (s.lc = .ready → base ∉ s.proc.map (·.base) →
      exec (.translate base va) s = .next { s with rsp := 0x5000, rspValid := true }) ∧
    (s.lc = .ready → base ∈ s.proc.map (·.base) → s.mem = some m →
      (m.readPte (base.extractLsb' 2 6 ++ va.extractLsb' 2 6)).getLsbD 0 = true →
      exec (.translate base va) s = .next
        { s with rsp := 0x0#4 ++ (0#4 ++
                   ((m.readPte (base.extractLsb' 2 6 ++ va.extractLsb' 2 6)).extractLsb' 2 6 ++ va.extractLsb' 0 2)),
                 rspValid := true }) ∧
    (s.lc = .ready → base ∈ s.proc.map (·.base) → s.mem = some m →
      (m.readPte (base.extractLsb' 2 6 ++ va.extractLsb' 2 6)).getLsbD 0 = false →
      exec (.translate base va) s = .next { s with rsp := 0x1000, rspValid := true })

/-! ### Page-fault engine -/

/-- `RESOLVE` has the encoding of 44_fault_engine.md R186 and is `REFUSED` outside `READY`; an unknown pid is answered
`NOT_FOUND` and changes no state but `RSP` (R196). -/
def Obligations.ResolveUnknownPid : Prop :=
  ∀ (pid : Pid) (va : VirtAddr) (s : State),
    encode (.resolve pid va) = 0x5#4 ++ 0#4 ++ (0#4 ++ pid) ++ (0#4 ++ va) ∧
    (s.lc ≠ .ready → exec (.resolve pid va) s = .next { s with rsp := 0x5000, rspValid := true }) ∧
    (s.lc = .ready → pid ∉ s.proc.map (·.pid) →
      exec (.resolve pid va) s = .next { s with rsp := 0x4000, rspValid := true })

/-- Path 1: a page already present is answered `OK 0` and nothing changes but `RSP`; `RESOLVE` right after a `RESOLVE`
that answered `OK` is this path (44_fault_engine.md R187). -/
def Obligations.ResolvePresentPage : Prop :=
  (∀ (pid : Pid) (va : VirtAddr) (s : State) (m : Memories) (b : PhysAddr), s.lc = .ready →
    procLookup s.proc pid = some b → s.mem = some m →
    (m.readPte (b.extractLsb' 2 6 ++ va.extractLsb' 2 6)).getLsbD 0 = true →
    exec (.resolve pid va) s = .next { s with rsp := 0x0000, rspValid := true }) ∧
  (∀ (pid : Pid) (va : VirtAddr) (s t : State), s.Consistent → exec (.resolve pid va) s = .next t → t.rsp = 0x0000 →
    exec (.resolve pid va) t = .next t)

/-- Path 2a: an unmapped page with a frame free. The head of `FQ` is taken, its four bytes zeroed, the PTE at the
location of `va` under `pid`'s table written present with user flag 0, the location appended to `VQ`; every other byte,
queue, register and record is as before (44_fault_engine.md R188, and R195 for the location). -/
def Obligations.ResolveBindsAFreeFrame : Prop :=
  ∀ (pid : Pid) (va : VirtAddr) (s : State) (m : Memories) (b f : PhysAddr) (rest : List PhysAddr), s.lc = .ready →
    procLookup s.proc pid = some b → s.mem = some m → m.wf = true →
    m.readPte (b.extractLsb' 2 6 ++ va.extractLsb' 2 6) = 0 → s.fq = f :: rest → f.toNat % 4 = 0 →
    f.toNat / 4 < s.pmemSize.toNat / 4 → s.vq.length < 64 →
    ∃ m', exec (.resolve pid va) s = .next
        { s with fq := rest, vq := s.vq ++ [b.extractLsb' 2 6 ++ va.extractLsb' 2 6], mem := some m', rsp := 0x0000,
                 rspValid := true } ∧
      m'.wf = true ∧
      (∀ i, m'.readPmem (frameByte f i) = 0) ∧
      (∀ x, (∀ i, x ≠ frameByte f i) → m'.readPmem x = m.readPmem x) ∧
      (∀ x, m'.readSwap x = m.readSwap x) ∧
      m'.readPte (b.extractLsb' 2 6 ++ va.extractLsb' 2 6) = f.extractLsb' 2 6 ++ 0#1 ++ 1#1 ∧
      (∀ loc : PteLocation, loc ≠ b.extractLsb' 2 6 ++ va.extractLsb' 2 6 → m'.readPte loc = m.readPte loc)

/-- Path 2b: an unmapped page with no frame free. The oldest present page, `v`, goes to the head of `SQ`: its four
bytes into the slot, its frame zeroed, its PTE swapped; the frame is bound to the faulting location, which is appended
to `VQ`. With no victim or no slot: `NO_CAPACITY`, `LC` failed, nothing else changed (44_fault_engine.md R189). -/
def Obligations.ResolveEvictsTheOldest : Prop :=
  ∀ (pid : Pid) (va : VirtAddr) (s : State) (m : Memories) (b : PhysAddr), s.lc = .ready →
    procLookup s.proc pid = some b → s.mem = some m → m.wf = true →
    m.readPte (b.extractLsb' 2 6 ++ va.extractLsb' 2 6) = 0 → s.fq = [] →
    ((s.vq = [] ∨ s.sq = []) →
      exec (.resolve pid va) s = .next { s with lc := .failed, rsp := 0x2000, rspValid := true }) ∧
    (∀ (v : PteLocation) (vq : List PteLocation) (a : SwapAddr) (sq : List SwapAddr) (p : Pfn) (u : Bool),
      s.vq = v :: vq → s.sq = a :: sq → pteDecode (m.readPte v) = .present p u → p.toNat < s.pmemSize.toNat / 4 →
      a.toNat % 4 = 0 → 0 < a.toNat → a.toNat / 4 < s.swapSize.toNat / 4 → vq.length < 64 →
      ∃ m', exec (.resolve pid va) s = .next
          { s with vq := vq ++ [b.extractLsb' 2 6 ++ va.extractLsb' 2 6], sq := sq, mem := some m', rsp := 0x0000,
                   rspValid := true } ∧
        m'.wf = true ∧
        (∀ i, m'.readPmem (frameByte (frameAddr p) i) = 0) ∧
        (∀ x, (∀ i, x ≠ frameByte (frameAddr p) i) → m'.readPmem x = m.readPmem x) ∧
        (∀ i, m'.readSwap (slotByte a i) = m.readPmem (frameByte (frameAddr p) i)) ∧
        (∀ x, (∀ i, x ≠ slotByte a i) → m'.readSwap x = m.readSwap x) ∧
        m'.readPte v = a.extractLsb' 2 7 ++ 0#1 ∧
        m'.readPte (b.extractLsb' 2 6 ++ va.extractLsb' 2 6) = p ++ 0#1 ++ 1#1 ∧
        (∀ loc : PteLocation, loc ≠ v → loc ≠ b.extractLsb' 2 6 ++ va.extractLsb' 2 6 → m'.readPte loc = m.readPte loc))

/-- Path 3: a swapped page. Its slot's bytes are exchanged with those of the oldest present page `v`, whose PTE comes
to name that slot; the faulting PTE comes to name `v`'s frame and its location is appended to `VQ`. `FQ` and `SQ` are
not touched. With no victim: `NO_CAPACITY`, `LC` failed, nothing else changed (44_fault_engine.md R191). -/
def Obligations.ResolveSwapsIn : Prop :=
  ∀ (pid : Pid) (va : VirtAddr) (s : State) (m : Memories) (b : PhysAddr) (slot : SlotIndex), s.lc = .ready →
    procLookup s.proc pid = some b → s.mem = some m → m.wf = true →
    pteDecode (m.readPte (b.extractLsb' 2 6 ++ va.extractLsb' 2 6)) = .swapped slot →
    (s.vq = [] → exec (.resolve pid va) s = .next { s with lc := .failed, rsp := 0x2000, rspValid := true }) ∧
    (∀ (v : PteLocation) (vq : List PteLocation) (p : Pfn) (u : Bool),
      s.vq = v :: vq → pteDecode (m.readPte v) = .present p u → p.toNat < s.pmemSize.toNat / 4 →
      slot.toNat < s.swapSize.toNat / 4 → vq.length < 64 →
      ∃ m', exec (.resolve pid va) s = .next
          { s with vq := vq ++ [b.extractLsb' 2 6 ++ va.extractLsb' 2 6], mem := some m', rsp := 0x0000,
                   rspValid := true } ∧
        m'.wf = true ∧
        (∀ i, m'.readPmem (frameByte (frameAddr p) i) = m.readSwap (slotByte (slotAddr slot) i)) ∧
        (∀ x, (∀ i, x ≠ frameByte (frameAddr p) i) → m'.readPmem x = m.readPmem x) ∧
        (∀ i, m'.readSwap (slotByte (slotAddr slot) i) = m.readPmem (frameByte (frameAddr p) i)) ∧
        (∀ x, (∀ i, x ≠ slotByte (slotAddr slot) i) → m'.readSwap x = m.readSwap x) ∧
        m'.readPte v = slot ++ 0#1 ∧
        m'.readPte (b.extractLsb' 2 6 ++ va.extractLsb' 2 6) = p ++ 0#1 ++ 1#1 ∧
        (∀ loc : PteLocation, loc ≠ v → loc ≠ b.extractLsb' 2 6 ++ va.extractLsb' 2 6 → m'.readPte loc = m.readPte loc))

/-- `RESOLVE` answers `NO_CAPACITY` in exactly the cases of 44_fault_engine.md R193, then only `LC` and `RSP` have
changed, and after it every command but `TEARDOWN` and `CSRRD`, which are accepted, is `REFUSED`. -/
def Obligations.ResolveFailsExactly : Prop :=
  (∀ (pid : Pid) (va : VirtAddr) (s t : State), exec (.resolve pid va) s = .next t →
    (t.rsp = 0x2000 ↔ s.lc = .ready ∧ ∃ b m, procLookup s.proc pid = some b ∧ s.mem = some m ∧
      ((m.readPte (b.extractLsb' 2 6 ++ va.extractLsb' 2 6) = 0 ∧ s.fq = [] ∧ (s.vq = [] ∨ s.sq = [])) ∨
       (m.readPte (b.extractLsb' 2 6 ++ va.extractLsb' 2 6) ≠ 0 ∧
        (m.readPte (b.extractLsb' 2 6 ++ va.extractLsb' 2 6)).getLsbD 0 = false ∧ s.vq = []))) ∧
    (t.rsp = 0x2000 → t = { s with lc := .failed, rsp := 0x2000, rspValid := true })) ∧
  (∀ (i : Instr) (s : State), s.lc = .failed → i ≠ .teardown → (∀ n, i ≠ .csrrd n) →
    exec i s = .next { s with rsp := 0x5000, rspValid := true }) ∧
  (∀ s : State, s.lc = .failed →
    exec (.csrrd 0) s = .next { s with rsp := 0x0002, rspValid := true } ∧
    ∃ t, exec .teardown s = .next t ∧ t.lc = .uninit ∧ t.rsp = 0x0000)

/-- When `RESOLVE pid, va` answers `OK`, the PTE of `va` in `pid`'s table is present and a `TRANSLATE` right after it
answers `OK` with the physical address the PTE gives (44_fault_engine.md R194). -/
def Obligations.TranslateAfterResolve : Prop :=
  ∀ (pid : Pid) (va : VirtAddr) (s t : State), s.Consistent → exec (.resolve pid va) s = .next t →
    t.rsp.extractLsb' 12 4 = 0 →
    ∃ b m, procLookup t.proc pid = some b ∧ t.mem = some m ∧
      (m.readPte (b.extractLsb' 2 6 ++ va.extractLsb' 2 6)).getLsbD 0 = true ∧
      exec (.translate b va) t = .next
        { t with rsp := 0x0#4 ++ (0#4 ++
                   ((m.readPte (b.extractLsb' 2 6 ++ va.extractLsb' 2 6)).extractLsb' 2 6 ++ va.extractLsb' 0 2)),
                 rspValid := true }

/-- The eviction primitive: with `FQ` empty, the frame obtained is the oldest victim's; `VQ` and `SQ` lose their heads;
the slot gets the frame's bytes, the frame is zeroed, the victim's PTE names the slot; every other byte is as before
(42_victim_queue.md R160). -/
def Obligations.EvictionMovesTheOldestPage : Prop :=
  ∀ (s : State) (v : PteLocation) (vq : List PteLocation) (a : SwapAddr) (sq : List SwapAddr) (m : Memories) (p : Pfn)
      (u : Bool), s.fq = [] → s.vq = v :: vq → s.sq = a :: sq → s.mem = some m → m.wf = true →
    pteDecode (m.readPte v) = .present p u → p.toNat < s.pmemSize.toNat / 4 → a.toNat % 4 = 0 → 0 < a.toNat →
    a.toNat / 4 < s.swapSize.toNat / 4 →
    ∃ m', obtainFrame s = .frame (p ++ 0#2) { s with vq := vq, sq := sq, mem := some m' } ∧
      m'.wf = true ∧
      (∀ i, m'.readPmem (frameByte (p ++ 0#2) i) = 0) ∧
      (∀ x, (∀ i, x ≠ frameByte (p ++ 0#2) i) → m'.readPmem x = m.readPmem x) ∧
      (∀ i, m'.readSwap (slotByte a i) = m.readPmem (frameByte (p ++ 0#2) i)) ∧
      (∀ x, (∀ i, x ≠ slotByte a i) → m'.readSwap x = m.readSwap x) ∧
      m'.readPte v = a.extractLsb' 2 7 ++ 0#1 ∧
      (∀ loc : PteLocation, loc ≠ v → m'.readPte loc = m.readPte loc)

/-! ### PTE codec and address arithmetic -/

/-- The round trips of 40_pte_codec.md R125. -/
def Obligations.PteCodecRoundTrips : Prop :=
  (∀ p : Pfn, pteDecode (pteEncPresent p) = .present p false) ∧
  (∀ (p : Pfn) (u : Bool), pteDecode (pteEncPresentU p u) = .present p u) ∧
  (∀ x : SlotIndex, x ≠ 0 → pteDecode (pteEncSwapped x) = .swapped x) ∧
  pteDecode 0x00 = .unmapped ∧
  (∀ b : Byte, (match pteDecode b with
    | .present p u => pteEncPresentU p u
    | .swapped x => pteEncSwapped x
    | .unmapped => 0x00) = b)

/-- Each byte has one reading: the odd bytes are present, zero is unmapped, the other even bytes are swapped with
`slot = b div 2`, never 0; there are 128, 1 and 127 of them (40_pte_codec.md R121). -/
def Obligations.PteReadingsArePartitioned : Prop :=
  (∀ b : Byte, (b.toNat % 2 = 1 ↔ ∃ p u, pteDecode b = .present p u) ∧ (b = 0 ↔ pteDecode b = .unmapped) ∧
    ((b.toNat % 2 = 0 ∧ b ≠ 0) ↔ ∃ x, pteDecode b = .swapped x)) ∧
  (∀ (b : Byte) (x : SlotIndex), pteDecode b = .swapped x → x.toNat = b.toNat / 2 ∧ 1 ≤ x.toNat ∧ x.toNat ≤ 127) ∧
  ((List.range 256).countP fun n => (BitVec.ofNat 8 n).getLsbD 0) = 128 ∧
  ((List.range 256).countP fun n => pteDecode (BitVec.ofNat 8 n) = .unmapped) = 1 ∧
  ((List.range 256).countP fun n => !(BitVec.ofNat 8 n).getLsbD 0 && pteDecode (BitVec.ofNat 8 n) != .unmapped) = 127

/-- The address functions as arithmetic: `FrameAddr`, `Pfn`, `SlotAddr`, `SlotIdx`, `Vpn`, `Off`, `PhysAddr`, `PteLoc`,
`BaseOf`, `VpnOf`, none of which overflows (40_pte_codec.md R126 to R129). -/
def Obligations.AddressArithmetic : Prop :=
  (∀ p : Pfn, (frameAddr p).toNat = p.toNat * 4 ∧ pfnOf (frameAddr p) = p) ∧
  (∀ f : PhysAddr, (pfnOf f).toNat = f.toNat / 4) ∧
  (∀ x : SlotIndex, (slotAddr x).toNat = x.toNat * 4 ∧ slotIdx (slotAddr x) = x) ∧
  (∀ a : SwapAddr, (slotIdx a).toNat = a.toNat / 4) ∧
  (∀ va : VirtAddr, (vpnOfVa va).toNat = va.toNat / 4 ∧ (offOfVa va).toNat = va.toNat % 4) ∧
  (∀ (p : Pfn) (o : BitVec 2), (physAddr p o).toNat = p.toNat * 4 + o.toNat) ∧
  (∀ (b : PhysAddr) (v : Vpn), (pteLoc b v).toNat = b.toNat / 4 * 64 + v.toNat ∧ vpnOfLoc (pteLoc b v) = v ∧
    (b.toNat % 4 = 0 → baseOfLoc (pteLoc b v) = b)) ∧
  (∀ loc : PteLocation, (baseOfLoc loc).toNat = loc.toNat / 64 * 4 ∧ (vpnOfLoc loc).toNat = loc.toNat % 64)

/-! ### Invariants -/

/-- The state after power-on reset is consistent, whatever the host then drives and whatever `RSP` holds. -/
def Obligations.ResetIsConsistent : Prop :=
  ∀ (inputs : List PortInput) (word : ResponseWord), { State.reset with port := inputs, rsp := word }.Consistent

/-- Every step keeps the invariants of 10_state.md R40 to R47, from every state that has them. -/
def Obligations.StepKeepsConsistency : Prop := ∀ s t : State, s.Consistent → step s = .next t → t.Consistent

/-- From a state that has the invariants no step faults or is refused: whatever the host drives, there is a next state
(30_encoding.md R97; 70_reset_and_hazards.md R281, R282). -/
def Obligations.ConsistentStatesNeverStop : Prop := ∀ s : State, s.Consistent → ∃ t, step s = .next t

/-- No sequence of port inputs from power-on reset stops the engine or breaks an invariant (10_state.md R48: 'No command
sequence reaches one'). -/
def Obligations.NoInputStopsTheEngine : Prop := ∀ s : State, Reachable s → s.Consistent ∧ ∃ t, step s = .next t

/-- No double mapping: two present live PTEs name different frames (10_state.md R40). -/
def Obligations.NoDoubleMapping : Prop :=
  ∀ (s : State) (m : Memories), s.Consistent → s.mem = some m →
    ∀ a ∈ liveLocs s.proc, ∀ b ∈ liveLocs s.proc, a ≠ b →
      (m.readPte a).getLsbD 0 = true → (m.readPte b).getLsbD 0 = true →
      (m.readPte a).extractLsb' 2 6 ≠ (m.readPte b).extractLsb' 2 6

/-- Frame ownership and conservation: the count of 10_state.md R41, and free frames, frames of present live PTEs and
page-table frames are without repeats, pairwise disjoint and together exactly the frames below `NFRAMES`. -/
def Obligations.FrameOwnership : Prop :=
  ∀ (s : State) (m : Memories), s.Consistent → s.mem = some m →
    s.fq.length + ((liveLocs s.proc).filter (fun loc => (m.readPte loc).getLsbD 0)).length + s.proc.length =
      s.pmemSize.toNat / 4 ∧
    (s.fq ++ presentFrames s m ++ s.proc.map (·.base)).Nodup ∧
    (∀ f : PhysAddr, f ∈ s.fq ++ presentFrames s m ++ s.proc.map (·.base) ↔
      f.toNat % 4 = 0 ∧ f.toNat / 4 < s.pmemSize.toNat / 4)

/-- Swap-slot ownership: free slots and slots of swapped live PTEs are pairwise distinct and together exactly the slots
`1 .. NSLOTS-1`, and so many (10_state.md R42). -/
def Obligations.SlotOwnership : Prop :=
  ∀ (s : State) (m : Memories), s.Consistent → s.mem = some m →
    (s.sq ++ swappedSlots s m).Nodup ∧
    (∀ a : SwapAddr, a ∈ s.sq ++ swappedSlots s m ↔
      a.toNat % 4 = 0 ∧ 0 < a.toNat ∧ a.toNat / 4 < s.swapSize.toNat / 4) ∧
    s.sq.length + (swappedSlots s m).length = s.swapSize.toNat / 4 - 1

/-- The victim queue holds exactly the present live locations, each once; and a command takes at most one location off
its head and appends at most one at its tail, so locations stand in the order of their binding (10_state.md R43). -/
def Obligations.VictimQueueDiscipline : Prop :=
  (∀ (s : State) (m : Memories), s.Consistent → s.mem = some m →
    s.vq.Nodup ∧ (∀ loc, loc ∈ s.vq ↔ loc ∈ liveLocs s.proc ∧ (m.readPte loc).getLsbD 0 = true) ∧
    s.vq.length = ((liveLocs s.proc).filter (fun loc => (m.readPte loc).getLsbD 0)).length) ∧
  (∀ (i : Instr) (s t : State), s.lc ≠ .uninit → i ≠ .teardown → exec i s = .next t →
    ∃ (k : Nat) (new : List PteLocation), t.vq = s.vq.drop k ++ new ∧ k ≤ 1 ∧ new.length ≤ 1)

/-- The ranges of 10_state.md R44. -/
def Obligations.RangeInvariants : Prop :=
  ∀ (s : State) (m : Memories), s.Consistent → s.mem = some m →
    (∀ f ∈ s.fq, f.toNat / 4 < s.pmemSize.toNat / 4) ∧
    (∀ b ∈ s.proc.map (·.base), b.toNat / 4 < s.pmemSize.toNat / 4 ∧ b.toNat % 4 = 0) ∧
    (∀ loc ∈ liveLocs s.proc, ∀ p u, pteDecode (m.readPte loc) = .present p u → p.toNat < s.pmemSize.toNat / 4) ∧
    (∀ a ∈ s.sq, 1 ≤ a.toNat / 4 ∧ a.toNat / 4 < s.swapSize.toNat / 4) ∧
    (∀ loc ∈ liveLocs s.proc, ∀ x, pteDecode (m.readPte loc) = .swapped x →
      1 ≤ x.toNat ∧ x.toNat < s.swapSize.toNat / 4) ∧
    (s.proc.map (·.base)).Nodup ∧ (s.proc.map (·.pid)).Nodup ∧
    s.proc.length ≤ s.pmemSize.toNat / 4 ∧ s.pmemSize.toNat / 4 ≤ 64 ∧ s.vq.length ≤ s.pmemSize.toNat / 4

/-- The user flag of every present live PTE is 0 in every state the host can bring the engine to (10_state.md R45). -/
def Obligations.UserFlagStaysZero : Prop :=
  ∀ (s : State) (m : Memories), Reachable s → s.mem = some m →
    ∀ loc ∈ liveLocs s.proc, (m.readPte loc).getLsbD 0 = true → (m.readPte loc).getLsbD 1 = false

/-- Every byte of `PTRAM` outside the live page tables is 0 in every state the host can bring the engine to
(10_state.md R47). -/
def Obligations.DeadTablesStayZero : Prop :=
  ∀ (s : State) (m : Memories), Reachable s → s.mem = some m → ∀ loc, loc ∉ liveLocs s.proc → m.readPte loc = 0

/-- Monotone consumption: once the engine has left `UNINIT` no step adds to `FQ` or `SQ` or reorders them, and while a
live PTE is swapped no frame is free (10_state.md R46). -/
def Obligations.FreeQueuesNeverGrow : Prop :=
  (∀ s t : State, s.lc ≠ .uninit → step s = .next t → t.fq <:+ s.fq ∧ t.sq <:+ s.sq) ∧
  (∀ (s : State) (m : Memories), s.Consistent → s.mem = some m →
    (∃ loc ∈ liveLocs s.proc, ∃ x, pteDecode (m.readPte loc) = .swapped x) → s.fq = [])

/-! ### Rules about the whole machine -/

/-- `LOOKUP`, `TRANSLATE`, `MEMRD`, `SWRD`, `PTERD` and `CSRRD` change nothing but the response
(20_memory.md R64; 60_exceptions.md R257). -/
def Obligations.ReadersChangeOnlyTheResponse : Prop :=
  ∀ (i : Instr) (s t : State),
    ((∃ pid, i = .lookup pid) ∨ (∃ base va, i = .translate base va) ∨ (∃ pa, i = .memrd pa) ∨ (∃ sa, i = .swrd sa) ∨
      (∃ base vpn, i = .pterd base vpn) ∨ ∃ n, i = .csrrd n) →
    exec i s = .next t → t = { s with rsp := t.rsp, rspValid := true }

/-- A command that answers `FAULT`, `ALLOC_ERROR`, `NOT_FOUND` or `REFUSED` has changed nothing but `RSP`, and one that
answers `NO_CAPACITY` has besides changed only `LC`, to `FAILED` (60_exceptions.md R250). -/
def Obligations.UnsuccessfulCommandsChangeNothing : Prop :=
  ∀ (i : Instr) (s t : State), exec i s = .next t →
    (t.rsp.extractLsb' 12 4 ∈ ([1, 3, 4, 5] : List (BitVec 4)) → t = { s with rsp := t.rsp, rspValid := true }) ∧
    (t.rsp.extractLsb' 12 4 = 2 → t = { s with lc := .failed, rsp := t.rsp, rspValid := true })

/-- Which statuses there are and which commands produce each; the value is 0 whenever the status is not `OK`
(30_encoding.md R95, R96; 60_exceptions.md R241). -/
def Obligations.StatusesAndTheirCommands : Prop :=
  ∀ (i : Instr) (s t : State), exec i s = .next t →
    (t.rsp.extractLsb' 12 4).toNat ≤ 5 ∧
    (t.rsp.extractLsb' 12 4 ≠ 0 → t.rsp.extractLsb' 0 12 = 0) ∧
    (t.rsp.extractLsb' 12 4 = 1 → ∃ base va, i = .translate base va) ∧
    (t.rsp.extractLsb' 12 4 = 2 → (∃ pid, i = .admitProc pid) ∨ ∃ pid va, i = .resolve pid va) ∧
    (t.rsp.extractLsb' 12 4 = 3 → ∃ pm sw, i = .init pm sw) ∧
    (t.rsp.extractLsb' 12 4 = 4 → (∃ pid, i = .lookup pid) ∨ ∃ pid va, i = .resolve pid va)

/-- First-in first-out eviction: a page that a command (other than `TEARDOWN`) makes not present is the one at the head
of `VQ`, the earliest bound of those present (42_victim_queue.md R162). -/
def Obligations.EvictionIsFifo : Prop :=
  ∀ (i : Instr) (s t : State) (m m' : Memories), s.Consistent → exec i s = .next t → s.mem = some m → t.mem = some m' →
    ∀ loc ∈ liveLocs s.proc, (m.readPte loc).getLsbD 0 = true → (m'.readPte loc).getLsbD 0 = false →
      s.vq.head? = some loc ∧ t.vq.head? ≠ some loc

/-- Paging keeps every page's content: no command but `MEMWR` (and `INIT`, `TEARDOWN`) changes a byte of any mapped
page of any process, wherever eviction and swap-in move it, nor unmaps it. So content swapped out and brought back is
byte-identical (source property P4, 44_fault_engine.md R192). -/
def Obligations.PagingKeepsPageContents : Prop :=
  ∀ (i : Instr) (s t : State) (m m' : Memories), s.Consistent → exec i s = .next t → s.mem = some m → t.mem = some m' →
    (∀ pa data, i ≠ .memwr pa data) →
    ∀ loc ∈ liveLocs s.proc, m.readPte loc ≠ 0 → ∀ k, pageByte m' loc k = pageByte m loc k

/-- What belongs to no page stays as it is: no command but `MEMWR` changes a byte of `PMEM` beyond the last whole frame
or in a page-table frame; no command at all changes a byte of swap slot 0 or beyond the last whole slot, and these are
0 in every state the host can bring the engine to (20_memory.md R65; 43_process_table.md R174). -/
def Obligations.UnownedBytesStay : Prop :=
  (∀ (i : Instr) (s t : State) (m m' : Memories), s.Consistent → exec i s = .next t → s.mem = some m → t.mem = some m' →
    ((∀ pa data, i ≠ .memwr pa data) →
      (∀ x : PhysAddr, s.pmemSize.toNat / 4 ≤ x.toNat / 4 → m'.readPmem x = m.readPmem x) ∧
      (∀ f ∈ s.proc.map (·.base), ∀ k, m'.readPmem (frameByte f k) = m.readPmem (frameByte f k))) ∧
    (∀ x : SwapAddr, x.toNat / 4 = 0 ∨ s.swapSize.toNat / 4 ≤ x.toNat / 4 → m'.readSwap x = m.readSwap x)) ∧
  (∀ (s : State) (m : Memories), Reachable s → s.mem = some m →
    ∀ x : SwapAddr, x.toNat / 4 = 0 ∨ s.swapSize.toNat / 4 ≤ x.toNat / 4 → m.readSwap x = 0)

/-- States that break an invariant a rule relies on fault with a reason of their own, and no value is invented: a victim
that is not present, a swapped PTE whose slot is not below `NSLOTS` (10_state.md R48; 92_eei_decisions.md D25), and, by the
model's choice (log entry 5), a free queue whose head names no frame or no slot. -/
def Obligations.BrokenOwnershipFaults : Prop :=
  ∀ (pid : Pid) (va : VirtAddr) (s : State) (m : Memories) (b : PhysAddr), s.lc = .ready →
    procLookup s.proc pid = some b → s.mem = some m →
    (∀ v vq a sq, m.readPte (pteLoc b (vpnOfVa va)) = 0 → s.fq = [] → s.vq = v :: vq → s.sq = a :: sq →
      (m.readPte v).getLsbD 0 = false → exec (.resolve pid va) s = .fault (.invariantBroken .victimNotPresent)) ∧
    (∀ v vq slot, pteDecode (m.readPte (pteLoc b (vpnOfVa va))) = .swapped slot → s.vq = v :: vq →
      (m.readPte v).getLsbD 0 = false → exec (.resolve pid va) s = .fault (.invariantBroken .victimNotPresent)) ∧
    (∀ v vq slot p u, pteDecode (m.readPte (pteLoc b (vpnOfVa va))) = .swapped slot → s.vq = v :: vq →
      pteDecode (m.readPte v) = .present p u → p.toNat < s.pmemSize.toNat / 4 → s.swapSize.toNat / 4 ≤ slot.toNat →
      exec (.resolve pid va) s = .fault (.invariantBroken .slotOutOfRange)) ∧
    (∀ v vq a sq p u, m.readPte (pteLoc b (vpnOfVa va)) = 0 → s.fq = [] → s.vq = v :: vq → s.sq = a :: sq →
      pteDecode (m.readPte v) = .present p u → p.toNat < s.pmemSize.toNat / 4 →
      (a.toNat % 4 ≠ 0 ∨ a.toNat = 0 ∨ s.swapSize.toNat / 4 ≤ a.toNat / 4) →
      exec (.resolve pid va) s = .fault (.invariantBroken .slotOutOfRange)) ∧
    (∀ f rest, m.readPte (pteLoc b (vpnOfVa va)) = 0 → s.fq = f :: rest →
      (f.toNat % 4 ≠ 0 ∨ s.pmemSize.toNat / 4 ≤ f.toNat / 4) →
      exec (.resolve pid va) s = .fault (.invariantBroken .frameOutOfRange))

/-- Where the memories are unspecified though the engine is `READY`, or a queue or table is longer than the hardware's
(00_scope.md R8), a command that would use it faults and invents no value. No such state is reachable
(NoInputStopsTheEngine). This is the model's reading of 10_state.md R48 (log entries 3 and 5). -/
def Obligations.AbsentMemoryAndOverfullQueuesFault : Prop :=
  ∀ s : State,
    (∀ pa : PhysAddr, s.lc = .ready → s.mem = none → pa.toNat < s.pmemSize.toNat →
      exec (.memrd pa) s = .fault (.invariantBroken .memoryAbsent) ∧
      ∀ data, exec (.memwr pa data) s = .fault (.invariantBroken .memoryAbsent)) ∧
    (∀ sa : SwapAddr, s.lc = .ready → s.mem = none → sa.toNat < s.swapSize.toNat →
      exec (.swrd sa) s = .fault (.invariantBroken .memoryAbsent)) ∧
    (∀ base : PhysAddr, s.lc = .ready → s.mem = none → base ∈ s.proc.map (·.base) →
      (∀ va, exec (.translate base va) s = .fault (.invariantBroken .memoryAbsent)) ∧
      ∀ vpn, exec (.pterd base vpn) s = .fault (.invariantBroken .memoryAbsent)) ∧
    (∀ (pid : Pid) (va : VirtAddr), s.lc = .ready → s.mem = none → pid ∈ s.proc.map (·.pid) →
      exec (.resolve pid va) s = .fault (.invariantBroken .memoryAbsent)) ∧
    (64 < s.fq.length → exec (.csrrd 5) s = .fault (.invariantBroken .countOverCapacity)) ∧
    (127 < s.sq.length → exec (.csrrd 6) s = .fault (.invariantBroken .countOverCapacity)) ∧
    (64 < s.vq.length → exec (.csrrd 7) s = .fault (.invariantBroken .countOverCapacity)) ∧
    (64 < s.proc.length → exec (.csrrd 8) s = .fault (.invariantBroken .countOverCapacity)) ∧
    (∀ (pid : Pid) (f : PhysAddr) (rest : List PhysAddr) (m : Memories), s.lc = .ready → pid ∉ s.proc.map (·.pid) →
      s.mem = some m → s.fq = f :: rest → f.toNat % 4 = 0 → f.toNat / 4 < s.pmemSize.toNat / 4 →
      64 ≤ s.proc.length → exec (.admitProc pid) s = .fault (.invariantBroken .processTableFull)) ∧
    (∀ (pid : Pid) (va : VirtAddr) (b f : PhysAddr) (rest : List PhysAddr) (m : Memories), s.lc = .ready →
      procLookup s.proc pid = some b → s.mem = some m → m.readPte (pteLoc b (vpnOfVa va)) = 0 → s.fq = f :: rest →
      f.toNat % 4 = 0 → f.toNat / 4 < s.pmemSize.toNat / 4 → 64 ≤ s.vq.length →
      exec (.resolve pid va) s = .fault (.invariantBroken .victimQueueFull))
end

