-- ==== Sys2Proof/Laws/Codec.lean ====
section
/-!
SUPPORT. The PTE codec and the address arithmetic: round trips, and each function as arithmetic on numbers.
-/

namespace Sys2Proof.Machine

/-! ### PTE codec -/

@[simp] theorem pteDecode_encPresent (p : Pfn) : pteDecode (pteEncPresent p) = .present p false := by
  revert p; decide

@[simp] theorem pteDecode_encSwapped {x : SlotIndex} (h : x ≠ 0) : pteDecode (pteEncSwapped x) = .swapped x := by
  revert x; decide

@[simp] theorem pteDecode_zero : pteDecode 0 = .unmapped := rfl

/-- A byte that decodes as present has bit 0 set. -/
theorem pteDecode_present_bit {b : Byte} {p : Pfn} {u : Bool} (h : pteDecode b = .present p u) :
    b.getLsbD 0 = true := by
  unfold pteDecode at h
  split at h
  · assumption
  · split at h <;> cases h

/-- A swapped PTE never names slot 0 (40_pte_codec.md R121). -/
theorem pteDecode_swapped_ne_zero {b : Byte} {x : SlotIndex} (h : pteDecode b = .swapped x) : x ≠ 0 := by
  revert b x; decide

/-- The byte of a swapped PTE is its encoding. -/
theorem pteDecode_swapped_byte {b : Byte} {x : SlotIndex} (h : pteDecode b = .swapped x) : pteEncSwapped x = b := by
  revert b x; decide

@[simp] theorem pteEncPresent_bit0 (p : Pfn) : (pteEncPresent p).getLsbD 0 = true := by revert p; decide
@[simp] theorem pteEncPresent_bit1 (p : Pfn) : (pteEncPresent p).getLsbD 1 = false := by revert p; decide
@[simp] theorem pteEncSwapped_bit0 (x : SlotIndex) : (pteEncSwapped x).getLsbD 0 = false := by revert x; decide

/-! ### Address arithmetic -/

theorem frameAddr_toNat (p : Pfn) : (frameAddr p).toNat = 4 * p.toNat := by revert p; decide
theorem slotAddr_toNat (x : SlotIndex) : (slotAddr x).toNat = 4 * x.toNat := by revert x; decide
theorem pfnOf_toNat (f : PhysAddr) : (pfnOf f).toNat = f.toNat / 4 := by revert f; decide
theorem slotIdx_toNat (a : SwapAddr) : (slotIdx a).toNat = a.toNat / 4 := by revert a; decide

@[simp] theorem pfnOf_frameAddr (p : Pfn) : pfnOf (frameAddr p) = p := by revert p; decide
@[simp] theorem slotIdx_slotAddr (x : SlotIndex) : slotIdx (slotAddr x) = x := by revert x; decide

theorem frameAddr_pfnOf {f : PhysAddr} (h : f.toNat % 4 = 0) : frameAddr (pfnOf f) = f := by
  apply BitVec.eq_of_toNat_eq; rw [frameAddr_toNat, pfnOf_toNat]; omega

theorem slotAddr_slotIdx {a : SwapAddr} (h : a.toNat % 4 = 0) : slotAddr (slotIdx a) = a := by
  apply BitVec.eq_of_toNat_eq; rw [slotAddr_toNat, slotIdx_toNat]; omega

theorem frameAddr_inj {p q : Pfn} (h : frameAddr p = frameAddr q) : p = q := by
  have := congrArg pfnOf h; simpa using this

theorem pteLoc_toNat (b : PhysAddr) (v : Vpn) : (pteLoc b v).toNat = b.toNat / 4 * 64 + v.toNat := by
  have h : (b.extractLsb' 2 6).toNat = b.toNat / 4 := pfnOf_toNat b
  have hv := v.isLt
  simp only [pteLoc, BitVec.toNat_append, h, Nat.shiftLeft_eq]
  rw [← Nat.shiftLeft_eq, ← Nat.shiftLeft_add_eq_or_of_lt hv, Nat.shiftLeft_eq]

theorem physAddr_toNat (p : Pfn) (o : BitVec 2) : (physAddr p o).toNat = 4 * p.toNat + o.toNat := by
  revert p o; decide

/-- Byte `i` of a frame lies `i` above the frame address. -/
theorem frameByte_frameAddr (p : Pfn) (i : BitVec 2) : frameByte (frameAddr p) i = physAddr p i := by
  revert p i; decide

theorem frameByte_toNat {f : PhysAddr} (h : f.toNat % 4 = 0) (i : BitVec 2) :
    (frameByte f i).toNat = f.toNat + i.toNat := by
  rw [← frameAddr_pfnOf h, frameByte_frameAddr, physAddr_toNat, frameAddr_toNat]

theorem slotByte_toNat {a : SwapAddr} (h : a.toNat % 4 = 0) (i : BitVec 2) :
    (slotByte a i).toNat = a.toNat + i.toNat := by
  have := a.isLt; have := i.isLt
  simp only [slotByte, BitVec.toNat_add, BitVec.toNat_setWidth]
  omega

theorem pteLoc_base_vpn (loc : PteLocation) : pteLoc (baseOfLoc loc) (vpnOfLoc loc) = loc := by
  revert loc; decide +kernel

/-! ### Page tables -/

theorem mem_tableLocs {base : PhysAddr} {loc : PteLocation} :
    loc ∈ tableLocs base ↔ loc.toNat / 64 = base.toNat / 4 := by
  have hl := loc.isLt
  have hb := base.isLt
  simp only [tableLocs, List.mem_map, List.mem_range, Config.npte]
  constructor
  · rintro ⟨v, hv, rfl⟩
    rw [pteLoc_toNat]
    simp only [BitVec.toNat_ofNat]
    omega
  · intro h
    refine ⟨loc.toNat % 64, by omega, ?_⟩
    apply BitVec.eq_of_toNat_eq
    rw [pteLoc_toNat]
    simp only [BitVec.toNat_ofNat]
    omega

@[simp] theorem pteLoc_mem_tableLocs (base : PhysAddr) (v : Vpn) : pteLoc base v ∈ tableLocs base := by
  rw [mem_tableLocs, pteLoc_toNat]; have := v.isLt; omega

theorem tableLocs_nodup (base : PhysAddr) : (tableLocs base).Nodup := by
  refine List.Nodup.map_on ?_ List.nodup_range
  intro v hv w hw h
  simp only [List.mem_range, Config.npte] at hv hw
  have := congrArg BitVec.toNat h
  simp only [pteLoc_toNat, BitVec.toNat_ofNat] at this
  omega

end Sys2Proof.Machine
end

