-- ==== Sys2Proof/Laws/Memory.lean ====
section
/-!
SUPPORT. The memory laws: a read after a write, the canonical form is kept, and equal readings mean equal memories.
-/

namespace Sys2Proof.Machine

@[simp] theorem Memory.read_nil (a : Nat) : Memory.read [] a = Memory.unlisted := rfl

@[simp] theorem Memory.read_zeroed (a : Nat) : Memory.zeroed.read a = Memory.unlisted := rfl

theorem Memory.read_cons (a : Nat) (v : Byte) (rest : Memory) (x : Nat) (h : Memory.read rest a = Memory.unlisted) :
    (Memory.cons a v rest).read x = if x = a then v else rest.read x := by
  unfold Memory.cons
  split <;> rename_i hv
  · split
    · subst x; rw [h, hv]
    · rfl
  · rfl

/-- Below the least listed address every address reads as an unlisted one. -/
theorem Memory.read_of_lt {size : Nat} {m : Memory} {low a : Nat} (h : Memory.wfFrom size low m) (ha : a < low) :
    m.read a = Memory.unlisted := by
  induction m generalizing low with
  | nil => rfl
  | cons c rest ih =>
    obtain ⟨b, v⟩ := c
    simp only [Memory.wfFrom, Bool.and_eq_true, decide_eq_true_eq] at h
    have hne : a ≠ b := by omega
    simp only [Memory.read, if_neg hne]
    exact ih h.2 (by omega)

theorem Memory.read_of_wf_lt_head {size b a : Nat} {v : Byte} {rest : Memory} {low : Nat}
    (h : Memory.wfFrom size low ((b, v) :: rest)) (ha : a ≤ b) : Memory.read rest a = Memory.unlisted := by
  simp only [Memory.wfFrom, Bool.and_eq_true] at h
  exact Memory.read_of_lt h.2 (by omega)

theorem Memory.read_write_from {size low : Nat} {m : Memory} (h : Memory.wfFrom size low m) (a : Nat) (v : Byte)
    (x : Nat) : (m.write a v).read x = if x = a then v else m.read x := by
  induction m generalizing low with
  | nil => exact Memory.read_cons a v [] x rfl
  | cons c rest ih =>
    obtain ⟨b, w⟩ := c
    unfold Memory.write
    split
    · rename_i hab
      refine Memory.read_cons a v _ x ?_
      simp only [Memory.read, if_neg (Nat.ne_of_lt hab)]
      exact Memory.read_of_wf_lt_head h (Nat.le_of_lt hab)
    · split
      · rename_i hab
        subst hab
        rw [Memory.read_cons a v rest x (Memory.read_of_wf_lt_head h (Nat.le_refl a))]
        by_cases hx : x = a <;> simp [Memory.read, hx]
      · rename_i hne
        simp only [Memory.wfFrom, Bool.and_eq_true] at h
        simp only [Memory.read, ih h.2]
        by_cases hxb : x = b
        · subst hxb; simp [Ne.symm hne]
        · simp [hxb]

/-- A read after a write of a memory in canonical form: the byte written there, every other byte as before. -/
theorem Memory.read_write {size : Nat} {m : Memory} (h : Memory.wf size m) (a : Nat) (v : Byte) (x : Nat) :
    (m.write a v).read x = if x = a then v else m.read x :=
  Memory.read_write_from h a v x

theorem Memory.wfFrom_mono {size low low' : Nat} {m : Memory} (h : Memory.wfFrom size low m) (hl : low' ≤ low) :
    Memory.wfFrom size low' m := by
  cases m with
  | nil => rfl
  | cons c rest =>
    simp only [Memory.wfFrom, Bool.and_eq_true, decide_eq_true_eq] at h ⊢
    exact ⟨⟨⟨Nat.le_trans hl h.1.1.1, h.1.1.2⟩, h.1.2⟩, h.2⟩

theorem Memory.wfFrom_cons {size low a : Nat} {v : Byte} {rest : Memory} (hl : low ≤ a) (ha : a < size)
    (h : Memory.wfFrom size (a + 1) rest) : Memory.wfFrom size low (Memory.cons a v rest) := by
  unfold Memory.cons
  split
  · exact Memory.wfFrom_mono h (by omega)
  · simp_all [Memory.wfFrom]

theorem Memory.wfFrom_write {size low : Nat} {m : Memory} (h : Memory.wfFrom size low m) {a : Nat} (v : Byte)
    (hl : low ≤ a) (ha : a < size) : Memory.wfFrom size low (m.write a v) := by
  induction m generalizing low with
  | nil => exact Memory.wfFrom_cons hl ha rfl
  | cons c rest ih =>
    obtain ⟨b, w⟩ := c
    have h' := h
    simp only [Memory.wfFrom, Bool.and_eq_true, decide_eq_true_eq] at h'
    unfold Memory.write
    split
    · refine Memory.wfFrom_cons hl ha ?_
      simp only [Memory.wfFrom, Bool.and_eq_true, decide_eq_true_eq]
      exact ⟨⟨⟨by omega, h'.1.1.2⟩, h'.1.2⟩, h'.2⟩
    · split
      · rename_i hab
        subst hab
        exact Memory.wfFrom_cons hl ha h'.2
      · simp only [Memory.wfFrom, Bool.and_eq_true, decide_eq_true_eq]
        exact ⟨h'.1, ih h'.2 (by omega)⟩

/-- A write inside the memory keeps the canonical form. -/
theorem Memory.wf_write {size : Nat} {m : Memory} (h : Memory.wf size m) {a : Nat} (ha : a < size) (v : Byte) :
    Memory.wf size (m.write a v) :=
  Memory.wfFrom_write h v (Nat.zero_le a) ha

@[simp] theorem Memory.wf_zeroed (size : Nat) : Memory.wf size Memory.zeroed = true := rfl

theorem Memory.ext_from {size low : Nat} {m n : Memory} (hm : Memory.wfFrom size low m) (hn : Memory.wfFrom size low n)
    (h : ∀ a, m.read a = n.read a) : m = n := by
  induction m generalizing low n with
  | nil =>
    cases n with
    | nil => rfl
    | cons d rest =>
      obtain ⟨b, w⟩ := d
      simp only [Memory.wfFrom, Bool.and_eq_true, decide_eq_true_eq] at hn
      have := h b
      simp only [Memory.read, if_true] at this
      exact absurd this.symm hn.1.2
  | cons c mr ih =>
    obtain ⟨a, v⟩ := c
    have hm' := hm
    simp only [Memory.wfFrom, Bool.and_eq_true, decide_eq_true_eq] at hm'
    cases n with
    | nil =>
      have := h a
      simp only [Memory.read, if_true] at this
      exact absurd this hm'.1.2
    | cons d nr =>
      obtain ⟨b, w⟩ := d
      have hn' := hn
      simp only [Memory.wfFrom, Bool.and_eq_true, decide_eq_true_eq] at hn'
      have hab : a = b := by
        rcases Nat.lt_trichotomy a b with hlt | heq | hgt
        · have := h a
          simp only [Memory.read, if_true, if_neg (Nat.ne_of_lt hlt)] at this
          rw [Memory.read_of_wf_lt_head hn (Nat.le_of_lt hlt)] at this
          exact absurd this hm'.1.2
        · exact heq
        · have := h b
          simp only [Memory.read, if_true, if_neg (Nat.ne_of_lt hgt)] at this
          rw [Memory.read_of_wf_lt_head hm (Nat.le_of_lt hgt)] at this
          exact absurd this.symm hn'.1.2
      subst hab
      have hvw : v = w := by
        have := h a
        simpa only [Memory.read, if_true] using this
      subst hvw
      congr 1
      refine ih hm'.2 hn'.2 fun x => ?_
      by_cases hx : x = a
      · subst hx
        rw [Memory.read_of_wf_lt_head hm (Nat.le_refl x), Memory.read_of_wf_lt_head hn (Nat.le_refl x)]
      · have := h x
        simpa only [Memory.read, if_neg hx] using this

/-- Two memories in canonical form that read alike are equal. -/
theorem Memory.ext {size : Nat} {m n : Memory} (hm : Memory.wf size m) (hn : Memory.wf size n)
    (h : ∀ a, m.read a = n.read a) : m = n :=
  Memory.ext_from hm hn h

/-! ### The three memories -/

theorem Memories.wf_iff (m : Memories) : m.wf = true ↔
    Memory.wf Config.pmemCap m.pmem = true ∧ Memory.wf Config.swapCap m.swap = true ∧
      Memory.wf Config.ptramCap m.ptram = true := by
  simp [Memories.wf, and_assoc]

@[simp] theorem Memories.wf_zeroed : Memories.zeroed.wf = true := rfl

@[simp] theorem Memories.readPmem_zeroed (pa : PhysAddr) : Memories.zeroed.readPmem pa = 0 := rfl
@[simp] theorem Memories.readSwap_zeroed (sa : SwapAddr) : Memories.zeroed.readSwap sa = 0 := rfl
@[simp] theorem Memories.readPte_zeroed (loc : PteLocation) : Memories.zeroed.readPte loc = 0 := rfl

theorem Memories.wf_writePmem {m : Memories} (h : m.wf) (pa : PhysAddr) (v : Byte) : (m.writePmem pa v).wf := by
  rw [Memories.wf_iff] at h ⊢
  exact ⟨Memory.wf_write h.1 pa.isLt v, h.2⟩

theorem Memories.wf_writeSwap {m : Memories} (h : m.wf) (sa : SwapAddr) (v : Byte) : (m.writeSwap sa v).wf := by
  rw [Memories.wf_iff] at h ⊢
  exact ⟨h.1, Memory.wf_write h.2.1 sa.isLt v, h.2.2⟩

theorem Memories.wf_writePte {m : Memories} (h : m.wf) (loc : PteLocation) (v : Byte) : (m.writePte loc v).wf := by
  rw [Memories.wf_iff] at h ⊢
  exact ⟨h.1, h.2.1, Memory.wf_write h.2.2 loc.isLt v⟩

theorem Memories.readPmem_writePmem {m : Memories} (h : m.wf) (pa : PhysAddr) (v : Byte) (x : PhysAddr) :
    (m.writePmem pa v).readPmem x = if x = pa then v else m.readPmem x := by
  rw [Memories.wf_iff] at h
  simp only [Memories.readPmem, Memories.writePmem, Memory.read_write h.1, BitVec.toNat_inj]

theorem Memories.readSwap_writeSwap {m : Memories} (h : m.wf) (sa : SwapAddr) (v : Byte) (x : SwapAddr) :
    (m.writeSwap sa v).readSwap x = if x = sa then v else m.readSwap x := by
  rw [Memories.wf_iff] at h
  simp only [Memories.readSwap, Memories.writeSwap, Memory.read_write h.2.1, BitVec.toNat_inj]

theorem Memories.readPte_writePte {m : Memories} (h : m.wf) (loc : PteLocation) (v : Byte) (x : PteLocation) :
    (m.writePte loc v).readPte x = if x = loc then v else m.readPte x := by
  rw [Memories.wf_iff] at h
  simp only [Memories.readPte, Memories.writePte, Memory.read_write h.2.2, BitVec.toNat_inj]

@[simp] theorem Memories.readSwap_writePmem (m : Memories) (pa : PhysAddr) (v : Byte) (x : SwapAddr) :
    (m.writePmem pa v).readSwap x = m.readSwap x := rfl
@[simp] theorem Memories.readPte_writePmem (m : Memories) (pa : PhysAddr) (v : Byte) (x : PteLocation) :
    (m.writePmem pa v).readPte x = m.readPte x := rfl
@[simp] theorem Memories.readPmem_writeSwap (m : Memories) (sa : SwapAddr) (v : Byte) (x : PhysAddr) :
    (m.writeSwap sa v).readPmem x = m.readPmem x := rfl
@[simp] theorem Memories.readPte_writeSwap (m : Memories) (sa : SwapAddr) (v : Byte) (x : PteLocation) :
    (m.writeSwap sa v).readPte x = m.readPte x := rfl
@[simp] theorem Memories.readPmem_writePte (m : Memories) (loc : PteLocation) (v : Byte) (x : PhysAddr) :
    (m.writePte loc v).readPmem x = m.readPmem x := rfl
@[simp] theorem Memories.readSwap_writePte (m : Memories) (loc : PteLocation) (v : Byte) (x : SwapAddr) :
    (m.writePte loc v).readSwap x = m.readSwap x := rfl

@[simp] theorem Memories.writePmem_swap (m : Memories) (pa : PhysAddr) (v : Byte) : (m.writePmem pa v).swap = m.swap := rfl
@[simp] theorem Memories.writePmem_ptram (m : Memories) (pa : PhysAddr) (v : Byte) : (m.writePmem pa v).ptram = m.ptram := rfl
@[simp] theorem Memories.writeSwap_pmem (m : Memories) (sa : SwapAddr) (v : Byte) : (m.writeSwap sa v).pmem = m.pmem := rfl
@[simp] theorem Memories.writeSwap_ptram (m : Memories) (sa : SwapAddr) (v : Byte) : (m.writeSwap sa v).ptram = m.ptram := rfl
@[simp] theorem Memories.writePte_pmem (m : Memories) (loc : PteLocation) (v : Byte) : (m.writePte loc v).pmem = m.pmem := rfl
@[simp] theorem Memories.writePte_swap (m : Memories) (loc : PteLocation) (v : Byte) : (m.writePte loc v).swap = m.swap := rfl

end Sys2Proof.Machine
end

