-- ==== Sys2Proof/Laws/Frames.lean ====
section
/-!
SUPPORT. What the four-byte frame operations and the zeroing of a page table leave in each byte of the three memories.
-/

namespace Sys2Proof.Machine

theorem frameByte_inj {f : PhysAddr} {i j : BitVec 2} : frameByte f i = frameByte f j ↔ i = j := by
  have hi := i.isLt; have hj := j.isLt
  constructor
  · intro h
    have h' := congrArg BitVec.toNat (BitVec.add_right_inj f |>.mp h)
    simp only [BitVec.toNat_setWidth] at h'
    apply BitVec.eq_of_toNat_eq
    omega
  · rintro rfl; rfl

theorem slotByte_inj {a : SwapAddr} {i j : BitVec 2} : slotByte a i = slotByte a j ↔ i = j := by
  have hi := i.isLt; have hj := j.isLt
  constructor
  · intro h
    have h' := congrArg BitVec.toNat (BitVec.add_right_inj a |>.mp h)
    simp only [BitVec.toNat_setWidth] at h'
    apply BitVec.eq_of_toNat_eq
    omega
  · rintro rfl; rfl

theorem mem_pageOffsets (i : BitVec 2) : i ∈ pageOffsets := by revert i; decide

theorem pageOffsets_nodup : pageOffsets.Nodup := by decide

/-- A byte lies in a frame exactly when it is one of the frame's four bytes. -/
theorem exists_frameByte {f x : PhysAddr} (hf : f.toNat % 4 = 0) :
    (∃ i, x = frameByte f i) ↔ x.toNat / 4 = f.toNat / 4 := by
  constructor
  · rintro ⟨i, rfl⟩
    rw [frameByte_toNat hf]; have := i.isLt; omega
  · intro h
    refine ⟨BitVec.ofNat 2 (x.toNat % 4), ?_⟩
    apply BitVec.eq_of_toNat_eq
    rw [frameByte_toNat hf]
    simp only [BitVec.toNat_ofNat]
    omega

/-- A byte lies in a slot exactly when it is one of the slot's four bytes. -/
theorem exists_slotByte {a x : SwapAddr} (ha : a.toNat % 4 = 0) :
    (∃ i, x = slotByte a i) ↔ x.toNat / 4 = a.toNat / 4 := by
  constructor
  · rintro ⟨i, rfl⟩
    rw [slotByte_toNat ha]; have := i.isLt; omega
  · intro h
    refine ⟨BitVec.ofNat 2 (x.toNat % 4), ?_⟩
    apply BitVec.eq_of_toNat_eq
    rw [slotByte_toNat ha]
    simp only [BitVec.toNat_ofNat]
    omega

/-! ### Zeroing a frame -/

theorem zeroFrame_fold (f : PhysAddr) (l : List (BitVec 2)) {m : Memories} (h : m.wf) :
    (l.foldl (fun m i => m.writePmem (frameByte f i) 0x00) m).wf ∧
      (∀ x, (l.foldl (fun m i => m.writePmem (frameByte f i) 0x00) m).readPmem x =
        if ∃ i ∈ l, x = frameByte f i then 0 else m.readPmem x) := by
  induction l generalizing m with
  | nil => simpa using h
  | cons i l ih =>
    obtain ⟨hw, hr⟩ := ih (Memories.wf_writePmem h (frameByte f i) 0x00)
    refine ⟨hw, fun x => ?_⟩
    rw [List.foldl_cons, hr, Memories.readPmem_writePmem h]
    by_cases h1 : ∃ j ∈ l, x = frameByte f j
    · rw [if_pos h1, if_pos]; obtain ⟨j, hj, rfl⟩ := h1; exact ⟨j, by simp [hj], rfl⟩
    · rw [if_neg h1]
      by_cases h2 : x = frameByte f i
      · rw [if_pos h2, if_pos]; exact ⟨i, by simp, h2⟩
      · rw [if_neg h2, if_neg]
        rintro ⟨j, hj, hx⟩
        rcases List.mem_cons.mp hj with rfl | hj
        · exact h2 hx
        · exact h1 ⟨j, hj, hx⟩

theorem zeroFrame_wf (f : PhysAddr) {m : Memories} (h : m.wf) : (zeroFrame f m).wf := (zeroFrame_fold f pageOffsets h).1

/-- Zeroing a frame zeroes its four bytes of `PMEM` and no other. -/
theorem zeroFrame_readPmem (f : PhysAddr) {m : Memories} (h : m.wf) (x : PhysAddr) :
    (zeroFrame f m).readPmem x = if ∃ i, x = frameByte f i then 0 else m.readPmem x := by
  have := (zeroFrame_fold f pageOffsets h).2 x
  simpa only [zeroFrame, mem_pageOffsets, true_and] using this

@[simp] theorem zeroFrame_swap (f : PhysAddr) (m : Memories) : (zeroFrame f m).swap = m.swap := rfl
@[simp] theorem zeroFrame_ptram (f : PhysAddr) (m : Memories) : (zeroFrame f m).ptram = m.ptram := rfl

/-! ### Copying a frame into a slot -/

theorem copyFrameToSlot_fold (f : PhysAddr) (a : SwapAddr) (l : List (BitVec 2)) {m : Memories} (h : m.wf) :
    let m' := l.foldl (fun m i => m.writeSwap (slotByte a i) (m.readPmem (frameByte f i))) m
    m'.wf ∧ m'.pmem = m.pmem ∧ m'.ptram = m.ptram ∧
      (∀ i, m'.readSwap (slotByte a i) = if i ∈ l then m.readPmem (frameByte f i) else m.readSwap (slotByte a i)) ∧
      (∀ x, (∀ i, x ≠ slotByte a i) → m'.readSwap x = m.readSwap x) := by
  induction l generalizing m with
  | nil => simpa using h
  | cons i l ih =>
    obtain ⟨hw, hp, ht, hs, ho⟩ := ih (Memories.wf_writeSwap h (slotByte a i) (m.readPmem (frameByte f i)))
    refine ⟨hw, hp, ht, fun j => ?_, fun x hx => ?_⟩
    · rw [List.foldl_cons, hs, Memories.readPmem_writeSwap, Memories.readSwap_writeSwap h]
      simp only [slotByte_inj, List.mem_cons]
      by_cases hj : j ∈ l <;> by_cases hji : j = i <;> simp_all
    · rw [List.foldl_cons, ho x hx, Memories.readSwap_writeSwap h, if_neg (hx i)]

theorem copyFrameToSlot_wf (f : PhysAddr) (a : SwapAddr) {m : Memories} (h : m.wf) : (copyFrameToSlot f a m).wf :=
  (copyFrameToSlot_fold f a pageOffsets h).1

@[simp] theorem copyFrameToSlot_pmem (f : PhysAddr) (a : SwapAddr) (m : Memories) :
    (copyFrameToSlot f a m).pmem = m.pmem := rfl
@[simp] theorem copyFrameToSlot_ptram (f : PhysAddr) (a : SwapAddr) (m : Memories) :
    (copyFrameToSlot f a m).ptram = m.ptram := rfl

/-- Byte `i` of the frame goes to byte `i` of the slot. -/
theorem copyFrameToSlot_readSwap (f : PhysAddr) (a : SwapAddr) {m : Memories} (h : m.wf) (i : BitVec 2) :
    (copyFrameToSlot f a m).readSwap (slotByte a i) = m.readPmem (frameByte f i) := by
  have := (copyFrameToSlot_fold f a pageOffsets h).2.2.2.1 i
  simpa only [copyFrameToSlot, mem_pageOffsets, if_true] using this

theorem copyFrameToSlot_readSwap_other (f : PhysAddr) (a : SwapAddr) {m : Memories} (h : m.wf) {x : SwapAddr}
    (hx : ∀ i, x ≠ slotByte a i) : (copyFrameToSlot f a m).readSwap x = m.readSwap x :=
  (copyFrameToSlot_fold f a pageOffsets h).2.2.2.2 x hx

/-! ### Exchanging a frame with a slot -/

theorem exchangeByte_wf (f : PhysAddr) (a : SwapAddr) {m : Memories} (h : m.wf) (i : BitVec 2) :
    (exchangeByte f a m i).wf :=
  Memories.wf_writeSwap (Memories.wf_writePmem h _ _) _ _

theorem exchangeByte_readPmem (f : PhysAddr) (a : SwapAddr) {m : Memories} (h : m.wf) (i : BitVec 2) (x : PhysAddr) :
    (exchangeByte f a m i).readPmem x = if x = frameByte f i then m.readSwap (slotByte a i) else m.readPmem x := by
  simp only [exchangeByte, Memories.readPmem_writeSwap, Memories.readPmem_writePmem h]

theorem exchangeByte_readSwap (f : PhysAddr) (a : SwapAddr) {m : Memories} (h : m.wf) (i : BitVec 2) (x : SwapAddr) :
    (exchangeByte f a m i).readSwap x = if x = slotByte a i then m.readPmem (frameByte f i) else m.readSwap x := by
  simp only [exchangeByte, Memories.readSwap_writeSwap (Memories.wf_writePmem h _ _), Memories.readSwap_writePmem]

theorem exchange_fold (f : PhysAddr) (a : SwapAddr) (l : List (BitVec 2)) (hl : l.Nodup) {m : Memories} (h : m.wf) :
    let m' := l.foldl (exchangeByte f a) m
    m'.wf ∧ m'.ptram = m.ptram ∧
      (∀ i, m'.readPmem (frameByte f i) = if i ∈ l then m.readSwap (slotByte a i) else m.readPmem (frameByte f i)) ∧
      (∀ i, m'.readSwap (slotByte a i) = if i ∈ l then m.readPmem (frameByte f i) else m.readSwap (slotByte a i)) ∧
      (∀ x, (∀ i, x ≠ frameByte f i) → m'.readPmem x = m.readPmem x) ∧
      (∀ x, (∀ i, x ≠ slotByte a i) → m'.readSwap x = m.readSwap x) := by
  induction l generalizing m with
  | nil => simpa using h
  | cons i l ih =>
    obtain ⟨hi, hl'⟩ := List.nodup_cons.mp hl
    obtain ⟨hw, ht, hp, hs, hop, hos⟩ := ih hl' (exchangeByte_wf f a h i)
    refine ⟨hw, ht, fun j => ?_, fun j => ?_, fun x hx => ?_, fun x hx => ?_⟩
    · rw [List.foldl_cons, hp, exchangeByte_readPmem f a h, exchangeByte_readSwap f a h]
      simp only [slotByte_inj, frameByte_inj, List.mem_cons]
      by_cases hj : j ∈ l <;> by_cases hji : j = i <;> simp_all
    · rw [List.foldl_cons, hs, exchangeByte_readPmem f a h, exchangeByte_readSwap f a h]
      simp only [slotByte_inj, frameByte_inj, List.mem_cons]
      by_cases hj : j ∈ l <;> by_cases hji : j = i <;> simp_all
    · rw [List.foldl_cons, hop x hx, exchangeByte_readPmem f a h, if_neg (hx i)]
    · rw [List.foldl_cons, hos x hx, exchangeByte_readSwap f a h, if_neg (hx i)]

theorem exchangeFrameSlot_wf (f : PhysAddr) (a : SwapAddr) {m : Memories} (h : m.wf) : (exchangeFrameSlot f a m).wf :=
  (exchange_fold f a pageOffsets pageOffsets_nodup h).1

@[simp] theorem exchangeFrameSlot_ptram (f : PhysAddr) (a : SwapAddr) (m : Memories) :
    (exchangeFrameSlot f a m).ptram = m.ptram := rfl

/-- Byte `i` of the slot comes to byte `i` of the frame. -/
theorem exchangeFrameSlot_readPmem (f : PhysAddr) (a : SwapAddr) {m : Memories} (h : m.wf) (i : BitVec 2) :
    (exchangeFrameSlot f a m).readPmem (frameByte f i) = m.readSwap (slotByte a i) := by
  have := (exchange_fold f a pageOffsets pageOffsets_nodup h).2.2.1 i
  simpa only [exchangeFrameSlot, mem_pageOffsets, if_true] using this

/-- Byte `i` of the frame comes to byte `i` of the slot. -/
theorem exchangeFrameSlot_readSwap (f : PhysAddr) (a : SwapAddr) {m : Memories} (h : m.wf) (i : BitVec 2) :
    (exchangeFrameSlot f a m).readSwap (slotByte a i) = m.readPmem (frameByte f i) := by
  have := (exchange_fold f a pageOffsets pageOffsets_nodup h).2.2.2.1 i
  simpa only [exchangeFrameSlot, mem_pageOffsets, if_true] using this

theorem exchangeFrameSlot_readPmem_other (f : PhysAddr) (a : SwapAddr) {m : Memories} (h : m.wf) {x : PhysAddr}
    (hx : ∀ i, x ≠ frameByte f i) : (exchangeFrameSlot f a m).readPmem x = m.readPmem x :=
  (exchange_fold f a pageOffsets pageOffsets_nodup h).2.2.2.2.1 x hx

theorem exchangeFrameSlot_readSwap_other (f : PhysAddr) (a : SwapAddr) {m : Memories} (h : m.wf) {x : SwapAddr}
    (hx : ∀ i, x ≠ slotByte a i) : (exchangeFrameSlot f a m).readSwap x = m.readSwap x :=
  (exchange_fold f a pageOffsets pageOffsets_nodup h).2.2.2.2.2 x hx

/-! ### Zeroing a page table -/

theorem zeroTable_fold (l : List PteLocation) {m : Memories} (h : m.wf) :
    (l.foldl (fun m loc => m.writePte loc 0x00) m).wf ∧
      (l.foldl (fun m loc => m.writePte loc 0x00) m).pmem = m.pmem ∧
      (l.foldl (fun m loc => m.writePte loc 0x00) m).swap = m.swap ∧
      (∀ x, (l.foldl (fun m loc => m.writePte loc 0x00) m).readPte x = if x ∈ l then 0 else m.readPte x) := by
  induction l generalizing m with
  | nil => simpa using h
  | cons y l ih =>
    obtain ⟨hw, hp, hs, hr⟩ := ih (Memories.wf_writePte h y 0x00)
    refine ⟨hw, hp, hs, fun x => ?_⟩
    rw [List.foldl_cons, hr, Memories.readPte_writePte h]
    by_cases h1 : x ∈ l <;> by_cases h2 : x = y <;> simp [h1, h2]

theorem zeroTable_wf (f : PhysAddr) {m : Memories} (h : m.wf) : (zeroTable f m).wf := (zeroTable_fold (tableLocs f) h).1

theorem zeroTable_pmem (f : PhysAddr) {m : Memories} (h : m.wf) : (zeroTable f m).pmem = m.pmem :=
  (zeroTable_fold (tableLocs f) h).2.1

theorem zeroTable_swap (f : PhysAddr) {m : Memories} (h : m.wf) : (zeroTable f m).swap = m.swap :=
  (zeroTable_fold (tableLocs f) h).2.2.1

/-- Zeroing a page table zeroes its 64 PTE bytes and no other. -/
theorem zeroTable_readPte (f : PhysAddr) {m : Memories} (h : m.wf) (x : PteLocation) :
    (zeroTable f m).readPte x = if x ∈ tableLocs f then 0 else m.readPte x :=
  (zeroTable_fold (tableLocs f) h).2.2.2 x

end Sys2Proof.Machine
end

