-- ==== Sys2Proof/Laws/Ops.lean ====
section
/-!
SUPPORT. What each shared operation can do, said once: the memories an eviction, a bind and a swap-in leave, and one
inversion lemma for each operation that can answer in more than one way.
-/

namespace Sys2Proof.Machine

/-! ### The initial queues -/

theorem mem_frameInit {pm : Nat} (h : pm ≤ 256) {f : PhysAddr} :
    f ∈ frameInit pm ↔ f.toNat % 4 = 0 ∧ f.toNat / 4 < pm / 4 := by
  simp only [frameInit, List.mem_map, List.mem_range, Config.pageSize]
  constructor
  · rintro ⟨n, hn, rfl⟩
    simp only [BitVec.toNat_ofNat]; omega
  · rintro ⟨h1, h2⟩
    refine ⟨f.toNat / 4, h2, BitVec.eq_of_toNat_eq ?_⟩
    simp only [BitVec.toNat_ofNat]; omega

theorem mem_swapInit {sw : Nat} (h : sw ≤ 512) {a : SwapAddr} :
    a ∈ swapInit sw ↔ a.toNat % 4 = 0 ∧ 0 < a.toNat ∧ a.toNat / 4 < sw / 4 := by
  simp only [swapInit, List.mem_map, List.mem_range, Config.pageSize]
  constructor
  · rintro ⟨n, hn, rfl⟩
    simp only [BitVec.toNat_ofNat]; omega
  · rintro ⟨h1, h2, h3⟩
    refine ⟨a.toNat / 4 - 1, by omega, BitVec.eq_of_toNat_eq ?_⟩
    simp only [BitVec.toNat_ofNat]; omega

theorem frameInit_nodup {pm : Nat} (h : pm ≤ 256) : (frameInit pm).Nodup := by
  refine List.Nodup.map_on ?_ List.nodup_range
  intro v hv w hw he
  simp only [List.mem_range, Config.pageSize] at hv hw
  have := congrArg BitVec.toNat he
  simp only [BitVec.toNat_ofNat] at this
  omega

theorem swapInit_nodup {sw : Nat} (h : sw ≤ 512) : (swapInit sw).Nodup := by
  refine List.Nodup.map_on ?_ List.nodup_range
  intro v hv w hw he
  simp only [List.mem_range, Config.pageSize] at hv hw
  have := congrArg BitVec.toNat he
  simp only [BitVec.toNat_ofNat] at this
  omega

@[simp] theorem frameInit_length (pm : Nat) : (frameInit pm).length = pm / 4 := by
  simp [frameInit, Config.pageSize]

@[simp] theorem swapInit_length (sw : Nat) : (swapInit sw).length = sw / 4 - 1 := by
  simp [swapInit, Config.pageSize]

theorem frameInRange_iff {s : State} {f : PhysAddr} :
    frameInRange s f = true ↔ f.toNat % 4 = 0 ∧ f.toNat / 4 < s.pmemSize.toNat / 4 := by
  simp only [frameInRange, Bool.and_eq_true, decide_eq_true_eq]
  simp only [nframes, Config.pageSize]

theorem slotInRange_iff {s : State} {a : SwapAddr} :
    slotInRange s a = true ↔ a.toNat % 4 = 0 ∧ 0 < a.toNat ∧ a.toNat / 4 < s.swapSize.toNat / 4 := by
  simp only [slotInRange, Bool.and_eq_true, decide_eq_true_eq, and_assoc]
  simp only [nslots, Config.pageSize]

/-! ### The memories an eviction leaves (42_victim_queue.md R160) -/

theorem evictedMemories_wf (v : PteLocation) (p : Pfn) (a : SwapAddr) {m : Memories} (h : m.wf) :
    (evictedMemories v p a m).wf :=
  Memories.wf_writePte (zeroFrame_wf _ (copyFrameToSlot_wf _ _ h)) _ _

/-- The victim's frame is zero. -/
theorem evictedMemories_frame (v : PteLocation) (p : Pfn) (a : SwapAddr) {m : Memories} (h : m.wf) (i : BitVec 2) :
    (evictedMemories v p a m).readPmem (frameByte (frameAddr p) i) = 0 := by
  rw [evictedMemories, Memories.readPmem_writePte, zeroFrame_readPmem _ (copyFrameToSlot_wf _ _ h), if_pos ⟨i, rfl⟩]

theorem evictedMemories_pmem_other (v : PteLocation) (p : Pfn) (a : SwapAddr) {m : Memories} (h : m.wf) {x : PhysAddr}
    (hx : ∀ i, x ≠ frameByte (frameAddr p) i) : (evictedMemories v p a m).readPmem x = m.readPmem x := by
  rw [evictedMemories, Memories.readPmem_writePte, zeroFrame_readPmem _ (copyFrameToSlot_wf _ _ h), if_neg]
  · rfl
  · rintro ⟨i, hi⟩; exact hx i hi

/-- The slot holds the bytes the victim's frame held. -/
theorem evictedMemories_slot (v : PteLocation) (p : Pfn) (a : SwapAddr) {m : Memories} (h : m.wf) (i : BitVec 2) :
    (evictedMemories v p a m).readSwap (slotByte a i) = m.readPmem (frameByte (frameAddr p) i) :=
  copyFrameToSlot_readSwap _ _ h i

theorem evictedMemories_swap_other (v : PteLocation) (p : Pfn) (a : SwapAddr) {m : Memories} (h : m.wf) {x : SwapAddr}
    (hx : ∀ i, x ≠ slotByte a i) : (evictedMemories v p a m).readSwap x = m.readSwap x :=
  copyFrameToSlot_readSwap_other (frameAddr p) a h hx

/-- The victim's PTE names the slot; every other PTE is as before. -/
theorem evictedMemories_readPte (v : PteLocation) (p : Pfn) (a : SwapAddr) {m : Memories} (h : m.wf)
    (x : PteLocation) :
    (evictedMemories v p a m).readPte x = if x = v then pteEncSwapped (slotIdx a) else m.readPte x :=
  Memories.readPte_writePte (zeroFrame_wf _ (copyFrameToSlot_wf _ _ h)) _ _ _

/-! ### The memories a bind leaves (44_fault_engine.md R188) -/

theorem boundMemories_wf (e : PteLocation) (f : PhysAddr) {m : Memories} (h : m.wf) : (boundMemories e f m).wf :=
  Memories.wf_writePte (zeroFrame_wf _ h) _ _

theorem boundMemories_readPmem (e : PteLocation) (f : PhysAddr) {m : Memories} (h : m.wf) (x : PhysAddr) :
    (boundMemories e f m).readPmem x = if ∃ i, x = frameByte f i then 0 else m.readPmem x :=
  zeroFrame_readPmem f h x

@[simp] theorem boundMemories_readSwap (e : PteLocation) (f : PhysAddr) (m : Memories) (x : SwapAddr) :
    (boundMemories e f m).readSwap x = m.readSwap x := rfl

theorem boundMemories_readPte (e : PteLocation) (f : PhysAddr) {m : Memories} (h : m.wf) (x : PteLocation) :
    (boundMemories e f m).readPte x = if x = e then pteEncPresent (pfnOf f) else m.readPte x :=
  Memories.readPte_writePte (zeroFrame_wf _ h) _ _ _

/-! ### The memories a swap-in leaves (44_fault_engine.md R191) -/

theorem swappedInMemories_wf (e v : PteLocation) (p : Pfn) (x : SlotIndex) {m : Memories} (h : m.wf) :
    (swappedInMemories e v p x m).wf :=
  Memories.wf_writePte (Memories.wf_writePte (exchangeFrameSlot_wf _ _ h) _ _) _ _

theorem swappedInMemories_frame (e v : PteLocation) (p : Pfn) (x : SlotIndex) {m : Memories} (h : m.wf)
    (i : BitVec 2) :
    (swappedInMemories e v p x m).readPmem (frameByte (frameAddr p) i) = m.readSwap (slotByte (slotAddr x) i) :=
  exchangeFrameSlot_readPmem _ _ h i

theorem swappedInMemories_slot (e v : PteLocation) (p : Pfn) (x : SlotIndex) {m : Memories} (h : m.wf)
    (i : BitVec 2) :
    (swappedInMemories e v p x m).readSwap (slotByte (slotAddr x) i) = m.readPmem (frameByte (frameAddr p) i) :=
  exchangeFrameSlot_readSwap _ _ h i

theorem swappedInMemories_pmem_other (e v : PteLocation) (p : Pfn) (x : SlotIndex) {m : Memories} (h : m.wf)
    {y : PhysAddr} (hy : ∀ i, y ≠ frameByte (frameAddr p) i) :
    (swappedInMemories e v p x m).readPmem y = m.readPmem y :=
  exchangeFrameSlot_readPmem_other (frameAddr p) (slotAddr x) h hy

theorem swappedInMemories_swap_other (e v : PteLocation) (p : Pfn) (x : SlotIndex) {m : Memories} (h : m.wf)
    {y : SwapAddr} (hy : ∀ i, y ≠ slotByte (slotAddr x) i) :
    (swappedInMemories e v p x m).readSwap y = m.readSwap y :=
  exchangeFrameSlot_readSwap_other (frameAddr p) (slotAddr x) h hy

/-- `e` names the victim's frame, the victim names the slot, every other PTE is as before. -/
theorem swappedInMemories_readPte (e v : PteLocation) (p : Pfn) (x : SlotIndex) {m : Memories} (h : m.wf)
    (y : PteLocation) : (swappedInMemories e v p x m).readPte y =
      if y = e then pteEncPresent p else if y = v then pteEncSwapped x else m.readPte y := by
  have hw := exchangeFrameSlot_wf (frameAddr p) (slotAddr x) h
  rw [swappedInMemories, Memories.readPte_writePte (Memories.wf_writePte hw _ _), Memories.readPte_writePte hw]
  rfl

/-! ### Inversion lemmas -/

/-- `withMemories` answers a next state only where the memories exist. -/
theorem withMemories_next {s t : State} {body : Memories → Out} :
    withMemories s body = .next t ↔ ∃ m, s.mem = some m ∧ body m = .next t := by
  unfold withMemories
  cases h : s.mem <;> simp [breakStep]

theorem orBreak_next {α : Type} {t : State} {r : Except Broken α} {body : α → Out} :
    orBreak r body = .next t ↔ ∃ x, r = .ok x ∧ body x = .next t := by
  cases r <;> simp [orBreak, breakStep]

/-- A command accepted in `READY` only answers by its body there, and `REFUSED` elsewhere (30_encoding.md R99). -/
theorem whenReady_next {s t : State} {body : Out} :
    whenReady s body = .next t ↔ (s.lc = .ready ∧ body = .next t) ∨ (s.lc ≠ .ready ∧ t = s.answer .refused 0) := by
  unfold whenReady
  split <;> rename_i h <;> simp [h, refuse, respond, eq_comm]

theorem victimEnqueue_ok {loc : PteLocation} {s t : State} :
    victimEnqueue loc s = .ok t ↔ s.vq.length < 64 ∧ t = { s with vq := s.vq ++ [loc] } := by
  unfold victimEnqueue
  split <;> rename_i h <;> simp_all [Config.victimQueueMax, eq_comm]

theorem victimPfn_ok {s : State} {m : Memories} {v : PteLocation} {p : Pfn} :
    victimPfn s m v = .ok p ↔ (∃ u, pteDecode (m.readPte v) = .present p u) ∧ p.toNat < nframes s := by
  unfold victimPfn
  cases h : pteDecode (m.readPte v) with
  | present q u =>
    simp only [Pte.present.injEq]
    split <;> rename_i hq
    · constructor
      · intro hp; cases hp; exact ⟨⟨u, rfl, rfl⟩, hq⟩
      · rintro ⟨⟨_, rfl, _⟩, _⟩; rfl
    · constructor
      · intro hp; cases hp
      · rintro ⟨⟨_, rfl, _⟩, hp⟩; exact absurd hp hq
  | swapped x => simp
  | unmapped => simp

/-- What `EvictTo` does where it succeeds (42_victim_queue.md R160). -/
theorem evictTo_ok {v : PteLocation} {a : SwapAddr} {s t : State} {f : PhysAddr} :
    evictTo v a s = .ok (f, t) ↔ ∃ m p u, s.mem = some m ∧ pteDecode (m.readPte v) = .present p u ∧
      p.toNat < nframes s ∧ slotInRange s a = true ∧ f = frameAddr p ∧
      t = { s with mem := some (evictedMemories v p a m) } := by
  unfold evictTo
  cases hm : s.mem with
  | none => simp
  | some m =>
    dsimp only
    cases hp : victimPfn s m v with
    | error w =>
      simp only [Option.some.injEq, false_iff, reduceCtorEq]
      rintro ⟨m', p, u, rfl, hd, hn, -⟩
      rw [victimPfn_ok.mpr ⟨⟨u, hd⟩, hn⟩] at hp
      cases hp
    | ok p =>
      obtain ⟨⟨u, hd⟩, hn⟩ := victimPfn_ok.mp hp
      dsimp only
      split <;> rename_i hr
      · constructor
        · intro h; cases h; exact ⟨m, p, u, rfl, hd, hn, hr, rfl, rfl⟩
        · rintro ⟨m', p', u', h', hd', -, -, rfl, rfl⟩
          cases h'
          rw [hd] at hd'
          cases hd'
          rfl
      · constructor
        · intro h; cases h
        · rintro ⟨_, _, _, _, _, _, hr', _⟩; exact absurd hr' hr

/-- How a frame is obtained: the head of the free queue, or an eviction when it is empty (43_process_table.md R172;
44_fault_engine.md R188, R189). -/
theorem obtainFrame_frame {s t : State} {f : PhysAddr} :
    obtainFrame s = .frame f t ↔
      (∃ rest, s.fq = f :: rest ∧ frameInRange s f = true ∧ t = { s with fq := rest }) ∨
      (∃ v vq a sq, s.fq = [] ∧ s.vq = v :: vq ∧ s.sq = a :: sq ∧
        evictTo v a { s with vq := vq, sq := sq } = .ok (f, t)) := by
  unfold obtainFrame frameAcquire
  cases hf : s.fq with
  | cons g rest =>
    have hr : frameInRange { s with fq := rest } = frameInRange s := rfl
    simp only [List.cons.injEq, reduceCtorEq, false_and, exists_false, or_false]
    split <;> rename_i h
    · constructor
      · intro h'; cases h'; exact ⟨rest, ⟨rfl, rfl⟩, h, rfl⟩
      · rintro ⟨_, ⟨rfl, rfl⟩, _, rfl⟩; rfl
    · constructor
      · intro h'; cases h'
      · rintro ⟨_, ⟨rfl, rfl⟩, h', _⟩; exact absurd h' h
  | nil =>
    simp only [reduceCtorEq, false_and, exists_false, false_or, true_and, victimSelect, swapAcquire]
    cases hv : s.vq with
    | nil => simp
    | cons v vq =>
      simp only
      cases hs : s.sq with
      | nil => simp
      | cons a sq =>
        simp only [List.cons.injEq]
        rw [hf]
        cases he : evictTo v a { s with fq := [], vq := vq, sq := sq } with
        | error w =>
          simp only [reduceCtorEq, false_iff]
          rintro ⟨_, _, _, _, ⟨rfl, rfl⟩, ⟨rfl, rfl⟩, h⟩
          have := he.symm.trans h
          cases this
        | ok r =>
          obtain ⟨g, s3⟩ := r
          constructor
          · intro h; cases h; exact ⟨v, vq, a, sq, ⟨rfl, rfl⟩, ⟨rfl, rfl⟩, he⟩
          · rintro ⟨_, _, _, _, ⟨rfl, rfl⟩, ⟨rfl, rfl⟩, h⟩
            have := he.symm.trans h
            cases this
            rfl

/-- No frame can be had exactly when the free queue is empty and an eviction lacks a victim or a slot
(42_victim_queue.md R158). -/
theorem obtainFrame_exhausted {s : State} : obtainFrame s = .exhausted ↔ s.fq = [] ∧ (s.vq = [] ∨ s.sq = []) := by
  unfold obtainFrame frameAcquire
  cases hf : s.fq with
  | cons g rest => simp only [reduceCtorEq, false_and, iff_false]; split <;> simp
  | nil =>
    simp only [victimSelect, swapAcquire, true_and]
    cases hv : s.vq with
    | nil => simp
    | cons v vq =>
      simp only
      cases hs : s.sq with
      | nil => simp
      | cons a sq =>
        simp only [reduceCtorEq, or_self, iff_false]
        split <;> simp

/-- What `Bind` does where it succeeds (44_fault_engine.md R188). -/
theorem bindFrame_ok {e : PteLocation} {f : PhysAddr} {s t : State} :
    bindFrame e f s = .ok t ↔ ∃ m, s.mem = some m ∧ s.vq.length < 64 ∧
      t = { s with mem := some (boundMemories e f m), vq := s.vq ++ [e] } := by
  unfold bindFrame
  cases hm : s.mem <;> simp [victimEnqueue_ok]

/-- What the swap-in does where it succeeds (44_fault_engine.md R191). -/
theorem swapIn_ok {e v : PteLocation} {x : SlotIndex} {s t : State} :
    swapIn e x v s = .ok t ↔ ∃ m p u, s.mem = some m ∧ pteDecode (m.readPte v) = .present p u ∧
      p.toNat < nframes s ∧ slotInRange s (slotAddr x) = true ∧ s.vq.length < 64 ∧
      t = { s with mem := some (swappedInMemories e v p x m), vq := s.vq ++ [e] } := by
  unfold swapIn
  cases hm : s.mem with
  | none => simp
  | some m =>
    dsimp only
    cases hp : victimPfn s m v with
    | error w =>
      simp only [Option.some.injEq, false_iff, reduceCtorEq]
      rintro ⟨m', p, u, rfl, hd, hn, -⟩
      rw [victimPfn_ok.mpr ⟨⟨u, hd⟩, hn⟩] at hp
      cases hp
    | ok p =>
      obtain ⟨⟨u, hd⟩, hn⟩ := victimPfn_ok.mp hp
      dsimp only
      split <;> rename_i hr
      · rw [victimEnqueue_ok]
        constructor
        · rintro ⟨hl, rfl⟩; exact ⟨m, p, u, rfl, hd, hn, hr, hl, rfl⟩
        · rintro ⟨m', p', u', h', hd', -, -, hl, rfl⟩
          cases h'
          rw [hd] at hd'
          cases hd'
          exact ⟨hl, rfl⟩
      · constructor
        · intro h; cases h
        · rintro ⟨_, _, _, _, _, _, hr', _⟩; exact absurd hr' hr

/-- What entering a process does where it succeeds (43_process_table.md R172). -/
theorem addProcess_ok {pid : Pid} {f : PhysAddr} {s t : State} :
    addProcess pid f s = .ok t ↔ ∃ m, s.mem = some m ∧ s.proc.length < 64 ∧
      t = { s with mem := some (zeroTable f m), proc := s.proc ++ [⟨pid, f⟩] } := by
  unfold addProcess
  cases hm : s.mem with
  | none => simp
  | some m =>
    simp only [Option.some.injEq, exists_eq_left']
    split <;> rename_i h
    · rw [Config.procMax] at h
      simp only [Except.ok.injEq, h, true_and]
      exact eq_comm
    · rw [Config.procMax] at h
      simp only [reduceCtorEq, h, false_and]

/-! ### Process table -/

theorem procLookup_none {proc : List ProcRecord} {pid : Pid} :
    procLookup proc pid = none ↔ pid ∉ proc.map (·.pid) := by
  induction proc with
  | nil => simp [procLookup]
  | cons r rest ih =>
    simp only [procLookup, List.map_cons, List.mem_cons, not_or]
    split <;> rename_i h
    · simp [h]
    · simp [ih, Ne.symm h]

theorem procLookup_mem {proc : List ProcRecord} {pid : Pid} {b : PhysAddr} (h : procLookup proc pid = some b) :
    ⟨pid, b⟩ ∈ proc := by
  induction proc with
  | nil => simp [procLookup] at h
  | cons r rest ih =>
    simp only [procLookup] at h
    split at h <;> rename_i hr
    · cases h; subst hr; exact List.mem_cons_self
    · exact List.mem_cons_of_mem _ (ih h)

theorem procLookup_append (proc : List ProcRecord) (r : ProcRecord) {pid : Pid} (h : procLookup proc pid = none) :
    procLookup (proc ++ [r]) pid = if r.pid = pid then some r.base else none := by
  induction proc with
  | nil => rfl
  | cons q rest ih =>
    simp only [procLookup] at h
    split at h <;> rename_i hq
    · cases h
    · simp only [List.cons_append, procLookup, if_neg hq, ih h]

theorem liveBase_iff {proc : List ProcRecord} {base : PhysAddr} :
    liveBase proc base = true ↔ base ∈ proc.map (·.base) := by
  induction proc with
  | nil => simp [liveBase]
  | cons r rest ih =>
    simp only [liveBase, Bool.or_eq_true, decide_eq_true_eq, ih, List.map_cons, List.mem_cons]
    exact or_congr eq_comm Iff.rfl

end Sys2Proof.Machine
end

