-- ==== Sys2Proof/Laws/State.lean ====
section
/-!
SUPPORT. What each named update of the state does to each field, one lemma per field per update.
-/

namespace Sys2Proof.Machine

/-! ### Ending a command with a response -/

@[simp] theorem answer_lc (s : State) (st : Status) (v : BitVec 12) : (s.answer st v).lc = s.lc := rfl
@[simp] theorem answer_pmemSize (s : State) (st : Status) (v : BitVec 12) : (s.answer st v).pmemSize = s.pmemSize := rfl
@[simp] theorem answer_swapSize (s : State) (st : Status) (v : BitVec 12) : (s.answer st v).swapSize = s.swapSize := rfl
@[simp] theorem answer_mem (s : State) (st : Status) (v : BitVec 12) : (s.answer st v).mem = s.mem := rfl
@[simp] theorem answer_fq (s : State) (st : Status) (v : BitVec 12) : (s.answer st v).fq = s.fq := rfl
@[simp] theorem answer_sq (s : State) (st : Status) (v : BitVec 12) : (s.answer st v).sq = s.sq := rfl
@[simp] theorem answer_vq (s : State) (st : Status) (v : BitVec 12) : (s.answer st v).vq = s.vq := rfl
@[simp] theorem answer_proc (s : State) (st : Status) (v : BitVec 12) : (s.answer st v).proc = s.proc := rfl
@[simp] theorem answer_rsp (s : State) (st : Status) (v : BitVec 12) : (s.answer st v).rsp = responseWord st v := rfl
@[simp] theorem answer_rspValid (s : State) (st : Status) (v : BitVec 12) : (s.answer st v).rspValid = true := rfl
@[simp] theorem answer_port (s : State) (st : Status) (v : BitVec 12) : (s.answer st v).port = s.port := rfl
@[simp] theorem answer_freeDraws (s : State) (st : Status) (v : BitVec 12) : (s.answer st v).freeDraws = s.freeDraws := rfl

/-! ### A step that ends no command -/

@[simp] theorem quiet_lc (s : State) : (s.quiet).lc = s.lc := rfl
@[simp] theorem quiet_pmemSize (s : State) : (s.quiet).pmemSize = s.pmemSize := rfl
@[simp] theorem quiet_swapSize (s : State) : (s.quiet).swapSize = s.swapSize := rfl
@[simp] theorem quiet_mem (s : State) : (s.quiet).mem = s.mem := rfl
@[simp] theorem quiet_fq (s : State) : (s.quiet).fq = s.fq := rfl
@[simp] theorem quiet_sq (s : State) : (s.quiet).sq = s.sq := rfl
@[simp] theorem quiet_vq (s : State) : (s.quiet).vq = s.vq := rfl
@[simp] theorem quiet_proc (s : State) : (s.quiet).proc = s.proc := rfl
@[simp] theorem quiet_rsp (s : State) : (s.quiet).rsp = s.rsp := rfl
@[simp] theorem quiet_rspValid (s : State) : (s.quiet).rspValid = false := rfl
@[simp] theorem quiet_port (s : State) : (s.quiet).port = s.port := rfl
@[simp] theorem quiet_freeDraws (s : State) : (s.quiet).freeDraws = s.freeDraws := rfl

/-! ### Clearing the paging state -/

@[simp] theorem cleared_lc (s : State) : (s.cleared).lc = .uninit := rfl
@[simp] theorem cleared_pmemSize (s : State) : (s.cleared).pmemSize = 0 := rfl
@[simp] theorem cleared_swapSize (s : State) : (s.cleared).swapSize = 0 := rfl
@[simp] theorem cleared_mem (s : State) : (s.cleared).mem = none := rfl
@[simp] theorem cleared_fq (s : State) : (s.cleared).fq = [] := rfl
@[simp] theorem cleared_sq (s : State) : (s.cleared).sq = [] := rfl
@[simp] theorem cleared_vq (s : State) : (s.cleared).vq = [] := rfl
@[simp] theorem cleared_proc (s : State) : (s.cleared).proc = [] := rfl
@[simp] theorem cleared_rsp (s : State) : (s.cleared).rsp = s.rsp := rfl
@[simp] theorem cleared_rspValid (s : State) : (s.cleared).rspValid = s.rspValid := rfl
@[simp] theorem cleared_port (s : State) : (s.cleared).port = s.port := rfl
@[simp] theorem cleared_freeDraws (s : State) : (s.cleared).freeDraws = s.freeDraws := rfl

/-! ### The `rst` input -/

@[simp] theorem powerOnReset_lc (s : State) : (s.powerOnReset).lc = .uninit := rfl
@[simp] theorem powerOnReset_pmemSize (s : State) : (s.powerOnReset).pmemSize = 0 := rfl
@[simp] theorem powerOnReset_swapSize (s : State) : (s.powerOnReset).swapSize = 0 := rfl
@[simp] theorem powerOnReset_mem (s : State) : (s.powerOnReset).mem = none := rfl
@[simp] theorem powerOnReset_fq (s : State) : (s.powerOnReset).fq = [] := rfl
@[simp] theorem powerOnReset_sq (s : State) : (s.powerOnReset).sq = [] := rfl
@[simp] theorem powerOnReset_vq (s : State) : (s.powerOnReset).vq = [] := rfl
@[simp] theorem powerOnReset_proc (s : State) : (s.powerOnReset).proc = [] := rfl
@[simp] theorem powerOnReset_rsp (s : State) : (s.powerOnReset).rsp = Config.freeRsp s.freeDraws := rfl
@[simp] theorem powerOnReset_rspValid (s : State) : (s.powerOnReset).rspValid = false := rfl
@[simp] theorem powerOnReset_port (s : State) : (s.powerOnReset).port = s.port := rfl
@[simp] theorem powerOnReset_freeDraws (s : State) : (s.powerOnReset).freeDraws = s.freeDraws + 1 := rfl

/-! ### A successful `INIT` -/

@[simp] theorem initialised_lc (s : State) (pm sw : BitVec 12) : (s.initialised pm sw).lc = .ready := rfl
@[simp] theorem initialised_pmemSize (s : State) (pm sw : BitVec 12) : (s.initialised pm sw).pmemSize = pm.setWidth 9 := rfl
@[simp] theorem initialised_swapSize (s : State) (pm sw : BitVec 12) : (s.initialised pm sw).swapSize = sw.setWidth 10 := rfl
@[simp] theorem initialised_mem (s : State) (pm sw : BitVec 12) : (s.initialised pm sw).mem = some Memories.zeroed := rfl
@[simp] theorem initialised_fq (s : State) (pm sw : BitVec 12) : (s.initialised pm sw).fq = frameInit pm.toNat := rfl
@[simp] theorem initialised_sq (s : State) (pm sw : BitVec 12) : (s.initialised pm sw).sq = swapInit sw.toNat := rfl
@[simp] theorem initialised_vq (s : State) (pm sw : BitVec 12) : (s.initialised pm sw).vq = [] := rfl
@[simp] theorem initialised_proc (s : State) (pm sw : BitVec 12) : (s.initialised pm sw).proc = [] := rfl
@[simp] theorem initialised_rsp (s : State) (pm sw : BitVec 12) : (s.initialised pm sw).rsp = s.rsp := rfl
@[simp] theorem initialised_rspValid (s : State) (pm sw : BitVec 12) : (s.initialised pm sw).rspValid = s.rspValid := rfl
@[simp] theorem initialised_port (s : State) (pm sw : BitVec 12) : (s.initialised pm sw).port = s.port := rfl
@[simp] theorem initialised_freeDraws (s : State) (pm sw : BitVec 12) : (s.initialised pm sw).freeDraws = s.freeDraws := rfl

/-! ### Presenting a command word -/

@[simp] theorem present_lc (s : State) (w : CommandWord) : (s.present w).lc = s.lc := rfl
@[simp] theorem present_pmemSize (s : State) (w : CommandWord) : (s.present w).pmemSize = s.pmemSize := rfl
@[simp] theorem present_swapSize (s : State) (w : CommandWord) : (s.present w).swapSize = s.swapSize := rfl
@[simp] theorem present_mem (s : State) (w : CommandWord) : (s.present w).mem = s.mem := rfl
@[simp] theorem present_fq (s : State) (w : CommandWord) : (s.present w).fq = s.fq := rfl
@[simp] theorem present_sq (s : State) (w : CommandWord) : (s.present w).sq = s.sq := rfl
@[simp] theorem present_vq (s : State) (w : CommandWord) : (s.present w).vq = s.vq := rfl
@[simp] theorem present_proc (s : State) (w : CommandWord) : (s.present w).proc = s.proc := rfl
@[simp] theorem present_rsp (s : State) (w : CommandWord) : (s.present w).rsp = s.rsp := rfl
@[simp] theorem present_rspValid (s : State) (w : CommandWord) : (s.present w).rspValid = s.rspValid := rfl
@[simp] theorem present_port (s : State) (w : CommandWord) : (s.present w).port = .command w :: s.port := rfl
@[simp] theorem present_freeDraws (s : State) (w : CommandWord) : (s.present w).freeDraws = s.freeDraws := rfl

end Sys2Proof.Machine
end

