-- ==== Sys2Proof/Laws/Paging.lean ====
section
/-!
SUPPORT. How the shared operations act on the consistency of a state (10_state.md R40 to R47): an obtained frame is
held by no one until it is bound to a PTE or becomes a page table.
-/

namespace Sys2Proof.Machine

/-! ### Lists -/

theorem filterMap_update {α β : Type} [DecidableEq α] {l : List α} (hl : l.Nodup) {e : α} (he : e ∈ l)
    {f g : α → Option β} (h : ∀ x ∈ l, x ≠ e → g x = f x) :
    ∃ rest, (l.filterMap f).Perm ((f e).toList ++ rest) ∧ (l.filterMap g).Perm ((g e).toList ++ rest) := by
  have hp : l.Perm (e :: l.erase e) := List.perm_cons_erase he
  have hc : ∀ k : α → Option β, (e :: l.erase e).filterMap k = (k e).toList ++ (l.erase e).filterMap k := by
    intro k; cases hk : k e <;> simp [hk]
  refine ⟨(l.erase e).filterMap f, ?_, ?_⟩
  · rw [← hc]; exact hp.filterMap f
  · have : (l.erase e).filterMap f = (l.erase e).filterMap g := by
      refine List.filterMap_congr fun x hx => ?_
      obtain ⟨hne, hx⟩ := (hl.mem_erase_iff).mp hx
      exact (h x hx hne).symm
    rw [this, ← hc]; exact hp.filterMap g

theorem filterMap_none {α β : Type} {l : List α} {f : α → Option β} (h : ∀ x ∈ l, f x = none) :
    l.filterMap f = [] := by
  rw [List.filterMap_eq_nil_iff]; exact h

/-- The location itself, if its PTE is present. -/
def presentLoc (m : Memories) (loc : PteLocation) : Option PteLocation := if isPresent m loc then some loc else none

theorem filter_isPresent (m : Memories) (l : List PteLocation) :
    l.filter (isPresent m) = l.filterMap (presentLoc m) := by
  rw [← List.filterMap_eq_filter]
  refine List.filterMap_congr fun x _ => ?_
  simp [presentLoc, Option.guard]

/-! ### What a PTE says -/

theorem presentFrame_of_present {m : Memories} {loc : PteLocation} {p : Pfn} {u : Bool}
    (h : pteDecode (m.readPte loc) = .present p u) : presentFrame m loc = some (frameAddr p) := by
  simp [presentFrame, h]

theorem presentFrame_of_swapped {m : Memories} {loc : PteLocation} {x : SlotIndex}
    (h : pteDecode (m.readPte loc) = .swapped x) : presentFrame m loc = none := by
  simp [presentFrame, h]

theorem presentFrame_of_unmapped {m : Memories} {loc : PteLocation}
    (h : pteDecode (m.readPte loc) = .unmapped) : presentFrame m loc = none := by
  simp [presentFrame, h]

theorem swappedSlot_of_present {m : Memories} {loc : PteLocation} {p : Pfn} {u : Bool}
    (h : pteDecode (m.readPte loc) = .present p u) : swappedSlot m loc = none := by
  simp [swappedSlot, h]

theorem swappedSlot_of_swapped {m : Memories} {loc : PteLocation} {x : SlotIndex}
    (h : pteDecode (m.readPte loc) = .swapped x) : swappedSlot m loc = some (slotAddr x) := by
  simp [swappedSlot, h]

theorem swappedSlot_of_unmapped {m : Memories} {loc : PteLocation}
    (h : pteDecode (m.readPte loc) = .unmapped) : swappedSlot m loc = none := by
  simp [swappedSlot, h]

theorem isPresent_of_present {m : Memories} {loc : PteLocation} {p : Pfn} {u : Bool}
    (h : pteDecode (m.readPte loc) = .present p u) : isPresent m loc = true := pteDecode_present_bit h

theorem present_of_isPresent {m : Memories} {loc : PteLocation} (h : isPresent m loc = true) :
    ∃ p u, pteDecode (m.readPte loc) = .present p u := by
  simp only [isPresent] at h
  simp [pteDecode, h]

theorem isPresent_of_swapped {m : Memories} {loc : PteLocation} {x : SlotIndex}
    (h : pteDecode (m.readPte loc) = .swapped x) : isPresent m loc = false := by
  by_contra hc
  obtain ⟨p, u, hp⟩ := present_of_isPresent (by simpa using hc)
  rw [h] at hp; cases hp

theorem isPresent_of_unmapped {m : Memories} {loc : PteLocation}
    (h : pteDecode (m.readPte loc) = .unmapped) : isPresent m loc = false := by
  by_contra hc
  obtain ⟨p, u, hp⟩ := present_of_isPresent (by simpa using hc)
  rw [h] at hp; cases hp

theorem unmapped_of_zero {m : Memories} {loc : PteLocation} (h : m.readPte loc = 0) :
    pteDecode (m.readPte loc) = .unmapped := by rw [h]; rfl

/-- What a PTE says depends on its byte alone. -/
theorem pte_congr {m n : Memories} {loc : PteLocation} (h : n.readPte loc = m.readPte loc) :
    presentFrame n loc = presentFrame m loc ∧ swappedSlot n loc = swappedSlot m loc ∧
      isPresent n loc = isPresent m loc ∧ presentLoc n loc = presentLoc m loc := by
  simp [presentFrame, swappedSlot, presentLoc, isPresent, h]

/-! ### Live locations -/

theorem mem_liveLocs {proc : List ProcRecord} {loc : PteLocation} :
    loc ∈ liveLocs proc ↔ ∃ r ∈ proc, loc ∈ tableLocs r.base := by simp [liveLocs, List.mem_flatMap]

theorem pteLoc_mem_liveLocs {proc : List ProcRecord} {pid : Pid} {b : PhysAddr} (h : procLookup proc pid = some b)
    (v : Vpn) : pteLoc b v ∈ liveLocs proc :=
  mem_liveLocs.mpr ⟨_, procLookup_mem h, pteLoc_mem_tableLocs b v⟩

theorem tableLocs_disjoint {b c : PhysAddr} (hb : b.toNat % 4 = 0) (hc : c.toNat % 4 = 0) (hne : b ≠ c) :
    List.Disjoint (tableLocs b) (tableLocs c) := by
  intro loc h1 h2
  rw [mem_tableLocs] at h1 h2
  exact hne (BitVec.eq_of_toNat_eq (by omega))

theorem liveLocs_nodup {proc : List ProcRecord} (hn : (proc.map (·.base)).Nodup)
    (ha : ∀ b ∈ proc.map (·.base), b.toNat % 4 = 0) : (liveLocs proc).Nodup := by
  rw [liveLocs, List.nodup_flatMap]
  refine ⟨fun r _ => tableLocs_nodup r.base, ?_⟩
  have hn' : proc.Pairwise (fun r q => r.base ≠ q.base) := List.pairwise_map.mp hn
  refine List.Pairwise.imp_of_mem ?_ hn'
  intro r q hr hq hne
  exact tableLocs_disjoint (ha _ (List.mem_map_of_mem hr)) (ha _ (List.mem_map_of_mem hq)) hne

theorem liveLocs_append (proc : List ProcRecord) (r : ProcRecord) :
    liveLocs (proc ++ [r]) = liveLocs proc ++ tableLocs r.base := by simp [liveLocs]

/-! ### Consistency with frames held -/

/-- The invariants of a consistent state, but that the frames of `held` are owned by no one yet. -/
structure PagingHeld (held : List PhysAddr) (s : State) (m : Memories) : Prop where
  pmemSize_le : s.pmemSize.toNat ≤ 256
  swapSize_le : s.swapSize.toNat ≤ 512
  frames : (s.fq ++ presentFrames s m ++ tableFrames s ++ held).Perm (frameInit s.pmemSize.toNat)
  slots : (s.sq ++ swappedSlots s m).Perm (swapInit s.swapSize.toNat)
  victims : s.vq.Perm ((liveLocs s.proc).filter (isPresent m))
  pids : (s.proc.map (·.pid)).Nodup
  userFlag : ∀ loc ∈ liveLocs s.proc, isPresent m loc = true → (m.readPte loc).getLsbD 1 = false
  swappedNoFree : swappedSlots s m ≠ [] → s.fq = []
  deadZero : ∀ loc, loc ∉ liveLocs s.proc → m.readPte loc = 0
  wf : m.wf = true

theorem pagingHeld_nil {s : State} {m : Memories} : PagingHeld [] s m ↔ PagingConsistent s m := by
  constructor
  · rintro ⟨h1, h2, h3, h4, h5, h6, h7, h8, h9, h10⟩
    exact ⟨h1, h2, by simpa using h3, h4, h5, h6, h7, h8, h9, h10⟩
  · rintro ⟨h1, h2, h3, h4, h5, h6, h7, h8, h9, h10⟩
    exact ⟨h1, h2, by simpa using h3, h4, h5, h6, h7, h8, h9, h10⟩

section Held

variable {held : List PhysAddr} {s : State} {m : Memories}

theorem PagingHeld.frames_nodup (h : PagingHeld held s m) :
    (s.fq ++ presentFrames s m ++ tableFrames s ++ held).Nodup :=
  h.frames.nodup_iff.mpr (frameInit_nodup h.pmemSize_le)

theorem PagingHeld.mem_frames (h : PagingHeld held s m) {f : PhysAddr}
    (hf : f ∈ s.fq ++ presentFrames s m ++ tableFrames s ++ held) :
    f.toNat % 4 = 0 ∧ f.toNat / 4 < s.pmemSize.toNat / 4 :=
  (mem_frameInit h.pmemSize_le).mp (h.frames.mem_iff.mp hf)

theorem PagingHeld.bases_nodup (h : PagingHeld held s m) : (s.proc.map (·.base)).Nodup := by
  have := h.frames_nodup
  simp only [List.nodup_append] at this
  exact this.1.2.1

theorem PagingHeld.base_range (h : PagingHeld held s m) {b : PhysAddr} (hb : b ∈ s.proc.map (·.base)) :
    b.toNat % 4 = 0 ∧ b.toNat / 4 < s.pmemSize.toNat / 4 := h.mem_frames (by simp [tableFrames, hb])

theorem PagingHeld.liveLocs_nodup (h : PagingHeld held s m) : (liveLocs s.proc).Nodup :=
  Sys2Proof.Machine.liveLocs_nodup h.bases_nodup fun _ hb => (h.base_range hb).1

theorem PagingHeld.presentFrame_range (h : PagingHeld held s m) {loc : PteLocation} (hl : loc ∈ liveLocs s.proc)
    {f : PhysAddr} (hf : presentFrame m loc = some f) : f.toNat % 4 = 0 ∧ f.toNat / 4 < s.pmemSize.toNat / 4 := by
  apply h.mem_frames
  have : f ∈ presentFrames s m := List.mem_filterMap.mpr ⟨loc, hl, hf⟩
  simp [this]

theorem PagingHeld.slot_range (h : PagingHeld held s m) {a : SwapAddr} (ha : a ∈ s.sq ++ swappedSlots s m) :
    a.toNat % 4 = 0 ∧ 0 < a.toNat ∧ a.toNat / 4 < s.swapSize.toNat / 4 :=
  (mem_swapInit h.swapSize_le).mp (h.slots.mem_iff.mp ha)

theorem PagingHeld.mem_vq (h : PagingHeld held s m) {v : PteLocation} :
    v ∈ s.vq ↔ v ∈ liveLocs s.proc ∧ isPresent m v = true := by
  rw [h.victims.mem_iff, List.mem_filter]

/-- As many victims as present frames. -/
theorem PagingHeld.vq_length (h : PagingHeld held s m) : s.vq.length = (presentFrames s m).length := by
  rw [h.victims.length_eq, filter_isPresent, presentFrames, List.length_filterMap_eq_countP,
    List.length_filterMap_eq_countP]
  refine List.countP_congr fun loc _ => ?_
  unfold presentLoc presentFrame
  cases hd : pteDecode (m.readPte loc) with
  | present p u => simp [isPresent_of_present hd]
  | swapped x => simp [isPresent_of_swapped hd]
  | unmapped => simp [isPresent_of_unmapped hd]

theorem PagingHeld.count (h : PagingHeld held s m) :
    s.fq.length + s.vq.length + s.proc.length + held.length = s.pmemSize.toNat / 4 := by
  have := h.frames.length_eq
  simp only [List.length_append, tableFrames, List.length_map, frameInit_length] at this
  rw [h.vq_length]; omega

theorem PagingHeld.count_slots (h : PagingHeld held s m) :
    s.sq.length + (swappedSlots s m).length = s.swapSize.toNat / 4 - 1 := by
  have := h.slots.length_eq
  simpa using this

/-- A consistent state in which only the response, the port inputs and the free values differ is consistent. -/
theorem PagingHeld.congr {t : State} (h : PagingHeld held s m) (h1 : t.pmemSize = s.pmemSize)
    (h2 : t.swapSize = s.swapSize) (h3 : t.fq = s.fq) (h4 : t.sq = s.sq) (h5 : t.vq = s.vq) (h6 : t.proc = s.proc) :
    PagingHeld held t m := by
  obtain ⟨a1, a2, a3, a4, a5, a6, a7, a8, a9, a10⟩ := h
  constructor
  all_goals first
    | assumption
    | simpa only [presentFrames, swappedSlots, tableFrames, h1, h2, h3, h4, h5, h6]

/-- The head of the free queue, taken, is held. -/
theorem PagingHeld.acquire (h : PagingHeld held s m) {f : PhysAddr} {rest : List PhysAddr} (hf : s.fq = f :: rest) :
    PagingHeld (f :: held) { s with fq := rest } m := by
  refine ⟨h.pmemSize_le, h.swapSize_le, ?_, h.slots, h.victims, h.pids, h.userFlag, ?_, h.deadZero, h.wf⟩
  · refine List.Perm.trans ?_ h.frames
    rw [hf]
    rw [List.perm_iff_count]
    intro x
    simp only [presentFrames, tableFrames, List.count_append, List.count_cons]
    omega
  · intro hs
    have := h.swappedNoFree hs
    rw [hf] at this
    cases this

/-- After an eviction the victim's frame is held. -/
theorem PagingHeld.evict (h : PagingHeld held s m) {v : PteLocation} {vq : List PteLocation} {a : SwapAddr}
    {sq : List SwapAddr} {p : Pfn} {u : Bool} (hfq : s.fq = []) (hv : s.vq = v :: vq) (ha : s.sq = a :: sq)
    (hp : pteDecode (m.readPte v) = .present p u) :
    PagingHeld (frameAddr p :: held) { s with vq := vq, sq := sq, mem := some (evictedMemories v p a m) }
      (evictedMemories v p a m) := by
  have hvl : v ∈ liveLocs s.proc := (h.mem_vq.mp (by simp [hv])).1
  have har := h.slot_range (a := a) (by simp [ha])
  have hslot : slotIdx a ≠ 0 := by
    intro hz
    have := slotIdx_toNat a
    rw [hz, show (0 : SlotIndex).toNat = 0 from rfl] at this
    omega
  have hread := evictedMemories_readPte v p a h.wf
  have hdec : pteDecode ((evictedMemories v p a m).readPte v) = .swapped (slotIdx a) := by
    rw [hread, if_pos rfl, pteDecode_encSwapped hslot]
  have hother : ∀ x ∈ liveLocs s.proc, x ≠ v → (evictedMemories v p a m).readPte x = m.readPte x := by
    intro x _ hx; rw [hread, if_neg hx]
  obtain ⟨r1, pf, pf'⟩ := filterMap_update h.liveLocs_nodup hvl fun x hx hne => (pte_congr (hother x hx hne)).1
  obtain ⟨r2, ss, ss'⟩ := filterMap_update h.liveLocs_nodup hvl fun x hx hne => (pte_congr (hother x hx hne)).2.1
  obtain ⟨r3, vl, vl'⟩ := filterMap_update h.liveLocs_nodup hvl fun x hx hne => (pte_congr (hother x hx hne)).2.2.2
  rw [presentFrame_of_present hp] at pf
  rw [presentFrame_of_swapped hdec] at pf'
  rw [swappedSlot_of_present hp] at ss
  rw [swappedSlot_of_swapped hdec, slotAddr_slotIdx har.1] at ss'
  rw [presentLoc, if_pos (isPresent_of_present hp)] at vl
  rw [presentLoc, isPresent_of_swapped hdec] at vl'
  simp only [Option.toList, List.nil_append, Bool.false_eq_true, if_false] at pf pf' ss ss' vl vl'
  refine ⟨h.pmemSize_le, h.swapSize_le, ?_, ?_, ?_, h.pids, ?_, fun _ => hfq, ?_, evictedMemories_wf v p a h.wf⟩
  · refine List.Perm.trans ?_ h.frames
    rw [List.perm_iff_count]
    intro x
    have e1 := pf.count_eq x
    have e2 := pf'.count_eq x
    simp only [presentFrames, tableFrames, List.count_append, List.count_cons, List.count_nil] at e1 e2 ⊢
    omega
  · refine List.Perm.trans ?_ h.slots
    rw [List.perm_iff_count]
    intro x
    have e1 := ss.count_eq x
    have e2 := ss'.count_eq x
    rw [ha]
    simp only [swappedSlots, List.count_append, List.count_cons, List.count_nil] at e1 e2 ⊢
    omega
  · have hvic := h.victims
    rw [filter_isPresent] at hvic ⊢
    rw [hv] at hvic
    rw [List.perm_iff_count]
    intro x
    have e1 := vl.count_eq x
    have e2 := vl'.count_eq x
    have e3 := hvic.count_eq x
    simp only [List.count_append, List.count_cons, List.count_nil] at e1 e2 e3 ⊢
    omega
  · intro x hx hpres
    by_cases hxv : x = v
    · subst hxv; rw [isPresent_of_swapped hdec] at hpres; cases hpres
    · rw [hother x hx hxv]
      exact h.userFlag x hx ((pte_congr (hother x hx hxv)).2.2.1 ▸ hpres)
  · intro x hx
    have hxv : x ≠ v := by rintro rfl; exact hx hvl
    rw [hread, if_neg hxv]
    exact h.deadZero x hx

/-- A held frame, bound to an unmapped live location, is owned by its PTE. -/
theorem PagingHeld.bind {f : PhysAddr} (h : PagingHeld (f :: held) s m) {e : PteLocation}
    (he : e ∈ liveLocs s.proc) (hu : pteDecode (m.readPte e) = .unmapped) :
    PagingHeld held { s with mem := some (boundMemories e f m), vq := s.vq ++ [e] } (boundMemories e f m) := by
  have hfr := h.mem_frames (f := f) (by simp)
  have hread := boundMemories_readPte e f h.wf
  have hdec : pteDecode ((boundMemories e f m).readPte e) = .present (pfnOf f) false := by
    rw [hread, if_pos rfl, pteDecode_encPresent]
  have hother : ∀ x ∈ liveLocs s.proc, x ≠ e → (boundMemories e f m).readPte x = m.readPte x := by
    intro x _ hx; rw [hread, if_neg hx]
  obtain ⟨r1, pf, pf'⟩ := filterMap_update h.liveLocs_nodup he fun x hx hne => (pte_congr (hother x hx hne)).1
  obtain ⟨r2, ss, ss'⟩ := filterMap_update h.liveLocs_nodup he fun x hx hne => (pte_congr (hother x hx hne)).2.1
  obtain ⟨r3, vl, vl'⟩ := filterMap_update h.liveLocs_nodup he fun x hx hne => (pte_congr (hother x hx hne)).2.2.2
  rw [presentFrame_of_unmapped hu] at pf
  rw [presentFrame_of_present hdec, frameAddr_pfnOf hfr.1] at pf'
  rw [swappedSlot_of_unmapped hu] at ss
  rw [swappedSlot_of_present hdec] at ss'
  rw [presentLoc, isPresent_of_unmapped hu] at vl
  rw [presentLoc, if_pos (isPresent_of_present hdec)] at vl'
  simp only [Option.toList, List.nil_append, Bool.false_eq_true, if_false] at pf pf' ss ss' vl vl'
  have hss : (swappedSlots { s with mem := some (boundMemories e f m), vq := s.vq ++ [e] } (boundMemories e f m)).Perm
      (swappedSlots s m) := ss'.trans ss.symm
  refine ⟨h.pmemSize_le, h.swapSize_le, ?_, ?_, ?_, h.pids, ?_, fun hne => ?_, ?_, boundMemories_wf e f h.wf⟩
  · refine List.Perm.trans ?_ h.frames
    rw [List.perm_iff_count]
    intro x
    have e1 := pf.count_eq x
    have e2 := pf'.count_eq x
    simp only [presentFrames, tableFrames, List.count_append, List.count_cons, List.count_nil] at e1 e2 ⊢
    omega
  · exact (List.Perm.append_left _ hss).trans h.slots
  · have hvic := h.victims
    rw [filter_isPresent] at hvic ⊢
    rw [List.perm_iff_count]
    intro x
    have e1 := vl.count_eq x
    have e2 := vl'.count_eq x
    have e3 := hvic.count_eq x
    simp only [List.count_append, List.count_cons, List.count_nil] at e1 e2 e3 ⊢
    omega
  · intro x hx hpres
    by_cases hxe : x = e
    · subst hxe; rw [hread, if_pos rfl, pteEncPresent_bit1]
    · rw [hother x hx hxe]
      exact h.userFlag x hx ((pte_congr (hother x hx hxe)).2.2.1 ▸ hpres)
  · refine h.swappedNoFree fun h0 => hne ?_
    rw [h0] at hss
    exact hss.eq_nil
  · intro x hx
    have hxe : x ≠ e := by rintro rfl; exact hx he
    rw [hread, if_neg hxe]
    exact h.deadZero x hx

/-- A held frame, given to a new process, is its page-table base. -/
theorem PagingHeld.addProcess {f : PhysAddr} (h : PagingHeld (f :: held) s m) {pid : Pid}
    (hpid : procLookup s.proc pid = none) :
    PagingHeld held { s with mem := some (zeroTable f m), proc := s.proc ++ [⟨pid, f⟩] } (zeroTable f m) := by
  have hfr := h.mem_frames (f := f) (by simp)
  have hnd := h.frames_nodup
  have hfnew : f ∉ s.proc.map (·.base) := by
    intro hmem
    simp only [List.nodup_append, tableFrames] at hnd
    exact hnd.2.2 f (by simp only [List.mem_append]; exact Or.inr hmem) f (by simp) rfl
  have hread := zeroTable_readPte f h.wf
  have hold : ∀ x ∈ liveLocs s.proc, (zeroTable f m).readPte x = m.readPte x := by
    intro x hx
    rw [hread, if_neg]
    intro hxf
    obtain ⟨r, hr, hxr⟩ := mem_liveLocs.mp hx
    have hrb : r.base ∈ s.proc.map (·.base) := List.mem_map_of_mem hr
    refine tableLocs_disjoint (h.base_range hrb).1 hfr.1 ?_ hxr hxf
    intro heq
    exact hfnew (heq ▸ hrb)
  have hnew : ∀ x ∈ tableLocs f, pteDecode ((zeroTable f m).readPte x) = .unmapped := by
    intro x hx; apply unmapped_of_zero; rw [hread, if_pos hx]
  have hPF : (liveLocs (s.proc ++ [⟨pid, f⟩])).filterMap (presentFrame (zeroTable f m)) = presentFrames s m := by
    rw [liveLocs_append, List.filterMap_append, filterMap_none fun x hx => presentFrame_of_unmapped (hnew x hx),
      List.append_nil]
    exact List.filterMap_congr fun x hx => (pte_congr (hold x hx)).1
  have hSS : (liveLocs (s.proc ++ [⟨pid, f⟩])).filterMap (swappedSlot (zeroTable f m)) = swappedSlots s m := by
    rw [liveLocs_append, List.filterMap_append, filterMap_none fun x hx => swappedSlot_of_unmapped (hnew x hx),
      List.append_nil]
    exact List.filterMap_congr fun x hx => (pte_congr (hold x hx)).2.1
  have hVL : (liveLocs (s.proc ++ [⟨pid, f⟩])).filter (isPresent (zeroTable f m)) =
      (liveLocs s.proc).filter (isPresent m) := by
    rw [liveLocs_append, List.filter_append]
    have hnil : (tableLocs f).filter (isPresent (zeroTable f m)) = [] :=
      List.filter_eq_nil_iff.mpr fun x hx => by simp [isPresent_of_unmapped (hnew x hx)]
    rw [hnil, List.append_nil]
    exact List.filter_congr fun x hx => (pte_congr (hold x hx)).2.2.1
  refine ⟨h.pmemSize_le, h.swapSize_le, ?_, ?_, ?_, ?_, ?_, ?_, ?_, zeroTable_wf f h.wf⟩
  · refine List.Perm.trans ?_ h.frames
    simp only [presentFrames, tableFrames, hPF, List.map_append, List.map_cons, List.map_nil]
    rw [List.perm_iff_count]
    intro x
    simp only [List.count_append, List.count_cons, List.count_nil]
    omega
  · simp only [swappedSlots, hSS]; exact h.slots
  · simp only [hVL]; exact h.victims
  · simp only [List.map_append, List.map_cons, List.map_nil]
    rw [List.nodup_append]
    refine ⟨h.pids, by simp, ?_⟩
    intro x hx y hy
    simp only [List.mem_singleton] at hy
    subst hy
    rintro rfl
    exact procLookup_none.mp hpid hx
  · intro x hx hpres
    rw [liveLocs_append, List.mem_append] at hx
    rcases hx with hx | hx
    · rw [hold x hx]
      exact h.userFlag x hx ((pte_congr (hold x hx)).2.2.1 ▸ hpres)
    · rw [isPresent_of_unmapped (hnew x hx)] at hpres; cases hpres
  · simp only [swappedSlots, hSS]; exact h.swappedNoFree
  · intro x hx
    rw [liveLocs_append, List.mem_append, not_or] at hx
    rw [hread, if_neg hx.2]
    exact h.deadZero x hx.1

/-- A swap-in exchanges the owners of a frame and a slot. -/
theorem PagingHeld.swapIn (h : PagingHeld held s m) {e v : PteLocation} {vq : List PteLocation} {p : Pfn} {u : Bool}
    {x : SlotIndex} (he : e ∈ liveLocs s.proc) (hx : pteDecode (m.readPte e) = .swapped x) (hv : s.vq = v :: vq)
    (hp : pteDecode (m.readPte v) = .present p u) :
    PagingHeld held { s with vq := vq ++ [e], mem := some (swappedInMemories e v p x m) }
      (swappedInMemories e v p x m) := by
  have hvl : v ∈ liveLocs s.proc := (h.mem_vq.mp (by simp [hv])).1
  have hev : e ≠ v := by rintro rfl; rw [hx] at hp; cases hp
  have hread := swappedInMemories_readPte e v p x h.wf
  have hde : pteDecode ((swappedInMemories e v p x m).readPte e) = .present p false := by
    rw [hread, if_pos rfl, pteDecode_encPresent]
  have hdv : pteDecode ((swappedInMemories e v p x m).readPte v) = .swapped x := by
    rw [hread, if_neg hev.symm, if_pos rfl, pteDecode_encSwapped (pteDecode_swapped_ne_zero hx)]
  -- the memories between the two changes: the victim already swapped, `e` not yet present
  let n : Memories := m.writePte v (pteEncSwapped x)
  have hn : ∀ y, n.readPte y = if y = v then pteEncSwapped x else m.readPte y :=
    fun y => Memories.readPte_writePte h.wf v _ y
  have hnv : pteDecode (n.readPte v) = .swapped x := by
    rw [hn, if_pos rfl, pteDecode_encSwapped (pteDecode_swapped_ne_zero hx)]
  have hne : pteDecode (n.readPte e) = .swapped x := by rw [hn, if_neg hev, hx]
  have h1 : ∀ y ∈ liveLocs s.proc, y ≠ v → n.readPte y = m.readPte y := fun y _ hy => by rw [hn, if_neg hy]
  have h2 : ∀ y ∈ liveLocs s.proc, y ≠ e → (swappedInMemories e v p x m).readPte y = n.readPte y :=
    fun y _ hy => by rw [hread, hn, if_neg hy]
  have hnd := h.liveLocs_nodup
  obtain ⟨r1, pf1, pf2⟩ := filterMap_update hnd hvl fun y hy hne => (pte_congr (h1 y hy hne)).1
  obtain ⟨r2, pf3, pf4⟩ := filterMap_update hnd he fun y hy hne => (pte_congr (h2 y hy hne)).1
  obtain ⟨r3, ss1, ss2⟩ := filterMap_update hnd hvl fun y hy hne => (pte_congr (h1 y hy hne)).2.1
  obtain ⟨r4, ss3, ss4⟩ := filterMap_update hnd he fun y hy hne => (pte_congr (h2 y hy hne)).2.1
  obtain ⟨r5, vl1, vl2⟩ := filterMap_update hnd hvl fun y hy hne => (pte_congr (h1 y hy hne)).2.2.2
  obtain ⟨r6, vl3, vl4⟩ := filterMap_update hnd he fun y hy hne => (pte_congr (h2 y hy hne)).2.2.2
  rw [presentFrame_of_present hp] at pf1
  rw [presentFrame_of_swapped hnv] at pf2
  rw [presentFrame_of_swapped hne] at pf3
  rw [presentFrame_of_present hde] at pf4
  rw [swappedSlot_of_present hp] at ss1
  rw [swappedSlot_of_swapped hnv] at ss2
  rw [swappedSlot_of_swapped hne] at ss3
  rw [swappedSlot_of_present hde] at ss4
  rw [presentLoc, if_pos (isPresent_of_present hp)] at vl1
  rw [presentLoc, isPresent_of_swapped hnv] at vl2
  rw [presentLoc, isPresent_of_swapped hne] at vl3
  rw [presentLoc, if_pos (isPresent_of_present hde)] at vl4
  simp only [Option.toList, List.nil_append, Bool.false_eq_true, if_false] at pf1 pf2 pf3 pf4 ss1 ss2 ss3 ss4 vl1 vl2 vl3 vl4
  refine ⟨h.pmemSize_le, h.swapSize_le, ?_, ?_, ?_, h.pids, ?_, fun _ => h.swappedNoFree ?_, ?_,
    swappedInMemories_wf e v p x h.wf⟩
  · refine List.Perm.trans ?_ h.frames
    rw [List.perm_iff_count]
    intro y
    have e1 := pf1.count_eq y
    have e2 := pf2.count_eq y
    have e3 := pf3.count_eq y
    have e4 := pf4.count_eq y
    simp only [presentFrames, tableFrames, List.count_append, List.count_cons, List.count_nil] at e1 e2 e3 e4 ⊢
    omega
  · refine List.Perm.trans ?_ h.slots
    rw [List.perm_iff_count]
    intro y
    have e1 := ss1.count_eq y
    have e2 := ss2.count_eq y
    have e3 := ss3.count_eq y
    have e4 := ss4.count_eq y
    simp only [swappedSlots, List.count_append, List.count_cons, List.count_nil] at e1 e2 e3 e4 ⊢
    omega
  · have hvic := h.victims
    rw [filter_isPresent] at hvic ⊢
    rw [hv] at hvic
    rw [List.perm_iff_count]
    intro y
    have e1 := vl1.count_eq y
    have e2 := vl2.count_eq y
    have e3 := vl3.count_eq y
    have e4 := vl4.count_eq y
    have e5 := hvic.count_eq y
    simp only [List.count_append, List.count_cons, List.count_nil] at e1 e2 e3 e4 e5 ⊢
    omega
  · intro y hy hpres
    by_cases hye : y = e
    · subst hye; rw [hread, if_pos rfl, pteEncPresent_bit1]
    · by_cases hyv : y = v
      · subst hyv; rw [isPresent_of_swapped hdv] at hpres; cases hpres
      · have hsame : (swappedInMemories e v p x m).readPte y = m.readPte y := by
          rw [hread, if_neg hye, if_neg hyv]
        rw [hsame]
        exact h.userFlag y hy ((pte_congr hsame).2.2.1 ▸ hpres)
  · intro h0
    have : slotAddr x ∈ swappedSlots s m := List.mem_filterMap.mpr ⟨e, he, swappedSlot_of_swapped hx⟩
    rw [h0] at this
    cases this
  · intro y hy
    have hye : y ≠ e := by rintro rfl; exact hy he
    have hyv : y ≠ v := by rintro rfl; exact hy hvl
    rw [hread, if_neg hye, if_neg hyv]
    exact h.deadZero y hy

end Held

end Sys2Proof.Machine
end

