-- ==== Sys2Proof/Laws/Exec.lean ====
section
/-!
SUPPORT. What a command can do, said once: each next state of exec is one of eight effects, of a command that has it.
Below it, what one step does with each port input.
-/

namespace Sys2Proof.Machine

/-- The effects a command has on the state it runs in, each with the commands that have it. -/
inductive Effect (s : State) : Instr → State → Prop
  /-- Only the response is written. -/
  | response (i : Instr) (st : Status) (v : BitVec 12) (h : st ≠ .noCapacity) (hv : st = .ok ∨ v = 0) :
      Effect s i (s.answer st v)
  /-- No frame can be had. -/
  | failed (i : Instr) (hi : (∃ pid, i = .admitProc pid) ∨ ∃ pid va, i = .resolve pid va) (hr : s.lc = .ready) :
      Effect s i ({ s with lc := .failed }.answer .noCapacity 0)
  /-- `INIT` builds the paging state. -/
  | initialised (pm sw : BitVec 12) (hu : s.lc = .uninit) (hpm : pm.toNat ≤ 256) (hsw : sw.toNat ≤ 512) :
      Effect s (.init pm sw) ((s.initialised pm sw).answer .ok 0)
  /-- `TEARDOWN` clears the paging state. -/
  | cleared : Effect s .teardown (s.cleared.answer .ok 0)
  /-- `MEMWR` stores a byte. -/
  | stored (m : Memories) (pa : PhysAddr) (data : Byte) (hr : s.lc = .ready) (hm : s.mem = some m)
      (hpa : pa.toNat < s.pmemSize.toNat) :
      Effect s (.memwr pa data) ({ s with mem := some (m.writePmem pa data) }.answer .ok 0)
  /-- `ADMIT` creates a process. -/
  | admitted (pid : Pid) (f : PhysAddr) (s1 s2 : State) (hr : s.lc = .ready) (hn : procLookup s.proc pid = none)
      (ho : obtainFrame s = .frame f s1) (ha : addProcess pid f s1 = .ok s2) :
      Effect s (.admitProc pid) (s2.answer .ok (f.setWidth 12))
  /-- `RESOLVE` binds an unmapped page. -/
  | bound (pid : Pid) (va : VirtAddr) (b : PhysAddr) (m : Memories) (f : PhysAddr) (s1 s2 : State)
      (hr : s.lc = .ready) (hb : procLookup s.proc pid = some b) (hm : s.mem = some m)
      (hu : pteDecode (m.readPte (pteLoc b (vpnOfVa va))) = .unmapped) (ho : obtainFrame s = .frame f s1)
      (hbind : bindFrame (pteLoc b (vpnOfVa va)) f s1 = .ok s2) : Effect s (.resolve pid va) (s2.answer .ok 0)
  /-- `RESOLVE` swaps a page in. -/
  | swappedIn (pid : Pid) (va : VirtAddr) (b : PhysAddr) (m : Memories) (x : SlotIndex) (w : PteLocation)
      (vq : List PteLocation) (s2 : State) (hr : s.lc = .ready) (hb : procLookup s.proc pid = some b)
      (hm : s.mem = some m) (hx : pteDecode (m.readPte (pteLoc b (vpnOfVa va))) = .swapped x) (hv : s.vq = w :: vq)
      (hi : swapIn (pteLoc b (vpnOfVa va)) x w { s with vq := vq } = .ok s2) :
      Effect s (.resolve pid va) (s2.answer .ok 0)

theorem Effect.refused (s : State) (i : Instr) : Effect s i (s.answer .refused 0) :=
  .response _ _ _ (by decide) (.inr rfl)

theorem Effect.okay (s : State) (i : Instr) (v : BitVec 12) : Effect s i (s.answer .ok v) :=
  .response _ _ _ (by decide) (.inl rfl)

/-- Elsewhere than in `READY` the response is `REFUSED`; in `READY` the effect is the body's. -/
theorem whenReady_effect {s t : State} {i : Instr} {body : Out} (h : whenReady s body = .next t)
    (hb : s.lc = .ready → body = .next t → Effect s i t) : Effect s i t := by
  rcases whenReady_next.mp h with ⟨hr, h⟩ | ⟨_, rfl⟩
  · exact hb hr h
  · exact Effect.refused s i

theorem execAdmit_effect {pid : Pid} {s t : State} (h : execAdmit pid s = .next t) : Effect s (.admitProc pid) t := by
  refine whenReady_effect h fun hr h => ?_
  split at h
  · cases h; exact Effect.okay _ _ _
  · rename_i hn
    unfold admitNew at h
    split at h
    · cases h; exact .failed _ (.inl ⟨pid, rfl⟩) hr
    · cases h
    · rename_i f s1 ho
      obtain ⟨s2, ha, h⟩ := orBreak_next.mp h
      cases h
      exact .admitted pid f s1 s2 hr hn ho ha

theorem execResolve_effect {pid : Pid} {va : VirtAddr} {s t : State} (h : execResolve pid va s = .next t) :
    Effect s (.resolve pid va) t := by
  refine whenReady_effect h fun hr h => ?_
  split at h
  · cases h; exact .response _ _ _ (by decide) (.inr rfl)
  · rename_i b hb
    obtain ⟨m, hm, h⟩ := withMemories_next.mp h
    split at h
    · cases h; exact Effect.okay _ _ _
    · rename_i hu
      unfold resolveUnmapped at h
      split at h
      · cases h; exact .failed _ (.inr ⟨pid, va, rfl⟩) hr
      · cases h
      · rename_i f s1 ho
        obtain ⟨s2, hbind, h⟩ := orBreak_next.mp h
        cases h
        exact .bound pid va b m f s1 s2 hr hb hm hu ho hbind
    · rename_i x hx
      unfold resolveSwapped victimSelect at h
      cases hv : s.vq with
      | nil => simp only [hv] at h; cases h; exact .failed _ (.inr ⟨pid, va, rfl⟩) hr
      | cons w vq =>
        simp only [hv] at h
        obtain ⟨s2, hi, h⟩ := orBreak_next.mp h
        cases h
        exact .swappedIn pid va b m x w vq s2 hr hb hm hx hv hi

/-- What exec can do. -/
theorem exec_effect {i : Instr} {s t : State} (h : exec i s = .next t) : Effect s i t := by
  cases i with
  | init pm sw =>
    simp only [exec, execInit, whenUninit] at h
    split at h
    · rename_i hu
      split at h
      · cases h; exact .response _ _ _ (by decide) (.inr rfl)
      · rename_i hc
        cases h
        rw [Config.pmemCap, Config.swapCap] at hc
        exact .initialised pm sw hu (by omega) (by omega)
    · cases h; exact Effect.refused s _
  | admitProc pid => exact execAdmit_effect h
  | lookup pid =>
    refine whenReady_effect h fun _ h => ?_
    split at h <;> cases h <;> first | exact Effect.okay _ _ _ | exact .response _ _ _ (by decide) (.inr rfl)
  | translate base va =>
    refine whenReady_effect h fun _ h => ?_
    split at h
    · obtain ⟨m, _, h⟩ := withMemories_next.mp h
      split at h <;> cases h <;> first | exact Effect.okay _ _ _ | exact .response _ _ _ (by decide) (.inr rfl)
    · cases h; exact Effect.refused s _
  | resolve pid va => exact execResolve_effect h
  | memrd pa =>
    refine whenReady_effect h fun _ h => ?_
    split at h
    · cases h; exact Effect.refused s _
    · obtain ⟨m, _, h⟩ := withMemories_next.mp h
      cases h; exact Effect.okay _ _ _
  | memwr pa data =>
    refine whenReady_effect h fun hr h => ?_
    split at h
    · cases h; exact Effect.refused s _
    · rename_i hpa
      obtain ⟨m, hm, h⟩ := withMemories_next.mp h
      cases h; exact .stored m pa data hr hm (by omega)
  | swrd sa =>
    refine whenReady_effect h fun _ h => ?_
    split at h
    · cases h; exact Effect.refused s _
    · obtain ⟨m, _, h⟩ := withMemories_next.mp h
      cases h; exact Effect.okay _ _ _
  | pterd base vpn =>
    refine whenReady_effect h fun _ h => ?_
    split at h
    · obtain ⟨m, _, h⟩ := withMemories_next.mp h
      cases h; exact Effect.okay _ _ _
    · cases h; exact Effect.refused s _
  | csrrd n =>
    simp only [exec, execCsrrd] at h
    split at h
    · cases h; exact Effect.refused s _
    · obtain ⟨v, _, h⟩ := orBreak_next.mp h
      cases h; exact Effect.okay _ _ _
  | teardown => cases h; exact .cleared

/-! ### Port inputs -/

theorem step_nil {s : State} (h : s.port = []) : step s = .next s.quiet := by simp [step, portStep, h]

theorem step_cons {s : State} {x : PortInput} {rest : List PortInput} (h : s.port = x :: rest) :
    step s = takeInput exec x { s with port := rest } := by simp [step, portStep, h]

@[simp] theorem takeInput_idle (meaning : Instr → State → Out) (s : State) :
    takeInput meaning .idle s = .next s.quiet := rfl
@[simp] theorem takeInput_notReady (meaning : Instr → State → Out) (w : CommandWord) (s : State) :
    takeInput meaning (.notReady w) s = .next s.quiet := rfl
@[simp] theorem takeInput_reset (meaning : Instr → State → Out) (w : Option CommandWord) (s : State) :
    takeInput meaning (.reset w) s = .next s.powerOnReset := rfl
@[simp] theorem takeInput_command (meaning : Instr → State → Out) (w : CommandWord) (s : State) :
    takeInput meaning (.command w) s = runWord meaning w s := rfl

theorem runWord_ok {meaning : Instr → State → Out} {w : CommandWord} {i : Instr} (h : decode w = .ok i) (s : State) :
    runWord meaning w s = meaning i s := by simp [runWord, h]

theorem runWord_error {meaning : Instr → State → Out} {w : CommandWord} {e : Malformed} (h : decode w = .error e)
    (s : State) : runWord meaning w s = .next (s.answer .refused 0) := by simp [runWord, h, refuse, respond]

/-- A taken word has a command's effect, or is malformed. -/
theorem runWord_effect {w : CommandWord} {s t : State} (h : runWord exec w s = .next t) :
    ∃ i, Effect s i t ∧ (decode w = .ok i ∨ ((∃ e, decode w = .error e) ∧ t = s.answer .refused 0)) := by
  cases hd : decode w with
  | error e =>
    rw [runWord_error hd] at h
    cases h
    exact ⟨.teardown, Effect.refused s _, .inr ⟨⟨e, rfl⟩, rfl⟩⟩
  | ok i => rw [runWord_ok hd] at h; exact ⟨i, exec_effect h, .inl rfl⟩

end Sys2Proof.Machine
end

