-- ==== Sys2Proof/WellFormed.lean ====
section
/-!
DEFINITION. When the fields of a command word are a legal command: the malformed check of 30_encoding.md R97 over the
operand table of R94, written apart from the decoder (Decode.lean), which a law proves to agree with it.
-/

namespace Sys2Proof

/-- How many low bits of `A` and of `B` the command of an opcode uses (30_encoding.md R94; 0 where the field must be
0); `none` for a reserved opcode. -/
def operandBits (op : BitVec 4) : Option (Nat × Nat) :=
  match op.toNat with
  | 0x1 => some (12, 12)
  | 0x2 => some (8, 0)
  | 0x3 => some (8, 0)
  | 0x4 => some (8, 8)
  | 0x5 => some (8, 8)
  | 0x6 => some (8, 0)
  | 0x7 => some (8, 8)
  | 0x8 => some (9, 0)
  | 0x9 => some (8, 6)
  | 0xA => some (8, 0)
  | 0xF => some (0, 0)
  | _ => none

/-- The malformed check (30_encoding.md R97): the first of its reasons that holds, `none` for a legal command. -/
def CommandFields.malformed (f : CommandFields) : Option Malformed :=
  if f.rsv ≠ 0 then some .reservedField
  else match operandBits f.op with
    | none => some .reservedOpcode
    | some (na, nb) =>
      if f.a >>> na ≠ 0 then some .operandA
      else if f.b >>> nb ≠ 0 then some .operandB
      else none

/-- The fields a command is written with (30_encoding.md R93, R94): each operand in the low bits of its field. -/
def Instr.fields : Instr → CommandFields
  | .init pm sw => ⟨0x1, 0, pm, sw⟩
  | .admitProc pid => ⟨0x2, 0, pid.setWidth 12, 0⟩
  | .lookup pid => ⟨0x3, 0, pid.setWidth 12, 0⟩
  | .translate base va => ⟨0x4, 0, base.setWidth 12, va.setWidth 12⟩
  | .resolve pid va => ⟨0x5, 0, pid.setWidth 12, va.setWidth 12⟩
  | .memrd pa => ⟨0x6, 0, pa.setWidth 12, 0⟩
  | .memwr pa data => ⟨0x7, 0, pa.setWidth 12, data.setWidth 12⟩
  | .swrd sa => ⟨0x8, 0, sa.setWidth 12, 0⟩
  | .pterd base vpn => ⟨0x9, 0, base.setWidth 12, vpn.setWidth 12⟩
  | .csrrd n => ⟨0xA, 0, n.setWidth 12, 0⟩
  | .teardown => ⟨0xF, 0, 0, 0⟩

/-- A command is well formed when its fields pass the malformed check. The operand widths of `Instr` make this hold
of every command (Laws/PerInstr.lean). -/
def Instr.wellFormed (i : Instr) : Bool := i.fields.malformed.isNone

end Sys2Proof
end

