-- ==== Sys2Proof/Laws/PerInstr.lean ====
section
/-!
SUPPORT. The per-command law FieldsWellFormed: the fields a command is written with pass the malformed check of
30_encoding.md R97.
-/

namespace Sys2Proof.Laws

theorem setWidth_shift_eq_zero {n : Nat} (x : BitVec n) (h : n ≤ 12) : x.setWidth 12 >>> n = 0 := by
  apply BitVec.eq_of_toNat_eq
  have hx := x.isLt
  have : x.toNat < 2 ^ 12 := Nat.lt_of_lt_of_le hx (Nat.pow_le_pow_right (by decide) h)
  simp only [BitVec.toNat_ushiftRight, BitVec.toNat_setWidth, Nat.mod_eq_of_lt this, Nat.shiftRight_eq_div_pow]
  rw [Nat.div_eq_of_lt hx]
  rfl

theorem shift_twelve (x : BitVec 12) : x >>> 12 = 0 := by
  have h := setWidth_shift_eq_zero x (Nat.le_refl 12)
  rwa [BitVec.setWidth_eq] at h

/-- The command's fields pass the malformed check. -/
def FieldsWellFormed.Statement (i : Instr) : Prop := i.wellFormed = true

/-- A command's fields pass the check when its operands fit their fields. -/
theorem wellFormed_of {i : Instr} {na nb : Nat} (hr : i.fields.rsv = 0) (ho : operandBits i.fields.op = some (na, nb))
    (ha : i.fields.a >>> na = 0) (hb : i.fields.b >>> nb = 0) : FieldsWellFormed.Statement i := by
  simp [FieldsWellFormed.Statement, Instr.wellFormed, CommandFields.malformed, hr, ho, ha, hb]

theorem FieldsWellFormed.init (pm sw : BitVec 12) : FieldsWellFormed.Statement (.init pm sw) :=
  wellFormed_of rfl rfl (shift_twelve pm) (shift_twelve sw)

theorem FieldsWellFormed.admitProc (pid : Pid) : FieldsWellFormed.Statement (.admitProc pid) :=
  wellFormed_of rfl rfl (setWidth_shift_eq_zero pid (by decide)) rfl

theorem FieldsWellFormed.lookup (pid : Pid) : FieldsWellFormed.Statement (.lookup pid) :=
  wellFormed_of rfl rfl (setWidth_shift_eq_zero pid (by decide)) rfl

theorem FieldsWellFormed.translate (base : PhysAddr) (va : VirtAddr) :
    FieldsWellFormed.Statement (.translate base va) :=
  wellFormed_of rfl rfl (setWidth_shift_eq_zero base (by decide)) (setWidth_shift_eq_zero va (by decide))

theorem FieldsWellFormed.resolve (pid : Pid) (va : VirtAddr) : FieldsWellFormed.Statement (.resolve pid va) :=
  wellFormed_of rfl rfl (setWidth_shift_eq_zero pid (by decide)) (setWidth_shift_eq_zero va (by decide))

theorem FieldsWellFormed.memrd (pa : PhysAddr) : FieldsWellFormed.Statement (.memrd pa) :=
  wellFormed_of rfl rfl (setWidth_shift_eq_zero pa (by decide)) rfl

theorem FieldsWellFormed.memwr (pa : PhysAddr) (data : Byte) : FieldsWellFormed.Statement (.memwr pa data) :=
  wellFormed_of rfl rfl (setWidth_shift_eq_zero pa (by decide)) (setWidth_shift_eq_zero data (by decide))

theorem FieldsWellFormed.swrd (sa : SwapAddr) : FieldsWellFormed.Statement (.swrd sa) :=
  wellFormed_of rfl rfl (setWidth_shift_eq_zero sa (by decide)) rfl

theorem FieldsWellFormed.pterd (base : PhysAddr) (vpn : Vpn) : FieldsWellFormed.Statement (.pterd base vpn) :=
  wellFormed_of rfl rfl (setWidth_shift_eq_zero base (by decide)) (setWidth_shift_eq_zero vpn (by decide))

theorem FieldsWellFormed.csrrd (n : BitVec 8) : FieldsWellFormed.Statement (.csrrd n) :=
  wellFormed_of rfl rfl (setWidth_shift_eq_zero n (by decide)) rfl

theorem FieldsWellFormed.teardown : FieldsWellFormed.Statement .teardown := wellFormed_of rfl rfl rfl rfl

end Sys2Proof.Laws
end

