-- ==== Sys2Proof/Tests/Slice0.lean ====
section
/-!
SUPPORT. Tests: the WellFormed smoke tests, words written out bit by bit, one step of each command, and for each
statement with hypotheses a witness that meets them. Expected values come from spec/95_test_vectors.md (the program and
step, or the vector, is named at each), or from the example in the command's rule.
-/

namespace Sys2Proof.Tests

open Sys2Proof.Machine

/-! ### The WellFormed checks refuse ill-formed fields (30_encoding.md R97) -/

/-- V83: `rsv` is not 0. -/
theorem test_malformed_reserved_field : (⟨0x2, 0x1, 0x001, 0⟩ : CommandFields).malformed = some .reservedField := by decide
/-- V82: opcodes 0xB and 0xE are reserved. -/
theorem test_malformed_reserved_opcode : (⟨0xB, 0, 0, 0⟩ : CommandFields).malformed = some .reservedOpcode ∧
    (⟨0xE, 0, 0, 0⟩ : CommandFields).malformed = some .reservedOpcode := by decide
/-- V84, V88: unused bits of `A` are not 0. -/
theorem test_malformed_operand_a : (⟨0x2, 0, 0x100, 0⟩ : CommandFields).malformed = some .operandA ∧
    (⟨0x8, 0, 0x200, 0⟩ : CommandFields).malformed = some .operandA := by decide
/-- V85, V86, V87: unused bits of `B` are not 0. -/
theorem test_malformed_operand_b : (⟨0x2, 0, 0x001, 0x001⟩ : CommandFields).malformed = some .operandB ∧
    (⟨0x4, 0, 0, 0x100⟩ : CommandFields).malformed = some .operandB ∧
    (⟨0x9, 0, 0, 0x040⟩ : CommandFields).malformed = some .operandB := by decide

/-! ### Words written out bit by bit from 30_encoding.md R92 and R94: `op`, `rsv`, `A`, `B` -/

theorem test_decode_init : decode (0b0001#4 ++ 0b0000#4 ++ 0b000100000000#12 ++ 0b001000000000#12) = .ok (.init 256 512) := by decide
theorem test_decode_admit : decode (0b0010#4 ++ 0b0000#4 ++ 0b000011111111#12 ++ 0b000000000000#12) = .ok (.admitProc 255) := by decide
theorem test_decode_lookup : decode (0b0011#4 ++ 0b0000#4 ++ 0b000000000111#12 ++ 0b000000000000#12) = .ok (.lookup 7) := by decide
theorem test_decode_translate : decode (0b0100#4 ++ 0b0000#4 ++ 0b000000001100#12 ++ 0b000011111111#12) = .ok (.translate 12 255) := by decide
theorem test_decode_resolve : decode (0b0101#4 ++ 0b0000#4 ++ 0b000000000001#12 ++ 0b000000010000#12) = .ok (.resolve 1 16) := by decide
theorem test_decode_memrd : decode (0b0110#4 ++ 0b0000#4 ++ 0b000000000100#12 ++ 0b000000000000#12) = .ok (.memrd 4) := by decide
theorem test_decode_memwr : decode (0b0111#4 ++ 0b0000#4 ++ 0b000000000100#12 ++ 0b000010100001#12) = .ok (.memwr 4 0xA1) := by decide
theorem test_decode_swrd : decode (0b1000#4 ++ 0b0000#4 ++ 0b000111111111#12 ++ 0b000000000000#12) = .ok (.swrd 511) := by decide
theorem test_decode_pterd : decode (0b1001#4 ++ 0b0000#4 ++ 0b000000000100#12 ++ 0b000000111111#12) = .ok (.pterd 4 63) := by decide
theorem test_decode_csrrd : decode (0b1010#4 ++ 0b0000#4 ++ 0b000000000110#12 ++ 0b000000000000#12) = .ok (.csrrd 6) := by decide
theorem test_decode_teardown : decode (0b1111#4 ++ 0b0000#4 ++ 0b000000000000#12 ++ 0b000000000000#12) = .ok .teardown := by decide

/-- V81 to V92: the malformed words. -/
theorem test_decode_malformed : ([0x00000000, 0xB0000000, 0xE0000000, 0x21001000, 0x20100000, 0x20001001, 0x40000100,
    0x90000040, 0x80200000, 0xF0000001, 0xA0000001, 0x11008008, 0xFFFFFFFF] : List CommandWord).all
      (fun w => match decode w with | .ok _ => false | .error _ => true) = true := by decide

/-- The table numbering of a word, and a row longer than a command word. -/
theorem test_decode_table_word : decodeTableWord 32 0x700040A1 = some (.memwr 4 0xA1) ∧
    decodeTableWord 40 0x700040A1 = none := by decide

/-! ### Reading an outcome -/

/-- The response word of a next state. -/
def response : Out → Option ResponseWord
  | .next t => some t.rsp
  | .fault _ => none
  | .refused _ => none

/-- What a next state holds, or nothing. -/
def held {α : Type} (f : State → α) : Out → Option α
  | .next t => some (f t)
  | .fault _ => none
  | .refused _ => none

/-- The three bytes of a state's memories at three addresses. -/
def bytes (pa : PhysAddr) (sa : SwapAddr) (loc : PteLocation) (s : State) : Option (Byte × Byte × Byte) :=
  s.mem.map fun m => (m.readPmem pa, m.readSwap sa, m.readPte loc)

/-- A `READY` state of the given sizes, queues, records and memories. -/
def ready (pm : BitVec 9) (sw : BitVec 10) (fq : List PhysAddr) (sq : List SwapAddr) (vq : List PteLocation)
    (proc : List ProcRecord) (m : Memories) : State :=
  { State.reset with lc := .ready, pmemSize := pm, swapSize := sw, fq := fq, sq := sq, vq := vq, proc := proc, mem := some m }

/-- P1 after step 4: VPN 0 of pid 1 present in frame 1. Its page holds A1 B2 C3 D4 (P2, step 8). -/
def onePage : State := ready 8 8 [] [4] [0x000] [⟨1, 0⟩] ⟨[(4, 0xA1), (5, 0xB2), (6, 0xC3), (7, 0xD4)], [], [(0, 0x05)]⟩

/-- P2 after step 15: VPN 0 swapped to slot 1, VPN 1 present in frame 1. -/
def swappedPage : State :=
  ready 8 8 [] [] [0x001] [⟨1, 0⟩] ⟨[(5, 0x55)], [(4, 0xA1), (5, 0xB2), (6, 0xC3), (7, 0xD4)], [(0, 0x02), (1, 0x05)]⟩

/-- P3 after step 15: two processes, no frame free. -/
def twoProcesses : State :=
  ready 16 16 [] [8, 12] [0x040, 0x004] [⟨1, 0⟩, ⟨2, 4⟩] ⟨[(13, 0x22)], [(5, 0x11)], [(0, 0x02), (4, 0x09), (64, 0x0D)]⟩

/-- P3 after step 2: pid 1 admitted, three frames free. -/
def freeFrames : State := ready 16 16 [4, 8, 12] [4, 8, 12] [] [⟨1, 0⟩] Memories.zeroed

/-- A failed state: P1 after step 12. -/
def failedState : State := { ready 8 8 [] [] [0x001] [⟨1, 0⟩] ⟨[], [], [(0, 0x02), (1, 0x05)]⟩ with lc := .failed }

/-! ### One step of each command -/

/-- R215, example: `INIT 8, 8`. -/
theorem test_init : held (fun t => (t.rsp, t.lc, t.fq, t.sq)) (exec (.init 8 8) State.reset) =
    some (0x0000, .ready, [0, 4], [4]) := by decide
/-- P4 steps 3 and 4. -/
theorem test_init_too_large : response (exec (.init 260 8) State.reset) = some 0x3000 ∧
    response (exec (.init 8 516) State.reset) = some 0x3000 := by decide
/-- P3 step 3. -/
theorem test_admit_free_frame : held (fun t => (t.rsp, t.fq, t.proc)) (exec (.admitProc 2) freeFrames) =
    some (0x0004, [8, 12], [⟨1, 0⟩, ⟨2, 4⟩]) := by decide
/-- P3 step 19 and its end state: the victim 0x040 goes to slot 2, its frame 12 becomes the table of pid 3. -/
theorem test_admit_by_eviction :
    held (fun t => (t.rsp, t.sq, t.vq)) (exec (.admitProc 3) twoProcesses) = some (0x000C, [12], [0x004]) ∧
    held (bytes 13 9 0x040) (exec (.admitProc 3) twoProcesses) = some (some (0x00, 0x22, 0x04)) := by decide +kernel
/-- P3 steps 7 and 8. -/
theorem test_lookup : response (exec (.lookup 2) twoProcesses) = some 0x0004 ∧
    response (exec (.lookup 7) twoProcesses) = some 0x4000 := by decide
/-- P2 step 4; P3 step 16. -/
theorem test_translate : response (exec (.translate 0 1) onePage) = some 0x0005 ∧
    response (exec (.translate 0 0x12) twoProcesses) = some 0x000A := by decide
/-- P2 step 16 (swapped), P1 step 6 (unmapped), P3 step 29 (not a base). -/
theorem test_translate_fault : response (exec (.translate 0 0) swappedPage) = some 0x1000 ∧
    response (exec (.translate 0 4) onePage) = some 0x1000 ∧
    response (exec (.translate 8 0) twoProcesses) = some 0x5000 := by decide
/-- P2 step 10, path 2b: VPN 0 out to slot 1, VPN 1 in frame 1, the frame zeroed. -/
theorem test_resolve_evicts :
    held (fun t => (t.rsp, t.sq, t.vq)) (exec (.resolve 1 5) onePage) = some (0x0000, [], [0x001]) ∧
    held (bytes 4 4 0x000) (exec (.resolve 1 5) onePage) = some (some (0x00, 0xA1, 0x02)) ∧
    held (bytes 7 7 0x001) (exec (.resolve 1 5) onePage) = some (some (0x00, 0xD4, 0x05)) := by decide
/-- P2 step 17, path 3: the exchange with slot 1. -/
theorem test_resolve_swaps_in :
    held (fun t => (t.rsp, t.vq)) (exec (.resolve 1 0) swappedPage) = some (0x0000, [0x000]) ∧
    held (bytes 4 4 0x000) (exec (.resolve 1 0) swappedPage) = some (some (0xA1, 0x00, 0x05)) ∧
    held (bytes 5 5 0x001) (exec (.resolve 1 0) swappedPage) = some (some (0xB2, 0x55, 0x02)) := by decide
/-- P2 steps 19 and 20 as reads of the page before it moved; P4 step 17's refusal at the size. -/
theorem test_memrd : response (exec (.memrd 4) onePage) = some 0x00A1 ∧
    response (exec (.memrd 7) onePage) = some 0x00D4 ∧ response (exec (.memrd 8) onePage) = some 0x5000 := by decide
/-- P2 step 15. -/
theorem test_memwr : held State.rsp (exec (.memwr 5 0x55) onePage) = some 0x0000 ∧
    held (bytes 5 5 0x000) (exec (.memwr 5 0x55) onePage) = some (some (0x55, 0x00, 0x05)) := by decide
/-- P2 steps 13 and 14. -/
theorem test_swrd : response (exec (.swrd 4) swappedPage) = some 0x00A1 ∧
    response (exec (.swrd 7) swappedPage) = some 0x00D4 ∧ response (exec (.swrd 8) swappedPage) = some 0x5000 := by decide
/-- P3 steps 17 and 18; `PTERD` of a frame that is no base is refused (R221). -/
theorem test_pterd : response (exec (.pterd 0 0) twoProcesses) = some 0x0002 ∧
    response (exec (.pterd 0 4) twoProcesses) = some 0x0009 ∧
    response (exec (.pterd 4 0) twoProcesses) = some 0x000D ∧
    response (exec (.pterd 8 0) twoProcesses) = some 0x5000 := by decide
/-- P1 step 13, P3 step 4 (before step 3 one frame more is free), P4 step 18. -/
theorem test_csrrd : response (exec (.csrrd 0) failedState) = some 0x0002 ∧
    response (exec (.csrrd 5) freeFrames) = some 0x0003 ∧ response (exec (.csrrd 9) freeFrames) = some 0x5000 := by decide
/-- P1 step 15. -/
theorem test_teardown : held (fun t => (t.rsp, t.lc, t.vq, t.proc)) (exec .teardown failedState) =
    some (0x0000, .uninit, [], []) := by decide

/-- The reset input abandons the word in flight and clears the paging state (70_reset_and_hazards.md R270). -/
theorem test_reset_input : held (fun t => (t.lc, t.rspValid, t.port))
    (step { onePage with port := [.reset (some 0x40000000), .idle] }) = some (.uninit, false, [.idle]) := by decide
/-- A fetch word is what the next step runs (P1 step 5). -/
theorem test_fetch_word : response (step (onePage.withFetchWord 32 0x40000000)) = some 0x0004 := by decide
/-- Reset lists no memory at all, so the canonical form holds of every memory it has. -/
theorem test_reset_memory : State.reset.mem = none ∧ Memories.zeroed.wf = true := by decide

/-! ### Witnesses: for each statement with hypotheses, states and operands that meet them -/

/-- The outcome is a next state with a property. -/
def nextIs (P : State → Bool) : Out → Bool
  | .next t => P t
  | .fault _ => false
  | .refused _ => false

theorem next_of {P : State → Bool} {o : Out} (h : nextIs P o = true) : ∃ t, o = .next t ∧ P t = true := by
  cases o with
  | next t => exact ⟨t, rfl, h⟩
  | fault _ => cases h
  | refused _ => cases h

/-- The invariants of PagingConsistent as one check. -/
def invariantsHold (pm : BitVec 9) (sw : BitVec 10) (fq : List PhysAddr) (sq : List SwapAddr) (vq : List PteLocation)
    (proc : List ProcRecord) (m : Memories) : Bool :=
  let live := liveLocs proc
  let swapped := live.filterMap (swappedSlot m)
  decide (pm.toNat ≤ 256) && decide (sw.toNat ≤ 512) &&
    List.isPerm (fq ++ live.filterMap (presentFrame m) ++ proc.map (·.base)) (frameInit pm.toNat) &&
    List.isPerm (sq ++ swapped) (swapInit sw.toNat) && List.isPerm vq (live.filter (isPresent m)) &&
    decide (proc.map (·.pid)).Nodup && (m.ptram.all fun c => live.contains (BitVec.ofNat 12 c.1)) &&
    (live.all fun loc => !(isPresent m loc && (m.readPte loc).getLsbD 1)) && (swapped.isEmpty || fq.isEmpty) && m.wf

/-- A PTE byte is 0 outside a set of locations that holds every listed one. -/
theorem readPte_eq_zero {l : Memory} {live : List PteLocation} (h : (l.all fun c => live.contains (BitVec.ofNat 12 c.1)) = true)
    {loc : PteLocation} (hl : loc ∉ live) : Memory.read l loc.toNat = 0 := by
  induction l with
  | nil => rfl
  | cons c rest ih =>
    obtain ⟨a, v⟩ := c
    simp only [List.all_cons, Bool.and_eq_true, List.contains_iff_mem] at h
    rw [Memory.read, if_neg, ih h.2]
    rintro rfl
    have := h.1
    rw [BitVec.ofNat_toNat, BitVec.setWidth_eq] at this
    exact hl this

theorem paging_of_invariantsHold {s : State} {m : Memories}
    (h : invariantsHold s.pmemSize s.swapSize s.fq s.sq s.vq s.proc m = true) : PagingConsistent s m := by
  simp only [invariantsHold, Bool.and_eq_true, decide_eq_true_eq, List.isPerm_iff] at h
  obtain ⟨⟨⟨⟨⟨⟨⟨⟨⟨h1, h2⟩, h3⟩, h4⟩, h5⟩, h6⟩, h7⟩, h8⟩, h9⟩, h10⟩ := h
  refine ⟨h1, h2, h3, h4, h5, h6, ?_, ?_, fun loc hl => readPte_eq_zero h7 hl, h10⟩
  · intro loc hl hp
    have := List.all_eq_true.mp h8 loc hl
    simpa [hp] using this
  · intro hs
    rcases Bool.or_eq_true _ _ ▸ h9 with h | h
    · exact absurd (List.isEmpty_iff.mp h) hs
    · exact List.isEmpty_iff.mp h

theorem onePage_invariants : invariantsHold 8 8 [] [4] [0x000] [⟨1, 0⟩]
    ⟨[(4, 0xA1), (5, 0xB2), (6, 0xC3), (7, 0xD4)], [], [(0, 0x05)]⟩ = true := by decide +kernel
theorem onePage_consistent : onePage.Consistent := ⟨_, rfl, paging_of_invariantsHold onePage_invariants⟩
theorem swappedPage_consistent : swappedPage.Consistent :=
  ⟨_, rfl, paging_of_invariantsHold (show invariantsHold 8 8 [] [] [0x001] [⟨1, 0⟩]
    ⟨[(5, 0x55)], [(4, 0xA1), (5, 0xB2), (6, 0xC3), (7, 0xD4)], [(0, 0x02), (1, 0x05)]⟩ = true by decide +kernel)⟩
theorem twoProcesses_consistent : twoProcesses.Consistent :=
  ⟨_, rfl, paging_of_invariantsHold (show invariantsHold 16 16 [] [8, 12] [0x040, 0x004] [⟨1, 0⟩, ⟨2, 4⟩]
    ⟨[(13, 0x22)], [(5, 0x11)], [(0, 0x02), (4, 0x09), (64, 0x0D)]⟩ = true by decide +kernel)⟩
theorem failedState_consistent : failedState.Consistent :=
  ⟨_, rfl, paging_of_invariantsHold (show invariantsHold 8 8 [] [] [0x001] [⟨1, 0⟩]
    ⟨[], [], [(0, 0x02), (1, 0x05)]⟩ = true by decide +kernel)⟩
theorem reset_consistent : State.reset.Consistent := ⟨rfl, rfl, rfl, rfl, rfl, rfl, rfl⟩

/-- A `READY` state at the capacities, all of whose memories are zero but for some PTEs. -/
def full (fq : List PhysAddr) (sq : List SwapAddr) (vq : List PteLocation) (proc : List ProcRecord) (ptram : Memory) : State :=
  ready 256 512 fq sq vq proc ⟨[], [], ptram⟩

/-- A state with one input on its ports. -/
def driven (s : State) (x : PortInput) : State := { s with port := [x] }

theorem witness_EncodeOfDecode : decode 0x801FF000 = .ok (.swrd 511) := by decide

theorem witness_RefusesExactlyMalformedWords : decode 0x00000000 = .error .reservedOpcode ∧
    (driven onePage (.command 0x00000000)).port = [.command 0x00000000] ∧
    (driven onePage (.command 0x00000000)).Consistent :=
  ⟨by decide, rfl, _, rfl, paging_of_invariantsHold onePage_invariants⟩

theorem witness_StepRunsDecodedCommand : (driven onePage (.command 0x40000000)).port = [.command 0x40000000] ∧
    decode 0x40000000 = .ok (.translate 0 0) := by decide

theorem witness_QuietInputsKeepTheState : onePage.port = [] ∧ (driven onePage .idle).port = [.idle] ∧
    (driven onePage (.notReady 0xF0000000)).port = [.notReady 0xF0000000] := by decide

theorem witness_PowerOnResetClears :
    (driven failedState (.reset (some 0xF0000000))).port = [.reset (some 0xF0000000)] := by decide

theorem witness_OneResponsePerCommand :
    ((driven onePage (.command 0xA0000000)).port = [.command 0xA0000000] ∧
      ∃ t, step (driven onePage (.command 0xA0000000)) = .next t ∧ true = true) ∧
    ((driven onePage .idle).port = [.idle] ∧ ∃ t, step (driven onePage .idle) = .next t ∧ true = true) :=
  ⟨⟨rfl, next_of (P := fun _ => true) (by decide)⟩, rfl, next_of (P := fun _ => true) (by decide)⟩

theorem witness_ResetTeardownAndInitValues :
    (∃ t, exec (.init 256 512) State.reset = .next t ∧ (t.rsp == 0x0000) = true) ∧
    (∃ t, exec (.init 0 0) State.reset = .next t ∧ (t.rsp == 0x0000) = true) :=
  ⟨next_of (P := fun t => t.rsp == 0x0000) (by decide), next_of (P := fun t => t.rsp == 0x0000) (by decide)⟩

theorem witness_LifecycleRefusal : accepts (.init 8 8) onePage.lc = false ∧ accepts (.memrd 0) State.reset.lc = false ∧
    accepts (.resolve 1 0) failedState.lc = false := by decide

theorem witness_LifecycleTransitions :
    ∃ t, exec (.resolve 1 8) swappedPage = .next t ∧ (t.rsp == 0x2000) = true :=
  next_of (P := fun t => t.rsp == 0x2000) (by decide)

theorem witness_InitBuildsThePagingState : onePage.lc ≠ .uninit ∧ State.reset.lc = .uninit ∧
    256 < (257 : BitVec 12).toNat ∧ 512 < (513 : BitVec 12).toNat ∧ (256 : BitVec 12).toNat ≤ 256 ∧
    (512 : BitVec 12).toNat ≤ 512 := by decide

theorem witness_TeardownClearsThePagingState : failedState.lc = .failed ∧
    (∃ t, exec .teardown failedState = .next t ∧ (t.lc != .failed) = true) ∧ State.reset.Consistent ∧
    State.reset.lc = .uninit :=
  ⟨rfl, next_of (P := fun t => t.lc != .failed) (by decide), reset_consistent, rfl⟩

theorem witness_MemrdReadsOneByte : State.reset.lc ≠ .ready ∧ onePage.lc = .ready ∧
    onePage.pmemSize.toNat ≤ (8 : PhysAddr).toNat ∧ (7 : PhysAddr).toNat < onePage.pmemSize.toNat ∧
    onePage.mem.isSome = true := by decide

theorem witness_MemwrWritesOneByte : failedState.lc ≠ .ready ∧ onePage.lc = .ready ∧
    onePage.pmemSize.toNat ≤ (8 : PhysAddr).toNat ∧ (7 : PhysAddr).toNat < onePage.pmemSize.toNat ∧
    onePage.mem.map Memories.wf = some true := by decide

theorem witness_SwrdReadsOneByte : State.reset.lc ≠ .ready ∧ swappedPage.lc = .ready ∧
    swappedPage.swapSize.toNat ≤ (8 : SwapAddr).toNat ∧ (7 : SwapAddr).toNat < swappedPage.swapSize.toNat ∧
    swappedPage.mem.isSome = true := by decide

theorem witness_PterdReadsThePte : State.reset.lc ≠ .ready ∧ twoProcesses.lc = .ready ∧
    (1 : PhysAddr) ∉ twoProcesses.proc.map (·.base) ∧ (4 : PhysAddr) ∈ twoProcesses.proc.map (·.base) ∧
    twoProcesses.mem.isSome = true := by decide

theorem witness_CsrrdReadsTheRegisterMap : 8 < (9 : BitVec 8).toNat ∧
    (full (List.replicate 64 0) (List.replicate 127 4) (List.replicate 64 0) (List.replicate 64 ⟨0, 0⟩) []).fq.length ≤ 64 ∧
    (full (List.replicate 64 0) (List.replicate 127 4) (List.replicate 64 0) (List.replicate 64 ⟨0, 0⟩) []).sq.length ≤ 127 ∧
    (full (List.replicate 64 0) (List.replicate 127 4) (List.replicate 64 0) (List.replicate 64 ⟨0, 0⟩) []).vq.length ≤ 64 ∧
    (full (List.replicate 64 0) (List.replicate 127 4) (List.replicate 64 0) (List.replicate 64 ⟨0, 0⟩) []).proc.length ≤ 64 ∧
    (8 : BitVec 8).toNat ≤ 8 := by decide +kernel

theorem witness_LookupFindsTheBase : State.reset.lc ≠ .ready ∧ twoProcesses.lc = .ready ∧
    (7 : Pid) ∉ twoProcesses.proc.map (·.pid) ∧ twoProcesses.proc = [⟨1, 0⟩] ++ ⟨2, 4⟩ :: [] ∧
    (2 : Pid) ∉ ([⟨1, 0⟩] : List ProcRecord).map (·.pid) := by decide

theorem witness_AdmitCreatesOrSwitches : State.reset.lc ≠ .ready ∧
    (twoProcesses.lc = .ready ∧ procLookup twoProcesses.proc 2 = some 4) ∧
    (2 : Pid) ∉ freeFrames.proc.map (·.pid) ∧ freeFrames.fq = 4 :: [8, 12] ∧ freeFrames.mem.map Memories.wf = some true := by
  decide

/-- The last frame, the last record. -/
theorem witness_AdmitCreatesOrSwitches_last_frame :
    let s := full [252] [] [] ((List.range 63).map fun n => ⟨BitVec.ofNat 8 n, BitVec.ofNat 8 (4 * n)⟩) []
    s.lc = .ready ∧ (255 : Pid) ∉ s.proc.map (·.pid) ∧ (252 : PhysAddr).toNat % 4 = 0 ∧
      (252 : PhysAddr).toNat / 4 < s.pmemSize.toNat / 4 ∧ s.proc.length < 64 ∧ s.mem.map Memories.wf = some true := by decide +kernel

/-- Eviction to the last slot from the last frame; and no victim, no slot. -/
theorem witness_AdmitCreatesOrSwitches_eviction :
    let s := full [] [508] [0x000] [⟨1, 0⟩] [(0, 0xFD)]
    (s.lc = .ready ∧ (2 : Pid) ∉ s.proc.map (·.pid) ∧ s.fq = [] ∧ s.vq = 0x000 :: [] ∧ s.sq = 508 :: [] ∧
      s.mem.map Memories.wf = some true ∧ s.mem.map (fun m => pteDecode (m.readPte 0x000)) = some (.present 63 false) ∧
      (63 : Pfn).toNat < s.pmemSize.toNat / 4 ∧ (508 : SwapAddr).toNat % 4 = 0 ∧ 0 < (508 : SwapAddr).toNat ∧
      (508 : SwapAddr).toNat / 4 < s.swapSize.toNat / 4 ∧ s.proc.length < 64 ∧
      ∀ vpn, (0x000 : PteLocation) ≠ pteLoc (frameAddr 63) vpn) ∧
    (swappedPage.lc = .ready ∧ (2 : Pid) ∉ swappedPage.proc.map (·.pid) ∧ swappedPage.fq = [] ∧ swappedPage.sq = []) ∧
    ((full [] [508] [] [] []).fq = [] ∧ (full [] [508] [] [] []).vq = []) := by decide

theorem witness_AdmitIsIdempotent :
    (∃ t, exec (.admitProc 2) freeFrames = .next t ∧ (t.rsp.extractLsb' 12 4 == 0) = true) ∧
    (onePage.lc ≠ .uninit ∧ (∃ t, exec (.resolve 1 5) onePage = .next t ∧ true = true) ∧
      (Instr.resolve 1 5) ≠ .teardown ∧ procLookup onePage.proc 1 = some 0) :=
  ⟨next_of (P := fun t => t.rsp.extractLsb' 12 4 == 0) (by decide +kernel), by decide,
    next_of (P := fun _ => true) (by decide), by decide, by decide⟩

theorem witness_TranslateWalksTheTable : State.reset.lc ≠ .ready ∧ twoProcesses.lc = .ready ∧
    (8 : PhysAddr) ∉ twoProcesses.proc.map (·.base) ∧ (1 : PhysAddr) ∉ twoProcesses.proc.map (·.base) ∧
    (4 : PhysAddr) ∈ twoProcesses.proc.map (·.base) ∧
    twoProcesses.mem.map (fun m => (m.readPte ((4 : PhysAddr).extractLsb' 2 6 ++ (0 : VirtAddr).extractLsb' 2 6)).getLsbD 0) =
      some true ∧
    twoProcesses.mem.map (fun m => (m.readPte ((4 : PhysAddr).extractLsb' 2 6 ++ (0xFF : VirtAddr).extractLsb' 2 6)).getLsbD 0) =
      some false := by decide

theorem witness_ResolveUnknownPid : State.reset.lc ≠ .ready ∧ twoProcesses.lc = .ready ∧
    (7 : Pid) ∉ twoProcesses.proc.map (·.pid) := by decide

theorem witness_ResolvePresentPage :
    (onePage.lc = .ready ∧ procLookup onePage.proc 1 = some 0 ∧
      onePage.mem.map (fun m => (m.readPte ((0 : PhysAddr).extractLsb' 2 6 ++ (3 : VirtAddr).extractLsb' 2 6)).getLsbD 0) =
        some true) ∧
    onePage.Consistent ∧ ∃ t, exec (.resolve 1 5) onePage = .next t ∧ (t.rsp == 0x0000) = true :=
  ⟨by decide, onePage_consistent, next_of (P := fun t => t.rsp == 0x0000) (by decide)⟩

/-- The last frame, the last page, the last place of the victim queue. -/
theorem witness_ResolveBindsAFreeFrame :
    let s := full [252] [] (List.replicate 63 0) [⟨1, 0⟩] []
    s.lc = .ready ∧ procLookup s.proc 1 = some 0 ∧ s.mem.map Memories.wf = some true ∧
      s.mem.map (fun m => m.readPte ((0 : PhysAddr).extractLsb' 2 6 ++ (0xFF : VirtAddr).extractLsb' 2 6)) = some 0 ∧
      s.fq = 252 :: [] ∧ (252 : PhysAddr).toNat % 4 = 0 ∧ (252 : PhysAddr).toNat / 4 < s.pmemSize.toNat / 4 ∧
      s.vq.length < 64 := by decide

/-- From the last frame to the last slot, with the victim queue full before; and a failure for want of a slot. -/
theorem witness_ResolveEvictsTheOldest :
    let s := full [] [508] (List.replicate 64 0x040) [⟨1, 0⟩, ⟨2, 4⟩] [(64, 0xFD)]
    (s.lc = .ready ∧ procLookup s.proc 1 = some 0 ∧ s.mem.map Memories.wf = some true ∧
      s.mem.map (fun m => m.readPte ((0 : PhysAddr).extractLsb' 2 6 ++ (0xFF : VirtAddr).extractLsb' 2 6)) = some 0 ∧
      s.fq = [] ∧ s.vq = 0x040 :: List.replicate 63 0x040 ∧ s.sq = 508 :: [] ∧
      s.mem.map (fun m => pteDecode (m.readPte 0x040)) = some (.present 63 false) ∧
      (63 : Pfn).toNat < s.pmemSize.toNat / 4 ∧ (508 : SwapAddr).toNat % 4 = 0 ∧ 0 < (508 : SwapAddr).toNat ∧
      (508 : SwapAddr).toNat / 4 < s.swapSize.toNat / 4 ∧ (List.replicate 63 (0x040 : PteLocation)).length < 64) ∧
    (swappedPage.lc = .ready ∧ procLookup swappedPage.proc 1 = some 0 ∧ swappedPage.mem.map Memories.wf = some true ∧
      swappedPage.mem.map (fun m => m.readPte ((0 : PhysAddr).extractLsb' 2 6 ++ (8 : VirtAddr).extractLsb' 2 6)) = some 0 ∧
      swappedPage.fq = [] ∧ swappedPage.sq = []) := by decide

/-- The last slot, the last frame; and a swapped page with no page present. -/
theorem witness_ResolveSwapsIn :
    let s := full [] [] [0x040] [⟨1, 0⟩, ⟨2, 4⟩] [(63, 0xFE), (64, 0xFD)]
    (s.lc = .ready ∧ procLookup s.proc 1 = some 0 ∧ s.mem.map Memories.wf = some true ∧
      s.mem.map (fun m => pteDecode (m.readPte ((0 : PhysAddr).extractLsb' 2 6 ++ (0xFF : VirtAddr).extractLsb' 2 6))) =
        some (.swapped 127) ∧
      s.vq = 0x040 :: [] ∧ s.mem.map (fun m => pteDecode (m.readPte 0x040)) = some (.present 63 false) ∧
      (63 : Pfn).toNat < s.pmemSize.toNat / 4 ∧ (127 : SlotIndex).toNat < s.swapSize.toNat / 4) ∧
    (full [] [] [] [⟨1, 0⟩] [(0, 0x02)]).vq = [] ∧
    (full [] [] [] [⟨1, 0⟩] [(0, 0x02)]).mem.map (fun m => pteDecode (m.readPte 0)) = some (.swapped 1) := by decide

theorem witness_ResolveFailsExactly :
    (∃ t, exec (.resolve 1 8) swappedPage = .next t ∧ (t.rsp == 0x2000) = true) ∧ failedState.lc = .failed ∧
    (Instr.memrd 0) ≠ .teardown ∧ ∀ n, (Instr.memrd 0) ≠ .csrrd n :=
  ⟨next_of (P := fun t => t.rsp == 0x2000) (by decide), rfl, by decide, fun _ => by simp⟩

theorem witness_TranslateAfterResolve : onePage.Consistent ∧
    ∃ t, exec (.resolve 1 5) onePage = .next t ∧ (t.rsp.extractLsb' 12 4 == 0) = true :=
  ⟨onePage_consistent, next_of (P := fun t => t.rsp.extractLsb' 12 4 == 0) (by decide)⟩

theorem witness_EvictionMovesTheOldestPage : onePage.fq = [] ∧ onePage.vq = 0x000 :: [] ∧ onePage.sq = 4 :: [] ∧
    onePage.mem.map Memories.wf = some true ∧
    onePage.mem.map (fun m => pteDecode (m.readPte 0x000)) = some (.present 1 false) ∧
    (1 : Pfn).toNat < onePage.pmemSize.toNat / 4 ∧ (4 : SwapAddr).toNat % 4 = 0 ∧ 0 < (4 : SwapAddr).toNat ∧
    (4 : SwapAddr).toNat / 4 < onePage.swapSize.toNat / 4 := by decide

theorem witness_PteCodecRoundTrips : (1 : SlotIndex) ≠ 0 ∧ (127 : SlotIndex) ≠ 0 := by decide

theorem witness_PteReadingsArePartitioned : pteDecode 0x02 = .swapped 1 ∧ pteDecode 0xFE = .swapped 127 := by decide

theorem witness_AddressArithmetic : (0 : PhysAddr).toNat % 4 = 0 ∧ (252 : PhysAddr).toNat % 4 = 0 := by decide

theorem witness_StepKeepsConsistency : (driven onePage (.command 0x50001005)).Consistent ∧
    ∃ t, step (driven onePage (.command 0x50001005)) = .next t ∧ (t.vq == [0x001]) = true :=
  ⟨⟨_, rfl, paging_of_invariantsHold onePage_invariants⟩, next_of (P := fun t => t.vq == [0x001]) (by decide)⟩

theorem witness_ConsistentStatesNeverStop : State.reset.Consistent ∧ twoProcesses.Consistent ∧ failedState.Consistent :=
  ⟨reset_consistent, twoProcesses_consistent, failedState_consistent⟩

/-- The present pages of two processes. -/
theorem witness_NoDoubleMapping : twoProcesses.Consistent ∧ (0x004 : PteLocation) ∈ liveLocs twoProcesses.proc ∧
    (0x040 : PteLocation) ∈ liveLocs twoProcesses.proc ∧ (0x004 : PteLocation) ≠ 0x040 ∧
    twoProcesses.mem.map (fun m => (isPresent m 0x004, isPresent m 0x040)) = some (true, true) :=
  ⟨twoProcesses_consistent, by decide, by decide, by decide, by decide⟩

/-- For FrameOwnership, SlotOwnership and RangeInvariants: a state with free, present, swapped and table entries. -/
theorem witness_Ownership : twoProcesses.Consistent ∧ twoProcesses.mem.isSome = true ∧
    twoProcesses.mem.map (fun m => pteDecode (m.readPte 0x000)) = some (.swapped 1) ∧
    twoProcesses.mem.map (fun m => pteDecode (m.readPte 0x040)) = some (.present 3 false) :=
  ⟨twoProcesses_consistent, by decide, by decide, by decide⟩

theorem witness_VictimQueueDiscipline : twoProcesses.Consistent ∧ twoProcesses.mem.isSome = true ∧
    twoProcesses.lc ≠ .uninit ∧ (Instr.admitProc 3) ≠ .teardown ∧
    ∃ t, exec (.admitProc 3) twoProcesses = .next t ∧ (t.vq == [0x004]) = true :=
  ⟨twoProcesses_consistent, by decide, by decide, by decide,
    next_of (P := fun t => t.vq == [0x004]) (by decide +kernel)⟩

theorem witness_FreeQueuesNeverGrow : (driven freeFrames (.command 0x20002000)).lc ≠ .uninit ∧
    (∃ t, step (driven freeFrames (.command 0x20002000)) = .next t ∧ (t.fq == [8, 12]) = true) ∧
    swappedPage.Consistent ∧ (0x000 : PteLocation) ∈ liveLocs swappedPage.proc ∧
    swappedPage.mem.map (fun m => pteDecode (m.readPte 0x000)) = some (.swapped 1) :=
  ⟨by decide, next_of (P := fun t => t.fq == [8, 12]) (by decide +kernel), swappedPage_consistent, by decide, by decide⟩

/-- `INIT 8, 8`, `ADMIT 1`, `RESOLVE 1, 0` on the ports of the reset state, as P1 begins. -/
def threeCommands : List PortInput := [.command 0x10008008, .command 0x20001000, .command 0x50001000]

theorem reachable_step {s : State} {P : State → Bool} (hs : Reachable s) (h : nextIs P (step s) = true) :
    ∃ t, Reachable t ∧ P t = true :=
  let ⟨t, ht, hp⟩ := next_of h
  ⟨t, .step hs ht, hp⟩

/-- For NoInputStopsTheEngine, UserFlagStaysZero, DeadTablesStayZero and UnownedBytesStay: a reachable state with a
present page, dead tables and swap slots. -/
theorem witness_Reachable : ∃ s, Reachable s ∧
    (decide ((0x000 : PteLocation) ∈ liveLocs s.proc) && decide ((0x040 : PteLocation) ∉ liveLocs s.proc) &&
      (s.mem.map fun m => isPresent m 0x000) == some true) = true := by
  obtain ⟨s1, h1, e1⟩ := reachable_step (P := fun t => t == { State.reset with lc := .ready, pmemSize := 8, swapSize := 8, fq := [0, 4], sq := [4], mem := some Memories.zeroed, rspValid := true, port := [.command 0x20001000, .command 0x50001000] }) (Reachable.reset threeCommands 0) (by decide +kernel)
  obtain ⟨s2, h2, e2⟩ := reachable_step (s := s1) (P := fun t => t == { State.reset with lc := .ready, pmemSize := 8, swapSize := 8, fq := [4], sq := [4], proc := [⟨1, 0⟩], mem := some Memories.zeroed, rspValid := true, port := [.command 0x50001000] }) h1 (by rw [eq_of_beq e1]; decide +kernel)
  exact reachable_step h2 (by rw [eq_of_beq e2]; decide +kernel)

theorem witness_ReadersChangeOnlyTheResponse :
    (∃ pid, Instr.lookup 2 = .lookup pid) ∧ ∃ t, exec (.lookup 2) twoProcesses = .next t ∧ (t.rsp == 0x0004) = true :=
  ⟨⟨2, rfl⟩, next_of (P := fun t => t.rsp == 0x0004) (by decide)⟩

/-- Each status but `OK` in some next state; for StatusesAndTheirCommands too. -/
theorem witness_UnsuccessfulCommandsChangeNothing :
    (∃ t, exec (.translate 0 4) onePage = .next t ∧ (t.rsp.extractLsb' 12 4 == 1) = true) ∧
    (∃ t, exec (.admitProc 2) swappedPage = .next t ∧ (t.rsp.extractLsb' 12 4 == 2) = true) ∧
    (∃ t, exec (.init 257 0) State.reset = .next t ∧ (t.rsp.extractLsb' 12 4 == 3) = true) ∧
    (∃ t, exec (.lookup 7) onePage = .next t ∧ (t.rsp.extractLsb' 12 4 == 4) = true) ∧
    ∃ t, exec (.memrd 8) onePage = .next t ∧ (t.rsp.extractLsb' 12 4 == 5) = true :=
  ⟨next_of (P := fun t => t.rsp.extractLsb' 12 4 == 1) (by decide),
    next_of (P := fun t => t.rsp.extractLsb' 12 4 == 2) (by decide),
    next_of (P := fun t => t.rsp.extractLsb' 12 4 == 3) (by decide),
    next_of (P := fun t => t.rsp.extractLsb' 12 4 == 4) (by decide),
    next_of (P := fun t => t.rsp.extractLsb' 12 4 == 5) (by decide)⟩

/-- For EvictionIsFifo and PagingKeepsPageContents: the page at 0x000 is evicted. -/
theorem witness_EvictionIsFifo : onePage.Consistent ∧ (0x000 : PteLocation) ∈ liveLocs onePage.proc ∧
    onePage.mem.map (fun m => isPresent m 0x000) = some true ∧
    ∃ t, exec (.resolve 1 5) onePage = .next t ∧ ((t.mem.map fun m => isPresent m 0x000) == some false) = true :=
  ⟨onePage_consistent, by decide, by decide,
    next_of (P := fun t => (t.mem.map fun m => isPresent m 0x000) == some false) (by decide)⟩

/-- A byte beyond the last frame, a table frame, slot 0 and a byte beyond the last slot. -/
theorem witness_UnownedBytesStay : onePage.Consistent ∧ onePage.pmemSize.toNat / 4 ≤ (8 : PhysAddr).toNat / 4 ∧
    (0 : PhysAddr) ∈ onePage.proc.map (·.base) ∧ (3 : SwapAddr).toNat / 4 = 0 ∧
    onePage.swapSize.toNat / 4 ≤ (8 : SwapAddr).toNat / 4 ∧ (∀ pa data, Instr.resolve 1 5 ≠ .memwr pa data) ∧
    ∃ t, exec (.resolve 1 5) onePage = .next t ∧ t.mem.isSome = true :=
  ⟨onePage_consistent, by decide, by decide, by decide, by decide, fun _ _ => by simp,
    next_of (P := fun t => t.mem.isSome) (by decide)⟩

/-- One state for each clause: a victim not present (unmapped page, swapped page), a swapped page's slot at `NSLOTS`,
a free slot at `NSLOTS` (slot 0 and a misaligned one are other choices), a free frame at `NFRAMES` and a misaligned one. -/
theorem witness_BrokenOwnershipFaults :
    let page := (0 : PhysAddr).extractLsb' 2 6 ++ (0 : VirtAddr).extractLsb' 2 6
    let a := ready 8 8 [] [4] [0x001] [⟨1, 0⟩] ⟨[], [], []⟩
    let b := ready 8 8 [] [] [0x001] [⟨1, 0⟩] ⟨[], [], [(0, 0x02)]⟩
    let c := ready 8 8 [] [] [0x001] [⟨1, 0⟩] ⟨[], [], [(0, 0x04), (1, 0x05)]⟩
    let d := ready 8 8 [] [8] [0x001] [⟨1, 0⟩] ⟨[], [], [(1, 0x05)]⟩
    let e := ready 8 8 [8] [] [] [⟨1, 0⟩] ⟨[], [], []⟩
    (a.mem.map (fun m => (m.readPte page, isPresent m 0x001)) = some (0, false)) ∧
    (b.mem.map (fun m => (pteDecode (m.readPte page), isPresent m 0x001)) = some (.swapped 1, false)) ∧
    (c.mem.map (fun m => (pteDecode (m.readPte page), pteDecode (m.readPte 0x001))) = some (.swapped 2, .present 1 false) ∧
      (1 : Pfn).toNat < c.pmemSize.toNat / 4 ∧ c.swapSize.toNat / 4 ≤ (2 : SlotIndex).toNat) ∧
    (d.mem.map (fun m => (m.readPte page, pteDecode (m.readPte 0x001))) = some (0, .present 1 false) ∧
      d.swapSize.toNat / 4 ≤ (8 : SwapAddr).toNat / 4) ∧
    (e.mem.map (fun m => m.readPte page) = some 0 ∧ e.pmemSize.toNat / 4 ≤ (8 : PhysAddr).toNat / 4) ∧
    [a, b, c, d, e].all (fun s => decide (s.lc = .ready) && decide (procLookup s.proc 1 = some 0)) = true := by decide

/-- A `READY` state without memories; queues and tables one longer than the hardware's; full ones. -/
theorem witness_AbsentMemoryAndOverfullQueuesFault :
    let a := { onePage with mem := none }
    let b := full (List.replicate 65 0) (List.replicate 128 4) (List.replicate 65 0) (List.replicate 65 ⟨0, 0⟩) []
    let c := full [252] [] (List.replicate 64 0) (List.replicate 64 ⟨1, 0⟩) []
    (a.lc = .ready ∧ a.mem = none ∧ (7 : PhysAddr).toNat < a.pmemSize.toNat ∧ (7 : SwapAddr).toNat < a.swapSize.toNat ∧
      (0 : PhysAddr) ∈ a.proc.map (·.base) ∧ (1 : Pid) ∈ a.proc.map (·.pid)) ∧
    (64 < b.fq.length ∧ 127 < b.sq.length ∧ 64 < b.vq.length ∧ 64 < b.proc.length) ∧
    (c.lc = .ready ∧ (2 : Pid) ∉ c.proc.map (·.pid) ∧ c.mem.isSome = true ∧ c.fq = 252 :: [] ∧ 64 ≤ c.proc.length ∧
      procLookup c.proc 1 = some 0 ∧ 64 ≤ c.vq.length ∧
      c.mem.map (fun m => m.readPte (pteLoc 0 (vpnOfVa 0))) = some 0) := by decide +kernel

end Sys2Proof.Tests
end

section
/-!
PROOFS. The invariants of 10_state.md R40 to R47: what obtaining a frame leaves unchanged and how it keeps the
consistency of the state, that each effect of a command and so each step keeps it, that a consistent state always has a
next state, and the statements of 10_state.md that follow from them.
-/

namespace Sys2Proof.Machine

/-! ### What each shared operation leaves unchanged -/

/-- Whichever way a frame is obtained, the lifecycle, the sizes and the process table stay, the free queues lose at
most their heads, and the victim queue at most its head. -/
theorem obtainFrame_keeps {s t : State} {f : PhysAddr} (h : obtainFrame s = .frame f t) :
    t.lc = s.lc ∧ t.proc = s.proc ∧ t.fq <:+ s.fq ∧ t.sq <:+ s.sq ∧ ∃ k ≤ 1, t.vq = s.vq.drop k := by
  rcases obtainFrame_frame.mp h with ⟨rest, hfq, -, rfl⟩ | ⟨v, vq, a, sq, -, hvq, hsq, he⟩
  · exact ⟨rfl, rfl, hfq ▸ List.suffix_cons f rest, List.suffix_refl _, 0, Nat.zero_le 1, rfl⟩
  · obtain ⟨m, p, u, -, -, -, -, -, rfl⟩ := evictTo_ok.mp he
    exact ⟨rfl, rfl, List.suffix_refl _, hsq ▸ List.suffix_cons a sq, 1, Nat.le_refl 1, by simp [hvq]⟩

/-! ### Consistency: its two shapes -/

theorem State.Consistent.of_uninit {s : State} (hc : s.Consistent) (hu : s.lc = .uninit) :
    s.pmemSize = 0 ∧ s.swapSize = 0 ∧ s.mem = none ∧ s.fq = [] ∧ s.sq = [] ∧ s.vq = [] ∧ s.proc = [] := by
  simpa only [State.Consistent, hu] using hc

/-- Outside `UNINIT` a state is consistent when its memories exist and have the invariants. -/
theorem consistent_iff {s : State} (hu : s.lc ≠ .uninit) :
    s.Consistent ↔ ∃ m, s.mem = some m ∧ PagingHeld [] s m := by
  simp only [pagingHeld_nil]
  cases hlc : s.lc with
  | uninit => exact absurd hlc hu
  | ready => simp only [State.Consistent, hlc]
  | failed => simp only [State.Consistent, hlc]

/-- A consistent state with memories has the invariants over them. -/
theorem State.Consistent.paging {s : State} {m : Memories} (hc : s.Consistent) (hm : s.mem = some m) :
    PagingHeld [] s m := by
  have hu : s.lc ≠ .uninit := fun hu => by
    obtain ⟨-, -, hnone, -⟩ := hc.of_uninit hu
    rw [hnone] at hm; cases hm
  obtain ⟨n, hn, hp⟩ := (consistent_iff hu).mp hc
  cases hn.symm.trans hm
  exact hp

theorem State.Consistent.of_ready {s : State} (hc : s.Consistent) (hr : s.lc = .ready) :
    ∃ m, s.mem = some m ∧ PagingHeld [] s m :=
  (consistent_iff (by simp [hr])).mp hc

/-- Consistency does not depend on the response, the port inputs and the free values. -/
theorem State.Consistent.congr {s t : State} (hc : s.Consistent) (h0 : t.lc = s.lc) (h1 : t.pmemSize = s.pmemSize)
    (h2 : t.swapSize = s.swapSize) (h3 : t.mem = s.mem) (h4 : t.fq = s.fq) (h5 : t.sq = s.sq) (h6 : t.vq = s.vq)
    (h7 : t.proc = s.proc) : t.Consistent := by
  by_cases hu : s.lc = .uninit
  · have := hc.of_uninit hu
    simpa only [State.Consistent, h0, hu, h1, h2, h3, h4, h5, h6, h7] using this
  · obtain ⟨m, hm, hp⟩ := (consistent_iff hu).mp hc
    exact (consistent_iff (h0 ▸ hu)).mpr ⟨m, h3.trans hm, hp.congr h1 h2 h4 h5 h6 h7⟩

theorem State.Consistent.answer {s : State} (hc : s.Consistent) (st : Status) (v : BitVec 12) :
    (s.answer st v).Consistent := hc.congr rfl rfl rfl rfl rfl rfl rfl rfl

theorem State.Consistent.quiet {s : State} (hc : s.Consistent) : s.quiet.Consistent :=
  hc.congr rfl rfl rfl rfl rfl rfl rfl rfl

theorem State.Consistent.dropInput {s : State} (hc : s.Consistent) (rest : List PortInput) :
    { s with port := rest }.Consistent := hc.congr rfl rfl rfl rfl rfl rfl rfl rfl

/-- The cleared state is as after reset. -/
theorem cleared_consistent (s : State) : s.cleared.Consistent := ⟨rfl, rfl, rfl, rfl, rfl, rfl, rfl⟩

theorem powerOnReset_consistent (s : State) : s.powerOnReset.Consistent := ⟨rfl, rfl, rfl, rfl, rfl, rfl, rfl⟩

/-! ### Consistency: what each effect of a command keeps -/

@[simp] theorem liveLocs_nil : liveLocs [] = [] := rfl

/-- The state `INIT` builds: every frame and every slot but slot 0 is free, and no page is mapped. -/
theorem initialised_consistent {pm sw : BitVec 12} (s : State) (hpm : pm.toNat ≤ 256) (hsw : sw.toNat ≤ 512) :
    (s.initialised pm sw).Consistent := by
  have hp : (pm.setWidth 9).toNat = pm.toNat := by simp only [BitVec.toNat_setWidth]; omega
  have hs : (sw.setWidth 10).toNat = sw.toNat := by simp only [BitVec.toNat_setWidth]; omega
  refine (consistent_iff (by simp)).mpr ⟨Memories.zeroed, rfl, ?_⟩
  exact
    { pmemSize_le := hp.le.trans hpm
      swapSize_le := hs.le.trans hsw
      frames := by simp [presentFrames, tableFrames, hp]
      slots := by simp [swappedSlots, hs]
      victims := by simp
      pids := by simp
      userFlag := by simp
      swappedNoFree := by simp [swappedSlots]
      deadZero := fun loc _ => Memories.readPte_zeroed loc
      wf := Memories.wf_zeroed }

/-- A store to `PMEM` changes no PTE. -/
theorem PagingHeld.store {held : List PhysAddr} {s : State} {m : Memories} (h : PagingHeld held s m) (pa : PhysAddr)
    (data : Byte) : PagingHeld held { s with mem := some (m.writePmem pa data) } (m.writePmem pa data) :=
  ⟨h.pmemSize_le, h.swapSize_le, h.frames, h.slots, h.victims, h.pids, h.userFlag, h.swappedNoFree, h.deadZero,
    Memories.wf_writePmem h.wf pa data⟩

/-- An obtained frame is held by no one, and obtaining it maps and unmaps no page. -/
theorem PagingHeld.obtain {held : List PhysAddr} {s t : State} {m : Memories} {f : PhysAddr} (h : PagingHeld held s m)
    (hm : s.mem = some m) (ho : obtainFrame s = .frame f t) :
    ∃ n, t.mem = some n ∧ PagingHeld (f :: held) t n ∧
      ∀ e, pteDecode (m.readPte e) = .unmapped → pteDecode (n.readPte e) = .unmapped := by
  rcases obtainFrame_frame.mp ho with ⟨rest, hfq, -, rfl⟩ | ⟨v, vq, a, sq, hfq, hvq, hsq, he⟩
  · exact ⟨m, hm, h.acquire hfq, fun _ hu => hu⟩
  · obtain ⟨n, p, u, hn, hp, -, -, rfl, rfl⟩ := evictTo_ok.mp he
    cases hn.symm.trans hm
    refine ⟨_, rfl, h.evict hfq hvq hsq hp, fun e hu => ?_⟩
    have hev : e ≠ v := by rintro rfl; rw [hp] at hu; cases hu
    rwa [evictedMemories_readPte v p a h.wf, if_neg hev]

/-- Every effect of a command keeps consistency. -/
theorem Effect.consistent {s t : State} {i : Instr} (he : Effect s i t) (hc : s.Consistent) : t.Consistent := by
  cases he with
  | response i st v => exact hc.answer st v
  | failed i hi hr =>
    obtain ⟨m, hm, hp⟩ := hc.of_ready hr
    exact (consistent_iff (by simp)).mpr ⟨m, hm, hp.congr rfl rfl rfl rfl rfl rfl⟩
  | initialised pm sw hu hpm hsw => exact (initialised_consistent s hpm hsw).answer _ _
  | cleared => exact (cleared_consistent s).answer _ _
  | stored m pa data hr hm =>
    refine State.Consistent.answer ((consistent_iff (by simp [hr])).mpr ⟨_, rfl, ?_⟩) _ _
    exact (hc.paging hm).store pa data
  | admitted pid f s1 s2 hr hn ho ha =>
    obtain ⟨m, hm, hp⟩ := hc.of_ready hr
    obtain ⟨n, hn1, hheld, -⟩ := hp.obtain hm ho
    obtain ⟨hlc, hproc, -⟩ := obtainFrame_keeps ho
    obtain ⟨n', hn', -, rfl⟩ := addProcess_ok.mp ha
    cases hn'.symm.trans hn1
    refine State.Consistent.answer ((consistent_iff (by simp [hlc, hr])).mpr ⟨_, rfl, ?_⟩) _ _
    exact hheld.addProcess (hproc ▸ hn)
  | bound pid va b m f s1 s2 hr hb hm hu ho hbind =>
    obtain ⟨n, hn1, hheld, hunmapped⟩ := (hc.paging hm).obtain hm ho
    obtain ⟨hlc, hproc, -⟩ := obtainFrame_keeps ho
    obtain ⟨n', hn', -, rfl⟩ := bindFrame_ok.mp hbind
    cases hn'.symm.trans hn1
    refine State.Consistent.answer ((consistent_iff (by simp [hlc, hr])).mpr ⟨_, rfl, ?_⟩) _ _
    exact hheld.bind (hproc ▸ pteLoc_mem_liveLocs hb _) (hunmapped _ hu)
  | swappedIn pid va b m x w vq s2 hr hb hm hx hv hi =>
    obtain ⟨n, p, u, hn, hp, -, -, -, rfl⟩ := swapIn_ok.mp hi
    cases hn.symm.trans hm
    refine State.Consistent.answer ((consistent_iff (by simp [hr])).mpr ⟨_, rfl, ?_⟩) _ _
    exact (hc.paging hm).swapIn (pteLoc_mem_liveLocs hb _) hx hv hp

/-- Settles O35: each port input either leaves the paging state alone, resets it, or has a command's effect. -/
theorem stepKeepsConsistency : Obligations.StepKeepsConsistency := by
  intro s t hc h
  cases hport : s.port with
  | nil =>
    cases (step_nil hport).symm.trans h
    exact hc.quiet
  | cons x rest =>
    rw [step_cons hport] at h
    cases x with
    | idle => cases h; exact (hc.dropInput rest).quiet
    | notReady w => cases h; exact (hc.dropInput rest).quiet
    | reset w => cases h; exact powerOnReset_consistent _
    | command w =>
      obtain ⟨i, he, -⟩ := runWord_effect h
      exact he.consistent (hc.dropInput rest)

end Sys2Proof.Machine
end

section
/-!
PROOFS. A consistent state always has a next state: each check of the model (log entry 5) passes where the invariants
hold.
-/

namespace Sys2Proof.Machine

/-- The head of the victim queue names a frame. -/
theorem PagingHeld.victim {held : List PhysAddr} {s : State} {m : Memories} (h : PagingHeld held s m) {v : PteLocation}
    (hv : v ∈ s.vq) : ∃ p u, pteDecode (m.readPte v) = .present p u ∧ p.toNat < nframes s := by
  obtain ⟨hl, hpres⟩ := h.mem_vq.mp hv
  obtain ⟨p, u, hp⟩ := present_of_isPresent hpres
  obtain ⟨-, hr⟩ := h.presentFrame_range hl (presentFrame_of_present hp)
  rw [frameAddr_toNat] at hr
  refine ⟨p, u, hp, ?_⟩
  rw [nframes, Config.pageSize]
  omega

/-- The slot of a swapped live PTE is a slot. -/
theorem PagingHeld.swapped_slot {held : List PhysAddr} {s : State} {m : Memories} (h : PagingHeld held s m)
    {e : PteLocation} (he : e ∈ liveLocs s.proc) {x : SlotIndex} (hx : pteDecode (m.readPte e) = .swapped x) :
    slotInRange s (slotAddr x) = true :=
  slotInRange_iff.mpr <| h.slot_range <|
    List.mem_append_right _ (List.mem_filterMap.mpr ⟨e, he, swappedSlot_of_swapped hx⟩)

/-- A request for a frame finds no invariant broken. -/
theorem PagingHeld.obtain_not_broken {held : List PhysAddr} {s : State} {m : Memories} (h : PagingHeld held s m)
    (hm : s.mem = some m) : obtainFrame s = .exhausted ∨ ∃ f t, obtainFrame s = .frame f t := by
  cases hfq : s.fq with
  | cons f rest =>
    have hr := frameInRange_iff.mpr (h.mem_frames (f := f) (by simp [hfq]))
    exact .inr ⟨f, _, obtainFrame_frame.mpr (.inl ⟨rest, hfq, hr, rfl⟩)⟩
  | nil =>
    cases hvq : s.vq with
    | nil => exact .inl (obtainFrame_exhausted.mpr ⟨hfq, .inl hvq⟩)
    | cons v vq =>
      cases hsq : s.sq with
      | nil => exact .inl (obtainFrame_exhausted.mpr ⟨hfq, .inr hsq⟩)
      | cons a sq =>
        obtain ⟨p, u, hp, hn⟩ := h.victim (v := v) (by simp [hvq])
        have hr := slotInRange_iff.mpr (h.slot_range (a := a) (by simp [hsq]))
        exact .inr ⟨frameAddr p, _, obtainFrame_frame.mpr
          (.inr ⟨v, vq, a, sq, hfq, hvq, hsq, evictTo_ok.mpr ⟨m, p, u, hm, hp, hn, hr, rfl, rfl⟩⟩)⟩

/-- While a frame is held the process table and the victim queue have room. -/
theorem PagingHeld.room {f : PhysAddr} {held : List PhysAddr} {s : State} {m : Memories}
    (h : PagingHeld (f :: held) s m) : s.proc.length < 64 ∧ s.vq.length < 64 := by
  have hc := h.count
  have hle := h.pmemSize_le
  rw [List.length_cons] at hc
  omega

theorem exists_respond (s : State) (st : Status) (v : BitVec 12) : ∃ t, respond s st v = .next t := ⟨_, rfl⟩

/-- A command accepted in `READY` only has a next state if its body has one there. -/
theorem exists_whenReady {s : State} {body : Out} (h : s.lc = .ready → ∃ t, body = .next t) :
    ∃ t, whenReady s body = .next t := by
  unfold whenReady
  split
  · exact h ‹_›
  · exact exists_respond s _ _

theorem exists_withMemories {s : State} {m : Memories} {body : Memories → Out} (hm : s.mem = some m)
    (h : ∃ t, body m = .next t) : ∃ t, withMemories s body = .next t := by
  obtain ⟨t, ht⟩ := h
  exact ⟨t, withMemories_next.mpr ⟨m, hm, ht⟩⟩

/-- An access that is refused past a bound, and else uses the memories, ends as its use of them does. -/
theorem State.Consistent.exists_bounded {s : State} (hc : s.Consistent) {bound : Prop} [Decidable bound]
    {body : Memories → Out} (h : ∀ m, ∃ t, body m = .next t) :
    ∃ t, whenReady s (if bound then refuse s else withMemories s body) = .next t := by
  refine exists_whenReady fun hr => ?_
  obtain ⟨m, hm, -⟩ := hc.of_ready hr
  split
  · exact exists_respond _ _ _
  · exact exists_withMemories hm (h m)

/-- `ADMIT` of a new pid ends with a response. -/
theorem PagingHeld.exists_admitNew {s : State} {m : Memories} (h : PagingHeld [] s m) (hm : s.mem = some m)
    (pid : Pid) : ∃ t, admitNew pid s = .next t := by
  rcases h.obtain_not_broken hm with ho | ⟨f, s1, ho⟩
  · simp only [admitNew, ho]; exact exists_respond _ _ _
  · obtain ⟨n, hn, hheld, -⟩ := h.obtain hm ho
    have ha := addProcess_ok (pid := pid) (f := f) |>.mpr ⟨n, hn, hheld.room.1, rfl⟩
    simp only [admitNew, ho]
    exact ⟨_, orBreak_next.mpr ⟨_, ha, rfl⟩⟩

/-- `RESOLVE` of an unmapped page ends with a response. -/
theorem PagingHeld.exists_resolveUnmapped {s : State} {m : Memories} (h : PagingHeld [] s m) (hm : s.mem = some m)
    (e : PteLocation) : ∃ t, resolveUnmapped e s = .next t := by
  rcases h.obtain_not_broken hm with ho | ⟨f, s1, ho⟩
  · simp only [resolveUnmapped, ho]; exact exists_respond _ _ _
  · obtain ⟨n, hn, hheld, -⟩ := h.obtain hm ho
    have hb := bindFrame_ok (e := e) (f := f) |>.mpr ⟨n, hn, hheld.room.2, rfl⟩
    simp only [resolveUnmapped, ho]
    exact ⟨_, orBreak_next.mpr ⟨_, hb, rfl⟩⟩

/-- `RESOLVE` of a swapped page ends with a response. -/
theorem PagingHeld.exists_resolveSwapped {s : State} {m : Memories} (h : PagingHeld [] s m) (hm : s.mem = some m)
    {e : PteLocation} (he : e ∈ liveLocs s.proc) {x : SlotIndex} (hx : pteDecode (m.readPte e) = .swapped x) :
    ∃ t, resolveSwapped e x s = .next t := by
  cases hvq : s.vq with
  | nil => simp only [resolveSwapped, victimSelect, hvq]; exact exists_respond _ _ _
  | cons v vq =>
    obtain ⟨p, u, hp, hn⟩ := h.victim (v := v) (by simp [hvq])
    have hroom : vq.length < 64 := by
      have hc := h.count
      have hle := h.pmemSize_le
      rw [hvq, List.length_cons] at hc
      omega
    have hi := swapIn_ok (e := e) (v := v) (x := x) (s := { s with vq := vq }) |>.mpr
      ⟨m, p, u, hm, hp, hn, h.swapped_slot he hx, hroom, rfl⟩
    simp only [resolveSwapped, victimSelect, hvq]
    exact ⟨_, orBreak_next.mpr ⟨_, hi, rfl⟩⟩

/-- No queue or table of a consistent state is longer than the hardware's (00_scope.md R8). -/
theorem State.Consistent.lengths_le {s : State} (hc : s.Consistent) :
    s.fq.length ≤ 64 ∧ s.sq.length ≤ 127 ∧ s.vq.length ≤ 64 ∧ s.proc.length ≤ 64 := by
  by_cases hu : s.lc = .uninit
  · obtain ⟨-, -, -, hfq, hsq, hvq, hproc⟩ := hc.of_uninit hu
    simp [hfq, hsq, hvq, hproc]
  · obtain ⟨m, -, hp⟩ := (consistent_iff hu).mp hc
    have hf := hp.count
    have hs := hp.count_slots
    have hpm := hp.pmemSize_le
    have hsw := hp.swapSize_le
    omega

theorem countRegister_ok {most len : Nat} (h : len ≤ most) : countRegister most len = .ok (BitVec.ofNat 12 len) :=
  if_pos h

/-- Every register of a consistent state can be read. -/
theorem State.Consistent.exists_csrrd {s : State} (hc : s.Consistent) (n : BitVec 8) :
    ∃ t, execCsrrd n s = .next t := by
  obtain ⟨hfq, hsq, hvq, hproc⟩ := hc.lengths_le
  have hread : csrRead s n = none ∨ ∃ v, csrRead s n = some (.ok v) := by
    unfold csrRead
    split
    case h_6 => exact .inr ⟨_, congrArg some (countRegister_ok hfq)⟩
    case h_7 => exact .inr ⟨_, congrArg some (countRegister_ok hsq)⟩
    case h_8 => exact .inr ⟨_, congrArg some (countRegister_ok hvq)⟩
    case h_9 => exact .inr ⟨_, congrArg some (countRegister_ok hproc)⟩
    case h_10 => exact .inl rfl
    all_goals exact .inr ⟨_, rfl⟩
  rcases hread with hr | ⟨v, hr⟩
  · simp only [execCsrrd, hr]; exact exists_respond _ _ _
  · simp only [execCsrrd, hr]; exact exists_respond _ _ _

/-- From a consistent state every command ends with a response. -/
theorem State.Consistent.exists_exec {s : State} (hc : s.Consistent) (i : Instr) : ∃ t, exec i s = .next t := by
  cases i with
  | init pm sw =>
    simp only [exec, execInit, whenUninit]
    split
    · split <;> exact exists_respond _ _ _
    · exact exists_respond _ _ _
  | admitProc pid =>
    refine exists_whenReady fun hr => ?_
    obtain ⟨m, hm, hp⟩ := hc.of_ready hr
    split
    · exact exists_respond _ _ _
    · exact hp.exists_admitNew hm pid
  | lookup pid =>
    refine exists_whenReady fun _ => ?_
    split <;> exact exists_respond _ _ _
  | translate base va =>
    refine exists_whenReady fun hr => ?_
    obtain ⟨m, hm, -⟩ := hc.of_ready hr
    split
    · refine exists_withMemories hm ?_
      split <;> exact exists_respond _ _ _
    · exact exists_respond _ _ _
  | resolve pid va =>
    refine exists_whenReady fun hr => ?_
    obtain ⟨m, hm, hp⟩ := hc.of_ready hr
    split
    · exact exists_respond _ _ _
    · next b hb =>
      refine exists_withMemories hm ?_
      split
      · exact exists_respond _ _ _
      · exact hp.exists_resolveUnmapped hm _
      · next x hx => exact hp.exists_resolveSwapped hm (pteLoc_mem_liveLocs hb _) hx
  | memrd pa => exact hc.exists_bounded fun _ => exists_respond _ _ _
  | memwr pa data => exact hc.exists_bounded fun _ => exists_respond _ _ _
  | swrd sa => exact hc.exists_bounded fun _ => exists_respond _ _ _
  | pterd base vpn =>
    refine exists_whenReady fun hr => ?_
    obtain ⟨m, hm, -⟩ := hc.of_ready hr
    split
    · exact exists_withMemories hm (exists_respond _ _ _)
    · exact exists_respond _ _ _
  | csrrd n => exact hc.exists_csrrd n
  | teardown => exact exists_respond _ _ _

/-- From a consistent state the engine never stops, whatever the host drives. -/
theorem State.Consistent.exists_step {s : State} (hc : s.Consistent) : ∃ t, step s = .next t := by
  cases hport : s.port with
  | nil => exact ⟨_, step_nil hport⟩
  | cons x rest =>
    rw [step_cons hport]
    cases x with
    | idle => exact ⟨_, rfl⟩
    | notReady w => exact ⟨_, rfl⟩
    | reset w => exact ⟨_, rfl⟩
    | command w =>
      rw [takeInput_command]
      cases hd : decode w with
      | error e => exact ⟨_, runWord_error hd _⟩
      | ok i => rw [runWord_ok hd]; exact (hc.dropInput rest).exists_exec i

/-- Settles O34. -/
theorem resetIsConsistent : Obligations.ResetIsConsistent :=
  fun _ _ => ⟨rfl, rfl, rfl, rfl, rfl, rfl, rfl⟩

/-- Every state the host can bring the engine to is consistent. -/
theorem Reachable.consistent {s : State} (hs : Reachable s) : s.Consistent := by
  induction hs with
  | reset inputs word => exact resetIsConsistent inputs word
  | step _ h ih => exact stepKeepsConsistency _ _ ih h

/-- Settles O37: reachable states are consistent, and from a consistent state there is a next one. -/
theorem noInputStopsTheEngine : Obligations.NoInputStopsTheEngine :=
  fun _ hs => ⟨hs.consistent, hs.consistent.exists_step⟩

end Sys2Proof.Machine
end

section
/-!
PROOFS. What the invariants say, in the words of 10_state.md R40 to R47: ownership of frames and slots, the victim queue,
the ranges, the user flag, the dead tables, and the free queues that never grow.
-/

namespace Sys2Proof.Machine

/-- Where `filterMap` gives no repeats, two different elements give different results. -/
theorem ne_of_nodup_filterMap {α β : Type} {l : List α} {f : α → Option β} (h : (l.filterMap f).Nodup) {a b : α}
    (ha : a ∈ l) (hb : b ∈ l) (hne : a ≠ b) {x y : β} (hx : f a = some x) (hy : f b = some y) : x ≠ y := by
  have hp := List.pairwise_filterMap.mp h
  have hsymm : Std.Symm fun a b : α => ∀ x, f a = some x → ∀ y, f b = some y → x ≠ y :=
    ⟨fun _ _ h x hx y hy => (h y hy x hx).symm⟩
  exact hp.forall ha hb hne x hx y hy

/-- A PTE with bit 0 set names the frame of its bits 7:2 (40_pte_codec.md R120). -/
theorem presentFrame_of_bit {m : Memories} {loc : PteLocation} (h : (m.readPte loc).getLsbD 0 = true) :
    presentFrame m loc = some (frameAddr ((m.readPte loc).extractLsb' 2 6)) := by
  simp [presentFrame, pteDecode, h]

/-- Free, mapped and page-table frames are all frames, each once (10_state.md R41). -/
theorem PagingHeld.owned_frames {s : State} {m : Memories} (h : PagingHeld [] s m) :
    (s.fq ++ presentFrames s m ++ tableFrames s).Perm (frameInit s.pmemSize.toNat) := by
  simpa using h.frames

/-- Settles O38: the frames of the present live PTEs are without repeats. -/
theorem noDoubleMapping : Obligations.NoDoubleMapping := by
  intro s m hc hm a ha b hb hne hpa hpb heq
  have hnodup := (hc.paging hm).frames_nodup
  simp only [List.nodup_append] at hnodup
  obtain ⟨⟨⟨-, hpresent, -⟩, -⟩, -⟩ := hnodup
  exact ne_of_nodup_filterMap hpresent ha hb hne (presentFrame_of_bit hpa) (presentFrame_of_bit hpb)
    (congrArg frameAddr heq)

/-- Settles O39: the three sets together are a permutation of the frames `INIT` makes free. -/
theorem frameOwnership : Obligations.FrameOwnership := by
  intro s m hc hm
  have h := hc.paging hm
  refine ⟨?_, h.owned_frames.nodup_iff.mpr (frameInit_nodup h.pmemSize_le),
    fun f => h.owned_frames.mem_iff.trans (mem_frameInit h.pmemSize_le)⟩
  have hcount := h.count
  rw [h.victims.length_eq] at hcount
  exact hcount

/-- Settles O40: free and used slots together are a permutation of the slots `INIT` makes free. -/
theorem slotOwnership : Obligations.SlotOwnership := by
  intro s m hc hm
  have h := hc.paging hm
  exact ⟨h.slots.nodup_iff.mpr (swapInit_nodup h.swapSize_le),
    fun a => h.slots.mem_iff.trans (mem_swapInit h.swapSize_le), h.count_slots⟩

/-- A command other than `INIT` in `UNINIT` and `TEARDOWN` leaves `FQ` and `SQ` a tail of what they were, takes at most
the head off `VQ` and appends at most one location. -/
theorem Effect.queues {s t : State} {i : Instr} (he : Effect s i t) (hu : s.lc ≠ .uninit) (hnt : i ≠ .teardown) :
    t.fq <:+ s.fq ∧ t.sq <:+ s.sq ∧
      ∃ (k : Nat) (new : List PteLocation), t.vq = s.vq.drop k ++ new ∧ k ≤ 1 ∧ new.length ≤ 1 := by
  have hkept : s.vq = s.vq.drop 0 ++ [] := by simp
  cases he with
  | response i st v => exact ⟨List.suffix_refl _, List.suffix_refl _, 0, [], hkept, by simp⟩
  | failed i hi hr => exact ⟨List.suffix_refl _, List.suffix_refl _, 0, [], hkept, by simp⟩
  | initialised pm sw huninit => exact absurd huninit hu
  | cleared => exact absurd rfl hnt
  | stored m pa data hr hm => exact ⟨List.suffix_refl _, List.suffix_refl _, 0, [], hkept, by simp⟩
  | admitted pid f s1 s2 hr hn ho ha =>
    obtain ⟨-, -, hfq, hsq, k, hk, hvq⟩ := obtainFrame_keeps ho
    obtain ⟨m, -, -, rfl⟩ := addProcess_ok.mp ha
    exact ⟨hfq, hsq, k, [], by simp [hvq], hk, by simp⟩
  | bound pid va b m f s1 s2 hr hb hm hu ho hbind =>
    obtain ⟨-, -, hfq, hsq, k, hk, hvq⟩ := obtainFrame_keeps ho
    obtain ⟨n, -, -, rfl⟩ := bindFrame_ok.mp hbind
    exact ⟨hfq, hsq, k, [pteLoc b (vpnOfVa va)], by simp [hvq], hk, by simp⟩
  | swappedIn pid va b m x w vq s2 hr hb hm hx hv hi =>
    obtain ⟨n, p, u, -, -, -, -, -, rfl⟩ := swapIn_ok.mp hi
    exact ⟨List.suffix_refl _, List.suffix_refl _, 1, [pteLoc b (vpnOfVa va)], by simp [hv], by simp⟩

/-- Settles O41: the queue is a permutation of the present live locations, and every effect works on it first in,
first out. -/
theorem victimQueueDiscipline : Obligations.VictimQueueDiscipline := by
  refine ⟨fun s m hc hm => ?_, fun i s t hu hi h => ?_⟩
  · have h := hc.paging hm
    exact ⟨h.victims.nodup_iff.mpr (h.liveLocs_nodup.filter _), fun loc => h.mem_vq, h.victims.length_eq⟩
  · obtain ⟨-, -, hvq⟩ := (exec_effect h).queues hu hi
    exact hvq

/-- Settles O42: each range is that of the frames and slots `INIT` makes free, and the lengths add up to `NFRAMES`. -/
theorem rangeInvariants : Obligations.RangeInvariants := by
  intro s m hc hm
  have h := hc.paging hm
  have hcount := h.count
  have hsize := h.pmemSize_le
  refine ⟨fun f hf => (h.mem_frames (by simp [hf])).2, fun b hb => (h.base_range hb).symm, fun loc hl p u hp => ?_,
    fun a ha => ?_, fun loc hl x hx => ?_, h.bases_nodup, h.pids, by omega, by omega, by omega⟩
  · have hr := h.presentFrame_range hl (presentFrame_of_present hp)
    rw [frameAddr_toNat] at hr
    omega
  · have hr := h.slot_range (List.mem_append_left _ ha)
    omega
  · have hr := slotInRange_iff.mp (h.swapped_slot hl hx)
    rw [slotAddr_toNat] at hr
    omega

/-- Settles O43: reachable states are consistent. -/
theorem userFlagStaysZero : Obligations.UserFlagStaysZero :=
  fun _ _ hs hm loc hl hp => (hs.consistent.paging hm).userFlag loc hl hp

/-- Settles O44: reachable states are consistent. -/
theorem deadTablesStayZero : Obligations.DeadTablesStayZero :=
  fun _ _ hs hm loc hl => (hs.consistent.paging hm).deadZero loc hl

/-- A taken command word leaves `FQ` and `SQ` a tail of what they were. -/
theorem Effect.freeQueues {s t : State} {i : Instr} (he : Effect s i t) (hu : s.lc ≠ .uninit) :
    t.fq <:+ s.fq ∧ t.sq <:+ s.sq := by
  by_cases hi : i = .teardown
  · subst hi
    cases he with
    | response => exact ⟨List.suffix_refl _, List.suffix_refl _⟩
    | failed => exact ⟨List.suffix_refl _, List.suffix_refl _⟩
    | cleared => exact ⟨List.nil_suffix, List.nil_suffix⟩
  · obtain ⟨hfq, hsq, -⟩ := he.queues hu hi
    exact ⟨hfq, hsq⟩

/-- Settles O45: every input keeps, clears or takes heads off the free queues; and a swapped live PTE is a used slot,
with which no frame is free. -/
theorem freeQueuesNeverGrow : Obligations.FreeQueuesNeverGrow := by
  refine ⟨fun s t hu h => ?_, fun s m hc hm ⟨loc, hl, x, hx⟩ => ?_⟩
  · cases hport : s.port with
    | nil =>
      cases (step_nil hport).symm.trans h
      exact ⟨List.suffix_refl _, List.suffix_refl _⟩
    | cons y rest =>
      rw [step_cons hport] at h
      cases y with
      | idle => cases h; exact ⟨List.suffix_refl _, List.suffix_refl _⟩
      | notReady w => cases h; exact ⟨List.suffix_refl _, List.suffix_refl _⟩
      | reset w => cases h; exact ⟨List.nil_suffix, List.nil_suffix⟩
      | command w =>
        obtain ⟨i, he, -⟩ := runWord_effect h
        exact he.freeQueues hu
  · have hused : slotAddr x ∈ swappedSlots s m := List.mem_filterMap.mpr ⟨loc, hl, swappedSlot_of_swapped hx⟩
    exact (hc.paging hm).swappedNoFree (List.ne_nil_of_mem hused)

end Sys2Proof.Machine
end

section
/-!
PROOFS. The lifecycle register (10_state.md R23) and the reset table (R37).
-/

namespace Sys2Proof.Machine

/-- Only the status `NO_CAPACITY` gives the response word 0x2000 (30_encoding.md R95, R96). -/
theorem status_of_noCapacity_word {st : Status} {v : BitVec 12} (h : responseWord st v = 0x2000) :
    st = .noCapacity := by
  have hcode : statusCode st = 2 := by
    have := congrArg (BitVec.extractLsb' 12 4) h
    rwa [responseWord, BitVec.extractLsb'_append_eq_left] at this
  cases st with
  | noCapacity => rfl
  | ok | fault | allocError | notFound | refused => exact absurd hcode (by decide)

/-- The lifecycle after each effect of a command, and the response where it changes (10_state.md R23). -/
theorem Effect.lifecycle {s t : State} {i : Instr} (he : Effect s i t) :
    t.lc = s.lc ∨
    (s.lc = .uninit ∧ t.lc = .ready ∧ (∃ pm sw, i = .init pm sw) ∧ t.rsp = 0x0000) ∨
    (s.lc = .ready ∧ t.lc = .failed ∧ ((∃ pid, i = .admitProc pid) ∨ ∃ pid va, i = .resolve pid va) ∧ t.rsp = 0x2000) ∨
    (t.lc = .uninit ∧ i = .teardown) := by
  cases he with
  | response i st v => exact .inl rfl
  | failed i hi hr => exact .inr (.inr (.inl ⟨hr, rfl, hi, rfl⟩))
  | initialised pm sw hu => exact .inr (.inl ⟨hu, rfl, ⟨pm, sw, rfl⟩, rfl⟩)
  | cleared => exact .inr (.inr (.inr ⟨rfl, rfl⟩))
  | stored m pa data hr hm => exact .inl rfl
  | admitted pid f s1 s2 hr hn ho ha =>
    obtain ⟨m, -, -, rfl⟩ := addProcess_ok.mp ha
    exact .inl (obtainFrame_keeps ho).1
  | bound pid va b m f s1 s2 hr hb hm hu ho hbind =>
    obtain ⟨n, -, -, rfl⟩ := bindFrame_ok.mp hbind
    exact .inl (obtainFrame_keeps ho).1
  | swappedIn pid va b m x w vq s2 hr hb hm hx hv hi =>
    obtain ⟨n, p, u, -, -, -, -, -, rfl⟩ := swapIn_ok.mp hi
    exact .inl rfl

/-- Whenever the answer is `NO_CAPACITY` the engine has failed. -/
theorem Effect.failed_of_noCapacity {s t : State} {i : Instr} (he : Effect s i t) (h : t.rsp = 0x2000) :
    t.lc = .failed := by
  cases he with
  | response i st v hst => exact absurd (status_of_noCapacity_word h) hst
  | failed => rfl
  | initialised | cleared | stored | admitted | bound | swappedIn => cases status_of_noCapacity_word h

/-- Settles O11, by the effects of a command; `CSRRD 0` answers in every state. -/
theorem lifecycleTransitions : Obligations.LifecycleTransitions := by
  refine ⟨fun i s t h => (exec_effect h).lifecycle, fun i s t h => (exec_effect h).failed_of_noCapacity, fun s => ?_, rfl⟩
  have hexec : exec (.csrrd 0) s = .next (s.answer .ok ((lifecycleCode s.lc).setWidth 12)) := rfl
  rw [hexec]
  cases hlc : s.lc <;>
    · simp only [State.answer, hlc]
      rfl

/-- An `INIT` that answers `OK` has built the paging state. -/
theorem execInit_ok {pm sw : BitVec 12} {s t : State} (h : exec (.init pm sw) s = .next t) (hr : t.rsp = 0x0000) :
    pm.toNat ≤ 256 ∧ sw.toNat ≤ 512 ∧ t = (s.initialised pm sw).answer .ok 0 := by
  simp only [exec, execInit, whenUninit] at h
  split at h
  · split at h
    · cases h; exact absurd hr (by simp [responseWord, statusCode])
    · rename_i hsizes
      cases h
      rw [Config.pmemCap, Config.swapCap] at hsizes
      exact ⟨by omega, by omega, rfl⟩
  · cases h; exact absurd hr (by simp [responseWord, statusCode])

/-- Settles O9: the three columns are `State.reset`, `State.cleared` and `State.initialised`. -/
theorem resetTeardownAndInitValues : Obligations.ResetTeardownAndInitValues := by
  refine ⟨⟨rfl, rfl, rfl, rfl, rfl, rfl, rfl, rfl⟩, fun s => rfl, fun s t pm sw h hr => ?_⟩
  obtain ⟨hpm, hsw, rfl⟩ := execInit_ok h hr
  refine ⟨rfl, ?_, ?_, rfl, rfl, rfl, rfl, Memories.zeroed, rfl, Memories.readPmem_zeroed, Memories.readSwap_zeroed,
    Memories.readPte_zeroed⟩
  · simp only [answer_pmemSize, initialised_pmemSize, BitVec.toNat_setWidth]; omega
  · simp only [answer_swapSize, initialised_swapSize, BitVec.toNat_setWidth]; omega

end Sys2Proof.Machine
end

section
/-!
PROOFS. States that break an invariant a rule relies on fault with the reason of 10_state.md R48 and log entry 5.
-/

namespace Sys2Proof.Machine

/-! ### The shared operations where an invariant is broken -/

theorem whenReady_of_ready {s : State} (hr : s.lc = .ready) (body : Out) : whenReady s body = body := if_pos hr

theorem withMemories_none {s : State} (hm : s.mem = none) (body : Memories → Out) :
    withMemories s body = breakStep .memoryAbsent := by simp only [withMemories, hm]

theorem withMemories_some {s : State} {m : Memories} (hm : s.mem = some m) (body : Memories → Out) :
    withMemories s body = body m := by simp only [withMemories, hm]

theorem victimPfn_not_present {s : State} {m : Memories} {v : PteLocation} (h : (m.readPte v).getLsbD 0 = false) :
    victimPfn s m v = .error .victimNotPresent := by
  unfold victimPfn
  cases hd : pteDecode (m.readPte v) with
  | present p u => rw [pteDecode_present_bit hd] at h; cases h
  | swapped x => rfl
  | unmapped => rfl

theorem evictTo_victim_error {v : PteLocation} {a : SwapAddr} {s : State} {m : Memories} {why : Broken}
    (hm : s.mem = some m) (hv : victimPfn s m v = .error why) : evictTo v a s = .error why := by
  simp only [evictTo, hm, hv]

theorem evictTo_slot_error {v : PteLocation} {a : SwapAddr} {s : State} {m : Memories} {p : Pfn}
    (hm : s.mem = some m) (hv : victimPfn s m v = .ok p) (ha : ¬ slotInRange s a = true) :
    evictTo v a s = .error .slotOutOfRange := by
  simp only [evictTo, hm, hv, if_neg ha]

theorem swapIn_victim_error {e v : PteLocation} {x : SlotIndex} {s : State} {m : Memories} {why : Broken}
    (hm : s.mem = some m) (hv : victimPfn s m v = .error why) : swapIn e x v s = .error why := by
  simp only [swapIn, hm, hv]

theorem swapIn_slot_error {e v : PteLocation} {x : SlotIndex} {s : State} {m : Memories} {p : Pfn}
    (hm : s.mem = some m) (hv : victimPfn s m v = .ok p) (ha : ¬ slotInRange s (slotAddr x) = true) :
    swapIn e x v s = .error .slotOutOfRange := by
  simp only [swapIn, hm, hv, if_neg ha]

theorem obtainFrame_frame_broken {s : State} {f : PhysAddr} {rest : List PhysAddr} (hfq : s.fq = f :: rest)
    (hr : ¬ frameInRange s f = true) : obtainFrame s = .broken .frameOutOfRange := by
  simp only [obtainFrame, frameAcquire, hfq, if_neg hr]

theorem obtainFrame_evict_broken {s : State} {v : PteLocation} {vq : List PteLocation} {a : SwapAddr}
    {sq : List SwapAddr} {why : Broken} (hfq : s.fq = []) (hvq : s.vq = v :: vq) (hsq : s.sq = a :: sq)
    (he : evictTo v a { s with vq := vq, sq := sq } = .error why) : obtainFrame s = .broken why := by
  rw [hfq] at he
  simp only [obtainFrame, frameAcquire, victimSelect, swapAcquire, hfq, hvq, hsq, he]

/-! ### `RESOLVE` by what the PTE says -/

theorem exec_resolve_unmapped {pid : Pid} {va : VirtAddr} {s : State} {m : Memories} {b : PhysAddr} (hr : s.lc = .ready)
    (hb : procLookup s.proc pid = some b) (hm : s.mem = some m) (hu : m.readPte (pteLoc b (vpnOfVa va)) = 0) :
    exec (.resolve pid va) s = resolveUnmapped (pteLoc b (vpnOfVa va)) s := by
  simp only [exec, execResolve, whenReady_of_ready hr, hb, withMemories_some hm, unmapped_of_zero hu]

theorem exec_resolve_swapped {pid : Pid} {va : VirtAddr} {s : State} {m : Memories} {b : PhysAddr} {slot : SlotIndex}
    (hr : s.lc = .ready) (hb : procLookup s.proc pid = some b) (hm : s.mem = some m)
    (hx : pteDecode (m.readPte (pteLoc b (vpnOfVa va))) = .swapped slot) :
    exec (.resolve pid va) s = resolveSwapped (pteLoc b (vpnOfVa va)) slot s := by
  simp only [exec, execResolve, whenReady_of_ready hr, hb, withMemories_some hm, hx]

theorem resolveUnmapped_broken {e : PteLocation} {s : State} {why : Broken} (h : obtainFrame s = .broken why) :
    resolveUnmapped e s = .fault (.invariantBroken why) := by simp only [resolveUnmapped, h, breakStep]

theorem resolveSwapped_broken {e v : PteLocation} {vq : List PteLocation} {x : SlotIndex} {s : State} {why : Broken}
    (hvq : s.vq = v :: vq) (h : swapIn e x v { s with vq := vq } = .error why) :
    resolveSwapped e x s = .fault (.invariantBroken why) := by
  simp only [resolveSwapped, victimSelect, hvq, h, orBreak, breakStep]

/-- Settles O52: each broken ownership is found by the operation that relies on it, whose reason `RESOLVE` faults
with. -/
theorem brokenOwnershipFaults : Obligations.BrokenOwnershipFaults := by
  intro pid va s m b hr hb hm
  refine ⟨?victimOfEviction, ?victimOfSwapIn, ?slotOfPte, ?slotOfQueue, ?frameOfQueue⟩
  case victimOfEviction =>
    intro v vq a sq hu hfq hvq hsq hv
    rw [exec_resolve_unmapped hr hb hm hu]
    exact resolveUnmapped_broken
      (obtainFrame_evict_broken hfq hvq hsq (evictTo_victim_error hm (victimPfn_not_present hv)))
  case victimOfSwapIn =>
    intro v vq slot hx hvq hv
    rw [exec_resolve_swapped hr hb hm hx]
    exact resolveSwapped_broken hvq (swapIn_victim_error hm (victimPfn_not_present hv))
  case slotOfPte =>
    intro v vq slot p u hx hvq hp hpfn hslot
    have hout : ¬ slotInRange s (slotAddr slot) = true := by rw [slotInRange_iff, slotAddr_toNat]; omega
    rw [exec_resolve_swapped hr hb hm hx]
    exact resolveSwapped_broken hvq (swapIn_slot_error hm (victimPfn_ok.mpr ⟨⟨u, hp⟩, hpfn⟩) hout)
  case slotOfQueue =>
    intro v vq a sq p u hu hfq hvq hsq hp hpfn hslot
    have hout : ¬ slotInRange s a = true := by rw [slotInRange_iff]; omega
    rw [exec_resolve_unmapped hr hb hm hu]
    exact resolveUnmapped_broken (obtainFrame_evict_broken hfq hvq hsq
      (evictTo_slot_error hm (victimPfn_ok.mpr ⟨⟨u, hp⟩, hpfn⟩) hout))
  case frameOfQueue =>
    intro f rest hu hfq hframe
    have hout : ¬ frameInRange s f = true := by rw [frameInRange_iff]; omega
    rw [exec_resolve_unmapped hr hb hm hu]
    exact resolveUnmapped_broken (obtainFrame_frame_broken hfq hout)

/-! ### Absent memories, and queues and tables beyond the hardware's -/

theorem countRegister_error {most len : Nat} (h : most < len) : countRegister most len = .error .countOverCapacity :=
  if_neg (Nat.not_le_of_lt h)

theorem addProcess_full {pid : Pid} {f : PhysAddr} {s : State} {m : Memories} (hm : s.mem = some m)
    (h : 64 ≤ s.proc.length) : addProcess pid f s = .error .processTableFull := by
  simp only [addProcess, hm, if_neg (show ¬ s.proc.length < Config.procMax from Nat.not_lt_of_le h)]

theorem bindFrame_full {e : PteLocation} {f : PhysAddr} {s : State} {m : Memories} (hm : s.mem = some m)
    (h : 64 ≤ s.vq.length) : bindFrame e f s = .error .victimQueueFull := by
  simp only [bindFrame, hm, victimEnqueue,
    if_neg (show ¬ s.vq.length < Config.victimQueueMax from Nat.not_lt_of_le h)]

/-- A free frame in range is what a request for a frame gives. -/
theorem obtainFrame_free {s : State} {f : PhysAddr} {rest : List PhysAddr} (hfq : s.fq = f :: rest)
    (hal : f.toNat % 4 = 0) (hlt : f.toNat / 4 < s.pmemSize.toNat / 4) :
    obtainFrame s = .frame f { s with fq := rest } :=
  obtainFrame_frame.mpr (.inl ⟨rest, hfq, frameInRange_iff.mpr ⟨hal, hlt⟩, rfl⟩)

theorem exec_resolve_memoryAbsent {pid : Pid} {va : VirtAddr} {s : State} (hr : s.lc = .ready) (hm : s.mem = none)
    (hp : pid ∈ s.proc.map (·.pid)) : exec (.resolve pid va) s = .fault (.invariantBroken .memoryAbsent) := by
  cases hb : procLookup s.proc pid with
  | none => exact absurd hp (procLookup_none.mp hb)
  | some b => simp only [exec, execResolve, whenReady_of_ready hr, hb, withMemories_none hm, breakStep]

theorem exec_admit_processTableFull {pid : Pid} {f : PhysAddr} {rest : List PhysAddr} {s : State} {m : Memories}
    (hr : s.lc = .ready) (hp : pid ∉ s.proc.map (·.pid)) (hm : s.mem = some m) (hfq : s.fq = f :: rest)
    (hal : f.toNat % 4 = 0) (hlt : f.toNat / 4 < s.pmemSize.toNat / 4) (hfull : 64 ≤ s.proc.length) :
    exec (.admitProc pid) s = .fault (.invariantBroken .processTableFull) := by
  have ha : addProcess pid f { s with fq := rest } = .error .processTableFull := addProcess_full hm hfull
  simp only [exec, execAdmit, whenReady_of_ready hr, procLookup_none.mpr hp, admitNew, obtainFrame_free hfq hal hlt,
    ha, orBreak, breakStep]

theorem resolveUnmapped_victimQueueFull {e : PteLocation} {f : PhysAddr} {rest : List PhysAddr} {s : State}
    {m : Memories} (hm : s.mem = some m) (hfq : s.fq = f :: rest) (hal : f.toNat % 4 = 0)
    (hlt : f.toNat / 4 < s.pmemSize.toNat / 4) (hfull : 64 ≤ s.vq.length) :
    resolveUnmapped e s = .fault (.invariantBroken .victimQueueFull) := by
  have hbind : bindFrame e f { s with fq := rest } = .error .victimQueueFull := bindFrame_full hm hfull
  simp only [resolveUnmapped, obtainFrame_free hfq hal hlt, hbind, orBreak, breakStep]

/-- `CSRRD` of a count register whose queue or table is too long faults. -/
theorem exec_csrrd_overCapacity {n : BitVec 8} {s : State} {most len : Nat}
    (hn : csrRead s n = some (countRegister most len)) (h : most < len) :
    exec (.csrrd n) s = .fault (.invariantBroken .countOverCapacity) := by
  simp only [exec, execCsrrd, hn, countRegister_error h, orBreak, breakStep]

/-- Settles O53: the memories are asked for after the operand's bound, the room after the frame. -/
theorem absentMemoryAndOverfullQueuesFault : Obligations.AbsentMemoryAndOverfullQueuesFault := by
  intro s
  refine ⟨?pmem, ?swap, ?ptram, fun pid va hr hm hp => exec_resolve_memoryAbsent hr hm hp,
    exec_csrrd_overCapacity rfl, exec_csrrd_overCapacity rfl, exec_csrrd_overCapacity rfl,
    exec_csrrd_overCapacity rfl,
    fun pid f rest m hr hp hm hfq hal hlt hfull => exec_admit_processTableFull hr hp hm hfq hal hlt hfull, ?queue⟩
  case pmem =>
    intro pa hr hm hpa
    have hin : ¬ s.pmemSize.toNat ≤ pa.toNat := Nat.not_le_of_lt hpa
    constructor
    · simp only [exec, execMemrd, whenReady_of_ready hr, if_neg hin, withMemories_none hm, breakStep]
    · intro data
      simp only [exec, execMemwr, whenReady_of_ready hr, if_neg hin, withMemories_none hm, breakStep]
  case swap =>
    intro sa hr hm hsa
    simp only [exec, execSwrd, whenReady_of_ready hr, if_neg (Nat.not_le_of_lt hsa), withMemories_none hm, breakStep]
  case ptram =>
    intro base hr hm hbase
    have hlive := liveBase_iff.mpr hbase
    constructor
    · intro va
      simp only [exec, execTranslate, whenReady_of_ready hr, if_pos hlive, withMemories_none hm, breakStep]
    · intro vpn
      simp only [exec, execPterd, whenReady_of_ready hr, if_pos hlive, withMemories_none hm, breakStep]
  case queue =>
    intro pid va b f rest m hr hb hm hu hfq hal hlt hfull
    rw [exec_resolve_unmapped hr hb hm hu]
    exact resolveUnmapped_victimQueueFull hm hfq hal hlt hfull

end Sys2Proof.Machine
end

section
/-!
PROOFS. The commands that only read (20_memory.md R64; 45_translator.md R206; 60_exceptions.md R257).
-/

namespace Sys2Proof.Machine

/-- Settles O46: of the effects a command can have, a reading command has only the response. -/
theorem readersChangeOnlyTheResponse : Obligations.ReadersChangeOnlyTheResponse := by
  intro i s t hi h
  cases exec_effect h with
  | response => rfl
  | failed _ hfailing => rcases hfailing with ⟨pid, rfl⟩ | ⟨pid, va, rfl⟩ <;> simp at hi
  | initialised | cleared | stored | admitted | bound | swappedIn => simp at hi

end Sys2Proof.Machine
end

section
/-!
PROOFS. The bytes that belong to no page (20_memory.md R65; 43_process_table.md R174): no eviction, bind or swap-in
touches one, and those of `SWAP` keep the 0 that `INIT` writes.
-/

namespace Sys2Proof.Machine

/-! ### Unowned bytes -/

/-- A byte of `PMEM` that belongs to no page: beyond the last whole frame, or in a page-table frame
(43_process_table.md R174). -/
def UnownedPmem (s : State) (x : PhysAddr) : Prop :=
  s.pmemSize.toNat / 4 ≤ x.toNat / 4 ∨ ∃ b ∈ tableFrames s, ∃ k, x = frameByte b k

/-- A byte of `SWAP` that belongs to no page: in slot 0, or beyond the last whole slot (20_memory.md R65). -/
def UnownedSwap (s : State) (x : SwapAddr) : Prop :=
  x.toNat / 4 = 0 ∨ s.swapSize.toNat / 4 ≤ x.toNat / 4

/-- The memories `n` hold in each byte unowned in `s` what `m` hold. -/
structure KeepsUnowned (s : State) (m n : Memories) : Prop where
  pmem : ∀ x, UnownedPmem s x → n.readPmem x = m.readPmem x
  swap : ∀ x, UnownedSwap s x → n.readSwap x = m.readSwap x

theorem KeepsUnowned.refl (s : State) (m : Memories) : KeepsUnowned s m m := ⟨fun _ _ => rfl, fun _ _ => rfl⟩

theorem KeepsUnowned.trans {s : State} {l m n : Memories} (h1 : KeepsUnowned s l m) (h2 : KeepsUnowned s m n) :
    KeepsUnowned s l n :=
  ⟨fun x hx => (h2.pmem x hx).trans (h1.pmem x hx), fun x hx => (h2.swap x hx).trans (h1.swap x hx)⟩

/-- Which bytes are unowned depends on the sizes and the process table alone. -/
theorem KeepsUnowned.congr {s t : State} {m n : Memories} (h : KeepsUnowned t m n) (hpm : t.pmemSize = s.pmemSize)
    (hsw : t.swapSize = s.swapSize) (hproc : t.proc = s.proc) : KeepsUnowned s m n := by
  refine ⟨fun x hx => h.pmem x ?_, fun x hx => h.swap x ?_⟩
  · simpa only [UnownedPmem, tableFrames, hpm, hproc] using hx
  · simpa only [UnownedSwap, hsw] using hx

/-! ### No frame or slot of a page holds an unowned byte -/

section Held

variable {held : List PhysAddr} {s : State} {m : Memories}

/-- The frame of a present page, or one held for a page, is no page-table frame. -/
theorem PagingHeld.page_not_table (h : PagingHeld held s m) {f : PhysAddr} (hf : f ∈ presentFrames s m ∨ f ∈ held) :
    f ∉ tableFrames s := by
  intro htable
  have hnodup := h.frames_nodup
  simp only [List.nodup_append] at hnodup
  obtain ⟨⟨-, -, hpresent⟩, -, hheld⟩ := hnodup
  rcases hf with hf | hf
  · exact hpresent f (List.mem_append_right _ hf) f htable rfl
  · exact hheld f (List.mem_append_right _ htable) f hf rfl

theorem PagingHeld.unowned_ne_frameByte (h : PagingHeld held s m) {f : PhysAddr}
    (hf : f ∈ presentFrames s m ∨ f ∈ held) {x : PhysAddr} (hx : UnownedPmem s x) (i : BitVec 2) :
    x ≠ frameByte f i := by
  intro hxf
  obtain ⟨halign, hlt⟩ := h.mem_frames (f := f) (by rcases hf with hf | hf <;> simp [hf])
  have hquot : x.toNat / 4 = f.toNat / 4 := (exists_frameByte halign).mp ⟨i, hxf⟩
  rcases hx with hbeyond | ⟨b, hb, hk⟩
  · omega
  · obtain ⟨hbalign, -⟩ := h.base_range hb
    have hquot' : x.toNat / 4 = b.toNat / 4 := (exists_frameByte hbalign).mp hk
    have hbf : b = f := BitVec.eq_of_toNat_eq (by omega)
    exact h.page_not_table hf (hbf ▸ hb)

end Held

theorem unowned_ne_slotByte {s : State} {a : SwapAddr} (ha : slotInRange s a = true) {x : SwapAddr}
    (hx : UnownedSwap s x) (i : BitVec 2) : x ≠ slotByte a i := by
  intro hxa
  obtain ⟨halign, hpos, hlt⟩ := slotInRange_iff.mp ha
  have hquot : x.toNat / 4 = a.toNat / 4 := (exists_slotByte halign).mp ⟨i, hxa⟩
  rcases hx with hzero | hbeyond <;> omega

/-! ### What each operation on the memories keeps -/

section Held

variable {held : List PhysAddr} {s : State} {m : Memories}

theorem PagingHeld.evicted_keepsUnowned (h : PagingHeld held s m) {v : PteLocation} {p : Pfn} {a : SwapAddr}
    (hp : frameAddr p ∈ presentFrames s m) (ha : slotInRange s a = true) :
    KeepsUnowned s m (evictedMemories v p a m) where
  pmem _ hx := evictedMemories_pmem_other v p a h.wf (h.unowned_ne_frameByte (.inl hp) hx)
  swap _ hx := evictedMemories_swap_other v p a h.wf (unowned_ne_slotByte ha hx)

theorem PagingHeld.bound_keepsUnowned {f : PhysAddr} (h : PagingHeld (f :: held) s m) (e : PteLocation) :
    KeepsUnowned s m (boundMemories e f m) where
  pmem x hx := by
    rw [boundMemories_readPmem e f h.wf, if_neg]
    rintro ⟨i, hi⟩
    exact h.unowned_ne_frameByte (.inr List.mem_cons_self) hx i hi
  swap _ _ := rfl

theorem PagingHeld.swappedIn_keepsUnowned (h : PagingHeld held s m) {e v : PteLocation} {p : Pfn} {x : SlotIndex}
    (hp : frameAddr p ∈ presentFrames s m) (hx : slotInRange s (slotAddr x) = true) :
    KeepsUnowned s m (swappedInMemories e v p x m) where
  pmem _ hy := swappedInMemories_pmem_other e v p x h.wf (h.unowned_ne_frameByte (.inl hp) hy)
  swap _ hy := swappedInMemories_swap_other e v p x h.wf (unowned_ne_slotByte hx hy)

/-- A page table lies in `PTRAM`. -/
theorem zeroTable_keepsUnowned (s : State) (f : PhysAddr) (h : m.wf) : KeepsUnowned s m (zeroTable f m) where
  pmem _ _ := by simp only [Memories.readPmem, zeroTable_pmem f h]
  swap _ _ := by simp only [Memories.readSwap, zeroTable_swap f h]

/-- The frame of the page at a location of the victim queue. -/
theorem PagingHeld.victim_frame (h : PagingHeld held s m) {v : PteLocation} (hv : v ∈ s.vq) {p : Pfn} {u : Bool}
    (hp : pteDecode (m.readPte v) = .present p u) : frameAddr p ∈ presentFrames s m := by
  obtain ⟨hl, -⟩ := h.mem_vq.mp hv
  exact List.mem_filterMap.mpr ⟨v, hl, presentFrame_of_present hp⟩

theorem obtainFrame_sizes {t : State} {f : PhysAddr} (ho : obtainFrame s = .frame f t) :
    t.pmemSize = s.pmemSize ∧ t.swapSize = s.swapSize := by
  rcases obtainFrame_frame.mp ho with ⟨rest, -, -, rfl⟩ | ⟨v, vq, a, sq, -, -, -, he⟩
  · exact ⟨rfl, rfl⟩
  · obtain ⟨n, p, u, -, -, -, -, -, rfl⟩ := evictTo_ok.mp he
    exact ⟨rfl, rfl⟩

/-- Obtaining a frame evicts at most the page of the oldest victim into a free slot. -/
theorem PagingHeld.obtain_keepsUnowned (h : PagingHeld held s m) (hm : s.mem = some m) {t : State} {n : Memories}
    {f : PhysAddr} (ho : obtainFrame s = .frame f t) (hn : t.mem = some n) : KeepsUnowned s m n := by
  rcases obtainFrame_frame.mp ho with ⟨rest, -, -, rfl⟩ | ⟨v, vq, a, sq, -, hvq, -, he⟩
  · cases hm.symm.trans hn
    exact KeepsUnowned.refl s m
  · obtain ⟨m', p, u, hm', hp, -, ha, -, rfl⟩ := evictTo_ok.mp he
    cases hm'.symm.trans hm
    cases hn
    exact h.evicted_keepsUnowned (h.victim_frame (by simp [hvq]) hp) ha

/-- What keeps the unowned bytes once a frame has been obtained keeps them over the whole command. -/
theorem PagingHeld.keepsUnowned_of_obtain (h : PagingHeld held s m) (hm : s.mem = some m) {t : State} {f : PhysAddr}
    (ho : obtainFrame s = .frame f t) {n l : Memories} (hn : t.mem = some n) (hk : KeepsUnowned t n l) :
    KeepsUnowned s m l := by
  obtain ⟨hpmem, hswap⟩ := obtainFrame_sizes ho
  obtain ⟨-, hproc, -⟩ := obtainFrame_keeps ho
  exact (h.obtain_keepsUnowned hm ho hn).trans (hk.congr hpmem hswap hproc)

end Held

/-! ### What each effect of a command keeps -/

/-- Where the memories of a next state come from: `INIT` built them, or they were there, under the same `SWAP_SIZE`,
and `MEMWR` stored a byte of `PMEM` or every unowned byte is kept. -/
theorem Effect.memories {s t : State} {i : Instr} {n : Memories} (he : Effect s i t) (hc : s.Consistent)
    (hn : t.mem = some n) :
    (s.mem = none ∧ n = Memories.zeroed) ∨
    ∃ m, s.mem = some m ∧ t.swapSize = s.swapSize ∧
      ((∃ pa data, i = .memwr pa data ∧ n = m.writePmem pa data) ∨ KeepsUnowned s m n) := by
  cases he with
  | response i st v => exact .inr ⟨n, hn, rfl, .inr (KeepsUnowned.refl s n)⟩
  | failed i hi hr => exact .inr ⟨n, hn, rfl, .inr (KeepsUnowned.refl s n)⟩
  | initialised pm sw hu =>
    obtain ⟨-, -, hnone, -⟩ := hc.of_uninit hu
    cases hn
    exact .inl ⟨hnone, rfl⟩
  | cleared => cases hn
  | stored m pa data hr hm =>
    cases hn
    exact .inr ⟨m, hm, rfl, .inl ⟨pa, data, rfl, rfl⟩⟩
  | admitted pid f s1 s2 hr hnew ho ha =>
    obtain ⟨m, hm, hp⟩ := hc.of_ready hr
    obtain ⟨m1, hm1, hheld, -⟩ := hp.obtain hm ho
    obtain ⟨m1', hm1', -, rfl⟩ := addProcess_ok.mp ha
    cases hm1'.symm.trans hm1
    cases hn
    have hkeeps := zeroTable_keepsUnowned s1 f hheld.wf
    exact .inr ⟨m, hm, (obtainFrame_sizes ho).2, .inr (hp.keepsUnowned_of_obtain hm ho hm1 hkeeps)⟩
  | bound pid va b m f s1 s2 hr hb hm hu ho hbind =>
    have hp := hc.paging hm
    obtain ⟨m1, hm1, hheld, -⟩ := hp.obtain hm ho
    obtain ⟨m1', hm1', -, rfl⟩ := bindFrame_ok.mp hbind
    cases hm1'.symm.trans hm1
    cases hn
    have hkeeps := hheld.bound_keepsUnowned (pteLoc b (vpnOfVa va))
    exact .inr ⟨m, hm, (obtainFrame_sizes ho).2, .inr (hp.keepsUnowned_of_obtain hm ho hm1 hkeeps)⟩
  | swappedIn pid va b m x w vq s2 hr hb hm hx hv hi =>
    have hp := hc.paging hm
    obtain ⟨m', p, u, hm', hpte, -, hslot, -, rfl⟩ := swapIn_ok.mp hi
    cases hm'.symm.trans hm
    cases hn
    exact .inr ⟨m, hm, rfl, .inr (hp.swappedIn_keepsUnowned (hp.victim_frame (by simp [hv]) hpte) hslot)⟩

/-- Over memories that exist, a command other than `MEMWR` keeps every unowned byte, and `MEMWR` those of `SWAP`. -/
theorem exec_keepsUnowned {i : Instr} {s t : State} {m n : Memories} (hc : s.Consistent) (h : exec i s = .next t)
    (hm : s.mem = some m) (hn : t.mem = some n) :
    (∃ pa data, i = .memwr pa data ∧ n = m.writePmem pa data) ∨ KeepsUnowned s m n := by
  rcases (exec_effect h).memories hc hn with ⟨hnone, -⟩ | ⟨m', hm', -, hkeeps⟩
  · cases hnone.symm.trans hm
  · cases hm'.symm.trans hm
    exact hkeeps

/-! ### The unowned bytes of `SWAP` are 0 -/

/-- The unowned bytes of `SWAP`, where it exists, are as `INIT` leaves them. -/
def UnownedSwapZero (s : State) : Prop := ∀ m, s.mem = some m → ∀ x, UnownedSwap s x → m.readSwap x = 0

theorem UnownedSwapZero.congr {s t : State} (hz : UnownedSwapZero s) (hmem : t.mem = s.mem)
    (hsw : t.swapSize = s.swapSize) : UnownedSwapZero t := by
  simpa only [UnownedSwapZero, UnownedSwap, hmem, hsw] using hz

theorem Effect.unownedSwapZero {s t : State} {i : Instr} (he : Effect s i t) (hc : s.Consistent)
    (hz : UnownedSwapZero s) : UnownedSwapZero t := by
  intro n hn x hx
  rcases he.memories hc hn with ⟨-, rfl⟩ | ⟨m, hm, hsw, hkeeps⟩
  · exact Memories.readSwap_zeroed x
  · have hx : UnownedSwap s x := by simpa only [UnownedSwap, hsw] using hx
    rcases hkeeps with ⟨pa, data, -, rfl⟩ | hkeeps
    · exact hz m hm x hx
    · rw [hkeeps.swap x hx]
      exact hz m hm x hx

theorem step_keeps_unownedSwapZero {s t : State} (hc : s.Consistent) (hz : UnownedSwapZero s)
    (h : step s = .next t) : UnownedSwapZero t := by
  cases hport : s.port with
  | nil =>
    cases (step_nil hport).symm.trans h
    exact hz.congr rfl rfl
  | cons y rest =>
    rw [step_cons hport] at h
    cases y with
    | idle => cases h; exact hz.congr rfl rfl
    | notReady w => cases h; exact hz.congr rfl rfl
    | reset w => cases h; intro n hn; cases hn
    | command w =>
      obtain ⟨i, he, -⟩ := runWord_effect h
      exact he.unownedSwapZero (hc.dropInput rest) (hz.congr rfl rfl)

theorem Reachable.unownedSwapZero {s : State} (hs : Reachable s) : UnownedSwapZero s := by
  induction hs with
  | reset inputs word => intro n hn; cases hn
  | step hs h ih => exact step_keeps_unownedSwapZero hs.consistent ih h

/-- Settles O51: a page's frame and slot hold no unowned byte, so only `MEMWR` can write one of `PMEM` and nothing one
of `SWAP` after `INIT`. -/
theorem unownedBytesStay : Obligations.UnownedBytesStay := by
  refine ⟨fun i s t m n hc h hm hn => ?_, fun s m hs hm x hx => hs.unownedSwapZero m hm x hx⟩
  rcases exec_keepsUnowned hc h hm hn with ⟨pa, data, rfl, rfl⟩ | hkeeps
  · exact ⟨fun hother => absurd rfl (hother pa data), fun x _ => Memories.readSwap_writePmem m pa data x⟩
  · exact ⟨fun _ => ⟨fun x hx => hkeeps.pmem x (.inl hx), fun f hf k => hkeeps.pmem _ (.inr ⟨f, hf, k, rfl⟩)⟩,
      hkeeps.swap⟩

end Sys2Proof.Machine
end

section
/-!
PROOFS. The encoding of commands (30_encoding.md R92 to R97): a word decodes to a command exactly when it is the
command's encoding, and is rejected exactly when a condition of R97 holds of its bits.
-/

namespace Sys2Proof

/-! ### Command words and their fields -/

@[simp] theorem commandFields_commandWord (op : BitVec 4) (a b : BitVec 12) :
    commandFields (commandWord op a b) = ⟨op, 0, a, b⟩ := by
  have hop : (commandWord op a b).extractLsb' 28 4 = op := by
    rw [commandWord, BitVec.extractLsb'_append_eq_of_le (by decide), BitVec.extractLsb'_append_eq_of_le (by decide)]
    exact BitVec.extractLsb'_append_eq_left
  have hrsv : (commandWord op a b).extractLsb' 24 4 = 0 := by
    rw [commandWord, BitVec.extractLsb'_append_eq_of_le (by decide), BitVec.extractLsb'_append_eq_of_le (by decide)]
    exact BitVec.extractLsb'_append_eq_right
  have ha : (commandWord op a b).extractLsb' 12 12 = a := by
    rw [commandWord, BitVec.extractLsb'_append_eq_of_le (by decide)]
    exact BitVec.extractLsb'_append_eq_right
  have hb : (commandWord op a b).extractLsb' 0 12 = b := BitVec.extractLsb'_append_eq_right
  rw [commandFields, hop, hrsv, ha, hb]

/-- A word whose `rsv` is 0 is made of its other three fields. -/
theorem commandWord_commandFields {w : CommandWord} (h : (commandFields w).rsv = 0) :
    commandWord (commandFields w).op (commandFields w).a (commandFields w).b = w := by
  have hw : w.extractLsb' 28 4 ++ w.extractLsb' 24 4 ++ w.extractLsb' 12 12 ++ w.extractLsb' 0 12 = w := by
    rw [BitVec.extractLsb'_append_extractLsb'_eq_extractLsb' (show 28 = 24 + 4 from rfl),
      BitVec.extractLsb'_append_extractLsb'_eq_extractLsb' (show 24 = 12 + 12 from rfl),
      BitVec.extractLsb'_append_extractLsb'_eq_extractLsb' (show 12 = 0 + 12 from rfl)]
    exact BitVec.extractLsb'_eq_self
  have hrsv : w.extractLsb' 24 4 = 0 := h
  rw [hrsv] at hw
  exact hw

theorem encode_eq_commandWord (i : Instr) : encode i = commandWord i.fields.op i.fields.a i.fields.b := by
  cases i <;> rfl

theorem fields_rsv (i : Instr) : i.fields.rsv = 0 := by cases i <;> rfl

@[simp] theorem commandFields_encode (i : Instr) : commandFields (encode i) = i.fields := by
  rw [encode_eq_commandWord, commandFields_commandWord, ← fields_rsv i]

/-- A slice of a slice is a slice. -/
theorem extractLsb'_extractLsb' {n start k len len' : Nat} (h : k + len ≤ len') (x : BitVec n) :
    (x.extractLsb' start len').extractLsb' k len = x.extractLsb' (start + k) len := by
  ext j hj
  simp only [BitVec.getElem_extractLsb', BitVec.getLsbD_extractLsb', Nat.add_assoc]
  simp only [show k + j < len' by omega, decide_true, Bool.true_and]

theorem eq_ofNat_of_toNat {n k : Nat} {x : BitVec n} (h : x.toNat = k) : x = BitVec.ofNat n k := by
  rw [← h, BitVec.ofNat_toNat, BitVec.setWidth_eq]

/-! ### Operands -/

/-- An operand is read from a field exactly when the field is the operand, zero-extended (30_encoding.md R93). -/
theorem operand_eq_some {n : Nat} (hn : n ≤ 12) {field : BitVec 12} {x : BitVec n} :
    operand n field = some x ↔ field = x.setWidth 12 := by
  have hpow : 2 ^ n ≤ 2 ^ 12 := Nat.pow_le_pow_right (by decide) hn
  have hx := x.isLt
  simp only [operand, ← BitVec.toNat_inj, BitVec.toNat_setWidth, Nat.mod_eq_of_lt (hx.trans_le hpow)]
  constructor
  · intro h
    split at h
    · cases h
      rw [BitVec.toNat_setWidth, Nat.mod_eq_of_lt ‹_›]
    · cases h
  · intro h
    rw [if_pos (h ▸ hx), Option.some.injEq, ← BitVec.toNat_inj, BitVec.toNat_setWidth, h, Nat.mod_eq_of_lt hx]

theorem oneOperand_eq_ok {n : Nat} (hn : n ≤ 12) {f : CommandFields} {mk : BitVec n → Instr} {i : Instr} :
    oneOperand n f mk = .ok i ↔ ∃ x, f.a = x.setWidth 12 ∧ f.b = 0 ∧ i = mk x := by
  simp only [oneOperand, ← operand_eq_some hn]
  cases operand n f.a with
  | none => simp
  | some x =>
    dsimp only
    split <;> simp_all [eq_comm (a := i)]

theorem twoOperands_eq_ok {n k : Nat} (hn : n ≤ 12) (hk : k ≤ 12) {f : CommandFields}
    {mk : BitVec n → BitVec k → Instr} {i : Instr} :
    twoOperands n k f mk = .ok i ↔ ∃ x y, f.a = x.setWidth 12 ∧ f.b = y.setWidth 12 ∧ i = mk x y := by
  simp only [twoOperands, ← operand_eq_some hn, ← operand_eq_some hk]
  cases operand n f.a with
  | none => simp
  | some x => cases operand k f.b <;> simp [eq_comm (a := i)]

theorem noOperand_eq_ok {f : CommandFields} {i j : Instr} :
    noOperand f j = .ok i ↔ f.a = 0 ∧ f.b = 0 ∧ i = j := by
  unfold noOperand
  split
  · simp_all
  · split <;> simp_all [eq_comm (a := i)]

/-! ### Decoding is the inverse of encoding -/

/-- The opcode map reads a command from exactly the fields the command is written with (30_encoding.md R94). -/
theorem decodeOpcode_fields (i : Instr) : decodeOpcode i.fields = .ok i := by
  cases i with
  | init pm sw => rfl
  | admitProc pid => exact (oneOperand_eq_ok (by decide)).mpr ⟨pid, rfl, rfl, rfl⟩
  | lookup pid => exact (oneOperand_eq_ok (by decide)).mpr ⟨pid, rfl, rfl, rfl⟩
  | translate base va => exact (twoOperands_eq_ok (by decide) (by decide)).mpr ⟨base, va, rfl, rfl, rfl⟩
  | resolve pid va => exact (twoOperands_eq_ok (by decide) (by decide)).mpr ⟨pid, va, rfl, rfl, rfl⟩
  | memrd pa => exact (oneOperand_eq_ok (by decide)).mpr ⟨pa, rfl, rfl, rfl⟩
  | memwr pa data => exact (twoOperands_eq_ok (by decide) (by decide)).mpr ⟨pa, data, rfl, rfl, rfl⟩
  | swrd sa => exact (oneOperand_eq_ok (by decide)).mpr ⟨sa, rfl, rfl, rfl⟩
  | pterd base vpn => exact (twoOperands_eq_ok (by decide) (by decide)).mpr ⟨base, vpn, rfl, rfl, rfl⟩
  | csrrd n => exact (oneOperand_eq_ok (by decide)).mpr ⟨n, rfl, rfl, rfl⟩
  | teardown => rfl

theorem fields_of_oneOperand {n : Nat} (hn : n ≤ 12) {f : CommandFields} {mk : BitVec n → Instr} {i : Instr}
    (hmk : ∀ x, (mk x).fields = ⟨f.op, f.rsv, x.setWidth 12, 0⟩) (h : oneOperand n f mk = .ok i) : i.fields = f := by
  obtain ⟨x, ha, hb, rfl⟩ := (oneOperand_eq_ok hn).mp h
  rw [hmk, ← ha, ← hb]

theorem fields_of_twoOperands {n k : Nat} (hn : n ≤ 12) (hk : k ≤ 12) {f : CommandFields}
    {mk : BitVec n → BitVec k → Instr} {i : Instr}
    (hmk : ∀ x y, (mk x y).fields = ⟨f.op, f.rsv, x.setWidth 12, y.setWidth 12⟩)
    (h : twoOperands n k f mk = .ok i) : i.fields = f := by
  obtain ⟨x, y, ha, hb, rfl⟩ := (twoOperands_eq_ok hn hk).mp h
  rw [hmk, ← ha, ← hb]

/-- The fields of the command the opcode map reads are the fields it was read from: none of their bits is dropped. -/
theorem fields_of_decodeOpcode {f : CommandFields} {i : Instr} (hr : f.rsv = 0) (h : decodeOpcode f = .ok i) :
    i.fields = f := by
  obtain ⟨op, rsv, a, b⟩ := f
  subst hr
  unfold decodeOpcode at h
  split at h
  case h_12 => cases h
  all_goals
    rename_i hop
    obtain rfl := eq_ofNat_of_toNat hop
  case h_1 => cases h; rfl
  case h_4 | h_5 | h_7 | h_9 => exact fields_of_twoOperands (by decide) (by decide) (fun _ _ => rfl) h
  case h_11 =>
    obtain ⟨rfl, rfl, rfl⟩ := noOperand_eq_ok.mp h
    rfl
  all_goals exact fields_of_oneOperand (by decide) (fun _ => rfl) h

theorem decode_of_rsv_zero {w : CommandWord} (h : (commandFields w).rsv = 0) :
    decode w = decodeOpcode (commandFields w) := if_neg (not_not.mpr h)

theorem decode_of_rsv_ne_zero {w : CommandWord} (h : (commandFields w).rsv ≠ 0) :
    decode w = .error .reservedField := if_pos h

/-- A word decodes to a command exactly when it is the command's encoding. -/
theorem decode_eq_ok_iff {w : CommandWord} {i : Instr} : decode w = .ok i ↔ encode i = w := by
  constructor
  · intro h
    by_cases hr : (commandFields w).rsv = 0
    · rw [decode_of_rsv_zero hr] at h
      rw [encode_eq_commandWord, fields_of_decodeOpcode hr h, commandWord_commandFields hr]
    · rw [decode_of_rsv_ne_zero hr] at h
      cases h
  · rintro rfl
    have hr : (commandFields (encode i)).rsv = 0 := by rw [commandFields_encode, fields_rsv]
    rw [decode_of_rsv_zero hr, commandFields_encode, decodeOpcode_fields]

/-- Settles O2: a command's encoding is one word that decodes to it. -/
theorem decodeOfEncode : Obligations.DecodeOfEncode := fun _ => decode_eq_ok_iff.mpr rfl

/-- Settles O3: a command's encoding is the only word that decodes to it. -/
theorem encodeOfDecode : Obligations.EncodeOfDecode := fun _ _ h => decode_eq_ok_iff.mp h

/-- Settles O1: each word is the encoding of its command. -/
theorem specWordsDecode : Obligations.SpecWordsDecode := by
  simp only [Obligations.SpecWordsDecode, decode_eq_ok_iff]
  decide

/-! ### The malformed words of 30_encoding.md R97 -/

/-- An operand field is rejected exactly when one of the bits above the operand is not 0. -/
theorem operand_eq_none {n k : Nat} (h : n + k = 12) {field : BitVec 12} :
    operand n field = none ↔ field.extractLsb' n k ≠ 0 := by
  have hlt : field.toNat < 2 ^ n * 2 ^ k := by rw [← pow_add, h]; exact field.isLt
  have hquot : field.toNat >>> n % 2 ^ k = field.toNat / 2 ^ n := by
    rw [Nat.shiftRight_eq_div_pow, Nat.mod_eq_of_lt (Nat.div_lt_of_lt_mul hlt)]
  have hzero : field.extractLsb' n k = 0 ↔ field.toNat < 2 ^ n := by
    rw [← BitVec.toNat_inj, BitVec.extractLsb'_toNat, hquot]
    exact Nat.div_eq_zero_iff_lt (Nat.two_pow_pos n)
  simp only [operand, ne_eq, hzero]
  split <;> simp_all

theorem oneOperand_rejects {n k : Nat} (h : n + k = 12) {f : CommandFields} {mk : BitVec n → Instr} :
    (∃ e, oneOperand n f mk = .error e) ↔ f.a.extractLsb' n k ≠ 0 ∨ f.b ≠ 0 := by
  rw [oneOperand, ← operand_eq_none h]
  cases operand n f.a with
  | none => simp
  | some x => dsimp only; split <;> simp_all

theorem twoOperands_rejects {n n' k k' : Nat} (h : n + k = 12) (h' : n' + k' = 12) {f : CommandFields}
    {mk : BitVec n → BitVec n' → Instr} :
    (∃ e, twoOperands n n' f mk = .error e) ↔ f.a.extractLsb' n k ≠ 0 ∨ f.b.extractLsb' n' k' ≠ 0 := by
  rw [twoOperands, ← operand_eq_none h, ← operand_eq_none h']
  cases operand n f.a with
  | none => simp
  | some x => cases operand n' f.b <;> simp

theorem noOperand_rejects {f : CommandFields} {i : Instr} :
    (∃ e, noOperand f i = .error e) ↔ f.a ≠ 0 ∨ f.b ≠ 0 := by
  unfold noOperand
  split
  · simp_all
  · split <;> simp_all

/-- The conditions of 30_encoding.md R97 on the operands of a word, by its opcode. -/
def CommandFields.BadOperands (f : CommandFields) : Prop :=
  f.op ∈ ([0x0, 0xB, 0xC, 0xD, 0xE] : List (BitVec 4)) ∨
  (f.op = 0xF ∧ f.a ≠ 0) ∨
  (f.op ∈ ([0x2, 0x3, 0x6, 0x8, 0xA, 0xF] : List (BitVec 4)) ∧ f.b ≠ 0) ∨
  (f.op ∈ ([0x2, 0x3, 0x4, 0x5, 0x6, 0x7, 0x9, 0xA] : List (BitVec 4)) ∧ f.a.extractLsb' 8 4 ≠ 0) ∨
  (f.op = 0x8 ∧ f.a.extractLsb' 9 3 ≠ 0) ∨
  (f.op ∈ ([0x4, 0x5, 0x7] : List (BitVec 4)) ∧ f.b.extractLsb' 8 4 ≠ 0) ∨
  (f.op = 0x9 ∧ f.b.extractLsb' 6 6 ≠ 0)

/-- The opcode map rejects exactly the fields with bad operands. -/
theorem decodeOpcode_rejects {f : CommandFields} : (∃ e, decodeOpcode f = .error e) ↔ f.BadOperands := by
  obtain ⟨op, rsv, a, b⟩ := f
  unfold decodeOpcode
  split
  case h_12 =>
    have hop : op ∈ ([0x0, 0xB, 0xC, 0xD, 0xE] : List (BitVec 4)) := by
      have hlt := op.isLt
      simp only [List.mem_cons, List.not_mem_nil, or_false, ← BitVec.toNat_inj, BitVec.reduceToNat]
      simp only [imp_false] at *
      omega
    exact iff_of_true ⟨_, rfl⟩ (.inl hop)
  all_goals
    rename_i hop
    obtain rfl := eq_ofNat_of_toNat hop
  case h_1 => simp [CommandFields.BadOperands]
  case h_4 | h_5 | h_7 =>
    rw [twoOperands_rejects (show 8 + 4 = 12 from rfl) (show 8 + 4 = 12 from rfl)]
    simp [CommandFields.BadOperands]
  case h_8 =>
    rw [oneOperand_rejects (show 9 + 3 = 12 from rfl)]
    simp [CommandFields.BadOperands, or_comm]
  case h_9 =>
    rw [twoOperands_rejects (show 8 + 4 = 12 from rfl) (show 6 + 6 = 12 from rfl)]
    simp [CommandFields.BadOperands]
  case h_11 =>
    rw [noOperand_rejects]
    simp [CommandFields.BadOperands]
  all_goals
    rw [oneOperand_rejects (show 8 + 4 = 12 from rfl)]
    simp [CommandFields.BadOperands, or_comm]

/-- The decoder rejects exactly the words with `rsv` not 0 or with bad operands. -/
theorem decode_rejects {w : CommandWord} :
    (∃ e, decode w = .error e) ↔ (commandFields w).rsv ≠ 0 ∨ (commandFields w).BadOperands := by
  by_cases hr : (commandFields w).rsv = 0
  · rw [decode_of_rsv_zero hr, decodeOpcode_rejects]
    simp only [hr, ne_eq, not_true_eq_false, false_or]
  · exact iff_of_true ⟨_, decode_of_rsv_ne_zero hr⟩ (.inl hr)

/-! The high bits of an operand field, as bits of the word. -/

theorem commandFields_a_slice (w : CommandWord) {k len : Nat} (h : k + len ≤ 12) :
    (commandFields w).a.extractLsb' k len = w.extractLsb' (12 + k) len := extractLsb'_extractLsb' h w

theorem commandFields_b_slice (w : CommandWord) {k len : Nat} (h : k + len ≤ 12) :
    (commandFields w).b.extractLsb' k len = w.extractLsb' k len :=
  (extractLsb'_extractLsb' h w).trans (by rw [Nat.zero_add])

end Sys2Proof
end

section
/-!
PROOFS. The command port and the responses (30_encoding.md R90 to R99): what one step takes off the port and answers,
which statuses a command can answer with, and the refusals of malformed words and of the lifecycle.
-/

namespace Sys2Proof.Machine

/-! ### The port -/

/-- Settles O5. -/
theorem stepRunsDecodedCommand : Obligations.StepRunsDecodedCommand := by
  intro s w rest i hport hd
  rw [step_cons hport, takeInput_command, runWord_ok hd]

/-- Settles O6: each of the three inputs is `State.quiet`, over the port that has lost it. -/
theorem quietInputsKeepTheState : Obligations.QuietInputsKeepTheState :=
  fun _ _ _ => ⟨step_nil, step_cons, step_cons⟩

theorem obtainFrame_port {s t : State} {f : PhysAddr} (ho : obtainFrame s = .frame f t) : t.port = s.port := by
  rcases obtainFrame_frame.mp ho with ⟨rest, -, -, rfl⟩ | ⟨v, vq, a, sq, -, -, -, he⟩
  · rfl
  · obtain ⟨m, p, u, -, -, -, -, -, rfl⟩ := evictTo_ok.mp he
    rfl

/-- Every effect of a command ends with a response and leaves the port to the host. -/
theorem Effect.response_port {s t : State} {i : Instr} (he : Effect s i t) :
    t.rspValid = true ∧ t.port = s.port := by
  cases he with
  | response | failed | initialised | cleared | stored => exact ⟨rfl, rfl⟩
  | admitted pid f s1 s2 hr hn ho ha =>
    obtain ⟨m, -, -, rfl⟩ := addProcess_ok.mp ha
    have hport := obtainFrame_port ho
    exact ⟨rfl, hport⟩
  | bound pid va b m f s1 s2 hr hb hm hu ho hbind =>
    obtain ⟨n, -, -, rfl⟩ := bindFrame_ok.mp hbind
    have hport := obtainFrame_port ho
    exact ⟨rfl, hport⟩
  | swappedIn pid va b m x w vq s2 hr hb hm hx hv hi =>
    obtain ⟨n, p, u, -, -, -, -, -, rfl⟩ := swapIn_ok.mp hi
    exact ⟨rfl, rfl⟩

/-- Settles O8: only a taken word has a command's effect, and only that ends with a response. -/
theorem oneResponsePerCommand : Obligations.OneResponsePerCommand := by
  intro s t x rest hport h
  rw [step_cons hport] at h
  cases x with
  | idle => cases h; simp
  | notReady w => cases h; simp
  | reset w => cases h; simp
  | command w =>
    obtain ⟨i, he, -⟩ := runWord_effect h
    obtain ⟨hvalid, hrest⟩ := he.response_port
    exact ⟨iff_of_true hvalid ⟨w, rfl⟩, hrest⟩

/-- Settles O36. -/
theorem consistentStatesNeverStop : Obligations.ConsistentStatesNeverStop := fun _ hc => hc.exists_step

/-! ### Refusals -/

/-- Settles O4: the rejected words are those of R97; a rejected word is refused before its lifecycle is looked at; and
a taken word has a next state, which is one with a response. -/
theorem refusesExactlyMalformedWords : Obligations.RefusesExactlyMalformedWords := by
  intro w
  refine ⟨?rejected, ?refused, ?answered⟩
  case rejected =>
    rw [decode_rejects, or_left_comm, CommandFields.BadOperands, commandFields_a_slice w (by decide),
      commandFields_a_slice w (by decide), commandFields_b_slice w (by decide), commandFields_b_slice w (by decide)]
    rfl
  case refused =>
    intro e s rest hd hport
    rw [step_cons hport, takeInput_command, runWord_error hd]
    rfl
  case answered =>
    intro s rest hc hport
    obtain ⟨t, ht⟩ := hc.exists_step
    exact ⟨t, ht, (oneResponsePerCommand s t _ rest hport ht).1.mpr ⟨w, rfl⟩⟩

/-- Settles O10: `INIT` is held by its gate on `UNINIT`, the others by theirs on `READY`. -/
theorem lifecycleRefusal : Obligations.LifecycleRefusal := by
  intro i s h
  cases i with
  | csrrd | teardown => cases h
  | init => exact if_neg (of_decide_eq_false h)
  | admitProc | lookup | translate | resolve | memrd | memwr | swrd | pterd =>
    exact whenReady_next.mpr (.inr ⟨of_decide_eq_false h, rfl⟩)

/-! ### The statuses of the responses -/

@[simp] theorem responseWord_status (st : Status) (v : BitVec 12) :
    (responseWord st v).extractLsb' 12 4 = statusCode st := BitVec.extractLsb'_append_eq_left

@[simp] theorem responseWord_value (st : Status) (v : BitVec 12) : (responseWord st v).extractLsb' 0 12 = v :=
  BitVec.extractLsb'_append_eq_right

theorem statusCode_inj {a b : Status} : statusCode a = statusCode b ↔ a = b := by
  cases a <;> cases b <;> decide

theorem statusCode_le (st : Status) : (statusCode st).toNat ≤ 5 := by cases st <;> decide

/-- The commands that can answer with a status (30_encoding.md R96; 60_exceptions.md R241): every command with `OK` and
with `REFUSED`. -/
def Answers (i : Instr) : Status → Prop
  | .ok => True
  | .fault => ∃ base va, i = .translate base va
  | .noCapacity => (∃ pid, i = .admitProc pid) ∨ ∃ pid va, i = .resolve pid va
  | .allocError => ∃ pm sw, i = .init pm sw
  | .notFound => (∃ pid, i = .lookup pid) ∨ ∃ pid va, i = .resolve pid va
  | .refused => True

/-- Where the outcome is a next state, it carries a response of `i`, with value 0 unless the status is `OK`. -/
def EndsAs (i : Instr) (o : Out) : Prop :=
  ∀ t, o = .next t → ∃ st v, t.rsp = responseWord st v ∧ Answers i st ∧ (st = .ok ∨ v = 0)

section EndsAs

variable {i : Instr} {s : State}

theorem endsAs_okay (v : BitVec 12) : EndsAs i (respond s .ok v) := by
  rintro t ⟨⟩
  exact ⟨.ok, v, rfl, trivial, .inl rfl⟩

theorem endsAs_error {st : Status} (h : Answers i st) : EndsAs i (respond s st 0) := by
  rintro t ⟨⟩
  exact ⟨st, 0, rfl, h, .inr rfl⟩

theorem endsAs_refuse : EndsAs i (refuse s) := endsAs_error trivial

theorem endsAs_breakStep {why : Broken} : EndsAs i (breakStep why) := by rintro t ⟨⟩

theorem endsAs_whenReady {body : Out} (h : EndsAs i body) : EndsAs i (whenReady s body) := by
  unfold whenReady
  split
  · exact h
  · exact endsAs_refuse

theorem endsAs_withMemories {body : Memories → Out} (h : ∀ m, EndsAs i (body m)) :
    EndsAs i (withMemories s body) := by
  unfold withMemories
  split
  · exact endsAs_breakStep
  · exact h _

theorem endsAs_orBreak {α : Type} {r : Except Broken α} {body : α → Out} (h : ∀ x, EndsAs i (body x)) :
    EndsAs i (orBreak r body) := by
  unfold orBreak
  split
  · exact endsAs_breakStep
  · exact h _

/-- An access that is refused past a bound, and else uses the memories, ends as its use of them does. -/
theorem endsAs_bounded {bound : Prop} [Decidable bound] {body : Memories → Out} (h : ∀ m, EndsAs i (body m)) :
    EndsAs i (whenReady s (if bound then refuse s else withMemories s body)) := by
  refine endsAs_whenReady ?_
  split
  · exact endsAs_refuse
  · exact endsAs_withMemories h

theorem endsAs_resolveUnmapped (h : Answers i .noCapacity) (e : PteLocation) : EndsAs i (resolveUnmapped e s) := by
  unfold resolveUnmapped
  split
  · exact endsAs_error h
  · exact endsAs_breakStep
  · exact endsAs_orBreak fun _ => endsAs_okay 0

theorem endsAs_resolveSwapped (h : Answers i .noCapacity) (e : PteLocation) (slot : SlotIndex) :
    EndsAs i (resolveSwapped e slot s) := by
  unfold resolveSwapped
  split
  · exact endsAs_error h
  · exact endsAs_orBreak fun _ => endsAs_okay 0

theorem endsAs_admitNew (h : Answers i .noCapacity) (pid : Pid) : EndsAs i (admitNew pid s) := by
  unfold admitNew
  split
  · exact endsAs_error h
  · exact endsAs_breakStep
  · exact endsAs_orBreak fun _ => endsAs_okay _

end EndsAs

/-- Every command answers with a status of its own. -/
theorem exec_endsAs (i : Instr) (s : State) : EndsAs i (exec i s) := by
  cases i with
  | init pm sw =>
    simp only [exec, execInit, whenUninit]
    split
    · split
      · exact endsAs_error ⟨pm, sw, rfl⟩
      · exact endsAs_okay 0
    · exact endsAs_refuse
  | admitProc pid =>
    refine endsAs_whenReady ?_
    split
    · exact endsAs_okay _
    · exact endsAs_admitNew (.inl ⟨pid, rfl⟩) pid
  | lookup pid =>
    refine endsAs_whenReady ?_
    split
    · exact endsAs_okay _
    · exact endsAs_error (.inl ⟨pid, rfl⟩)
  | translate base va =>
    refine endsAs_whenReady ?_
    split
    · refine endsAs_withMemories fun m => ?_
      split
      · exact endsAs_okay _
      · exact endsAs_error ⟨base, va, rfl⟩
      · exact endsAs_error ⟨base, va, rfl⟩
    · exact endsAs_refuse
  | resolve pid va =>
    have hcapacity : Answers (.resolve pid va) .noCapacity := .inr ⟨pid, va, rfl⟩
    refine endsAs_whenReady ?_
    split
    · exact endsAs_error (.inr ⟨pid, va, rfl⟩)
    · refine endsAs_withMemories fun m => ?_
      split
      · exact endsAs_okay 0
      · exact endsAs_resolveUnmapped hcapacity _
      · exact endsAs_resolveSwapped hcapacity _ _
  | memrd pa => exact endsAs_bounded fun _ => endsAs_okay _
  | memwr pa data => exact endsAs_bounded fun _ => endsAs_okay _
  | swrd sa => exact endsAs_bounded fun _ => endsAs_okay _
  | pterd base vpn =>
    refine endsAs_whenReady ?_
    split
    · exact endsAs_withMemories fun _ => endsAs_okay _
    · exact endsAs_refuse
  | csrrd n =>
    simp only [exec, execCsrrd]
    split
    · exact endsAs_refuse
    · exact endsAs_orBreak fun _ => endsAs_okay _
  | teardown => exact endsAs_okay 0

/-- Settles O48: the status and the value of a response word are its two parts. -/
theorem statusesAndTheirCommands : Obligations.StatusesAndTheirCommands := by
  intro i s t h
  obtain ⟨st, v, hrsp, hi, hv⟩ := exec_endsAs i s t h
  have hanswers : ∀ st', statusCode st = statusCode st' → Answers i st' := fun _ heq => statusCode_inj.mp heq ▸ hi
  rw [hrsp, responseWord_status, responseWord_value]
  exact ⟨statusCode_le st, fun hne => hv.resolve_left fun hok => hne (congrArg statusCode hok), hanswers .fault,
    hanswers .noCapacity, hanswers .allocError, hanswers .notFound⟩

end Sys2Proof.Machine
end

section
/-!
PROOFS. The PTE codec and the address functions (40_pte_codec.md): each reading of a byte is one encoder's output, how
many bytes have each reading, and the address functions as arithmetic on numbers.
-/

namespace Sys2Proof.Machine

/-! ### What a PTE byte decodes to, by its encoder -/

/-- The bytes that read as present are the outputs of the present encoder (40_pte_codec.md R123). -/
theorem pteDecode_eq_present_iff {b : Byte} {p : Pfn} {u : Bool} :
    pteDecode b = .present p u ↔ b = pteEncPresentU p u := by
  constructor
  · intro h
    have hbit := pteDecode_present_bit h
    simp only [pteDecode, hbit, if_true, Pte.present.injEq] at h
    obtain ⟨rfl, rfl⟩ := h
    revert b
    decide
  · rintro rfl
    revert p u
    decide

/-- The bytes that read as swapped are the outputs of the swapped encoder at a slot other than 0
(40_pte_codec.md R124). -/
theorem pteDecode_eq_swapped_iff {b : Byte} {x : SlotIndex} :
    pteDecode b = .swapped x ↔ x ≠ 0 ∧ b = pteEncSwapped x := by
  constructor
  · intro h
    exact ⟨pteDecode_swapped_ne_zero h, (pteDecode_swapped_byte h).symm⟩
  · rintro ⟨hx, rfl⟩
    exact pteDecode_encSwapped hx

theorem pteDecode_eq_unmapped_iff {b : Byte} : pteDecode b = .unmapped ↔ b = 0 := by
  constructor
  · intro h
    unfold pteDecode at h
    split at h
    · cases h
    · split at h
      · assumption
      · cases h
  · rintro rfl
    exact pteDecode_zero

theorem pteEncSwapped_toNat (x : SlotIndex) : (pteEncSwapped x).toNat = 2 * x.toNat := by revert x; decide

/-- Settles O31: what a byte decodes to, by its encoder, is both round trips. -/
theorem pteCodecRoundTrips : Obligations.PteCodecRoundTrips := by
  refine ⟨pteDecode_encPresent, fun _ _ => pteDecode_eq_present_iff.mpr rfl, fun _ => pteDecode_encSwapped,
    pteDecode_zero, fun b => ?_⟩
  cases h : pteDecode b with
  | present p u => exact (pteDecode_eq_present_iff.mp h).symm
  | swapped x => exact pteDecode_swapped_byte h
  | unmapped => exact (pteDecode_eq_unmapped_iff.mp h).symm

/-! ### Each byte has one reading (40_pte_codec.md R121) -/

theorem bit0_iff_odd {b : Byte} : b.getLsbD 0 = true ↔ b.toNat % 2 = 1 := by
  rw [BitVec.getLsbD, Nat.testBit_zero, decide_eq_true_iff]

theorem exists_present_iff {b : Byte} : (∃ p u, pteDecode b = .present p u) ↔ b.toNat % 2 = 1 := by
  constructor
  · rintro ⟨p, u, h⟩
    exact bit0_iff_odd.mp (pteDecode_present_bit h)
  · intro h
    exact ⟨_, _, if_pos (bit0_iff_odd.mpr h)⟩

theorem exists_swapped_iff {b : Byte} : (∃ x, pteDecode b = .swapped x) ↔ b.toNat % 2 = 0 ∧ b ≠ 0 := by
  constructor
  · rintro ⟨x, h⟩
    obtain ⟨-, rfl⟩ := pteDecode_eq_swapped_iff.mp h
    refine ⟨?_, fun h0 => ?_⟩
    · rw [pteEncSwapped_toNat, Nat.mul_mod_right]
    · rw [h0, pteDecode_zero] at h
      cases h
  · rintro ⟨heven, hne⟩
    have hbit : ¬ b.getLsbD 0 = true := by rw [bit0_iff_odd]; omega
    exact ⟨_, (if_neg hbit).trans (if_neg hne)⟩

theorem pteDecode_swapped_toNat {b : Byte} {x : SlotIndex} (h : pteDecode b = .swapped x) :
    x.toNat = b.toNat / 2 := by
  obtain ⟨-, rfl⟩ := pteDecode_eq_swapped_iff.mp h
  rw [pteEncSwapped_toNat, Nat.mul_div_cancel_left _ (by decide)]

/-! ### How many bytes have each reading (40_pte_codec.md R121) -/

theorem countP_present_bytes : ((List.range 256).countP fun n => (BitVec.ofNat 8 n).getLsbD 0) = 128 := by
  have hodd : ∀ n, (BitVec.ofNat 8 n).getLsbD 0 = true ↔ n ≡ 1 [MOD 2] := fun n => by
    rw [bit0_iff_odd, BitVec.toNat_ofNat, Nat.ModEq]
    omega
  calc ((List.range 256).countP fun n => (BitVec.ofNat 8 n).getLsbD 0)
      = Nat.count (· ≡ 1 [MOD 2]) 256 := List.countP_congr fun n _ => by rw [hodd, decide_eq_true_iff]
    _ = 128 := Nat.count_modEq_card 256 (by decide) 1

theorem countP_unmapped_bytes :
    ((List.range 256).countP fun n => pteDecode (BitVec.ofNat 8 n) = .unmapped) = 1 := by
  have hzero : ∀ n, pteDecode (BitVec.ofNat 8 n) = .unmapped ↔ n ≡ 0 [MOD 256] := fun n => by
    rw [pteDecode_eq_unmapped_iff, ← BitVec.toNat_inj, BitVec.toNat_ofNat]
    rfl
  calc ((List.range 256).countP fun n => pteDecode (BitVec.ofNat 8 n) = .unmapped)
      = Nat.count (· ≡ 0 [MOD 256]) 256 := List.countP_congr fun n _ => by simp only [hzero]
    _ = 1 := Nat.count_modEq_card 256 (by decide) 0

/-- Every byte of a list is counted under exactly one reading: present, unmapped, or neither, which is swapped. -/
theorem countP_readings {α : Type} (f : α → Byte) (l : List α) :
    (l.countP fun a => (f a).getLsbD 0) + (l.countP fun a => pteDecode (f a) = .unmapped) +
      (l.countP fun a => !(f a).getLsbD 0 && pteDecode (f a) != .unmapped) = l.length := by
  induction l with
  | nil => rfl
  | cons a l ih =>
    simp only [List.countP_cons, List.length_cons, ← ih]
    cases hbit : (f a).getLsbD 0 with
    | true =>
      have hne : pteDecode (f a) ≠ .unmapped := by simp [pteDecode, hbit]
      simp [hne]
      omega
    | false => by_cases hu : pteDecode (f a) = .unmapped <;> simp [hu] <;> omega

/-- Settles O32: the swapped bytes are counted as the 256 bytes less the present and the unmapped ones. -/
theorem pteReadingsArePartitioned : Obligations.PteReadingsArePartitioned := by
  refine ⟨fun b => ⟨exists_present_iff.symm, pteDecode_eq_unmapped_iff.symm, exists_swapped_iff.symm⟩,
    fun b x h => ?_, countP_present_bytes, countP_unmapped_bytes, ?_⟩
  · have hpos : x.toNat ≠ 0 := fun h0 => pteDecode_swapped_ne_zero h (BitVec.eq_of_toNat_eq h0)
    have hlt := x.isLt
    exact ⟨pteDecode_swapped_toNat h, by omega, by omega⟩
  · have htotal := countP_readings (BitVec.ofNat 8) (List.range 256)
    rw [countP_present_bytes, countP_unmapped_bytes, List.length_range] at htotal
    omega

/-! ### The address functions as arithmetic (40_pte_codec.md R126 to R129) -/

theorem vpnOfVa_toNat (va : VirtAddr) : (vpnOfVa va).toNat = va.toNat / 4 := pfnOf_toNat va

theorem offOfVa_toNat (va : VirtAddr) : (offOfVa va).toNat = va.toNat % 4 := by simp [offOfVa]

theorem vpnOfLoc_toNat (loc : PteLocation) : (vpnOfLoc loc).toNat = loc.toNat % 64 := by simp [vpnOfLoc]

theorem baseOfLoc_toNat (loc : PteLocation) : (baseOfLoc loc).toNat = loc.toNat / 64 * 4 := by
  have hfield : (loc.extractLsb' 6 6).toNat = loc.toNat / 64 := by
    have hlt := loc.isLt
    rw [BitVec.extractLsb'_toNat, Nat.shiftRight_eq_div_pow]
    omega
  calc (baseOfLoc loc).toNat = 4 * (loc.extractLsb' 6 6).toNat := frameAddr_toNat _
    _ = loc.toNat / 64 * 4 := by rw [hfield, Nat.mul_comm]

@[simp] theorem vpnOfLoc_pteLoc (b : PhysAddr) (v : Vpn) : vpnOfLoc (pteLoc b v) = v := by
  have hlt := v.isLt
  apply BitVec.eq_of_toNat_eq
  rw [vpnOfLoc_toNat, pteLoc_toNat]
  omega

theorem baseOfLoc_pteLoc {b : PhysAddr} (h : b.toNat % 4 = 0) (v : Vpn) : baseOfLoc (pteLoc b v) = b := by
  have hlt := v.isLt
  apply BitVec.eq_of_toNat_eq
  rw [baseOfLoc_toNat, pteLoc_toNat]
  omega

/-- Settles O33. -/
theorem addressArithmetic : Obligations.AddressArithmetic := by
  refine ⟨fun p => ⟨?_, pfnOf_frameAddr p⟩, pfnOf_toNat, fun x => ⟨?_, slotIdx_slotAddr x⟩, slotIdx_toNat,
    fun va => ⟨vpnOfVa_toNat va, offOfVa_toNat va⟩, fun p o => ?_,
    fun b v => ⟨pteLoc_toNat b v, vpnOfLoc_pteLoc b v, fun h => baseOfLoc_pteLoc h v⟩,
    fun loc => ⟨baseOfLoc_toNat loc, vpnOfLoc_toNat loc⟩⟩
  · rw [frameAddr_toNat, Nat.mul_comm]
  · rw [slotAddr_toNat, Nat.mul_comm]
  · rw [physAddr_toNat, Nat.mul_comm]

end Sys2Proof.Machine
end

section
/-!
PROOFS. Eviction (42_victim_queue.md R156, R160, R162): what the primitive does to the memories and the queues, and that
the page a command makes not present is the oldest one.
-/

namespace Sys2Proof.Machine

/-- Where no frame is free and a victim and a slot are at hand, the frame obtained is the oldest victim's
(42_victim_queue.md R160). -/
theorem obtainFrame_evict {s : State} {v : PteLocation} {vq : List PteLocation} {a : SwapAddr} {sq : List SwapAddr}
    {m : Memories} {p : Pfn} {u : Bool} (hfq : s.fq = []) (hvq : s.vq = v :: vq) (hsq : s.sq = a :: sq)
    (hm : s.mem = some m) (hp : pteDecode (m.readPte v) = .present p u) (hpfn : p.toNat < nframes s)
    (ha : slotInRange s a = true) :
    obtainFrame s =
      .frame (frameAddr p) { s with vq := vq, sq := sq, mem := some (evictedMemories v p a m) } :=
  obtainFrame_frame.mpr <| .inr
    ⟨v, vq, a, sq, hfq, hvq, hsq, evictTo_ok.mpr ⟨m, p, u, hm, hp, hpfn, ha, rfl, rfl⟩⟩

/-- Settles O30: the memories are those an eviction leaves, read byte by byte. -/
theorem evictionMovesTheOldestPage : Obligations.EvictionMovesTheOldestPage := by
  intro s v vq a sq m p u hfq hvq hsq hm hwf hp hpfn halign hpos hlt
  have ha : slotInRange s a = true := slotInRange_iff.mpr ⟨halign, hpos, hlt⟩
  refine ⟨evictedMemories v p a m, obtainFrame_evict hfq hvq hsq hm hp hpfn ha, evictedMemories_wf v p a hwf,
    evictedMemories_frame v p a hwf, fun x hx => evictedMemories_pmem_other v p a hwf hx,
    evictedMemories_slot v p a hwf, fun x hx => evictedMemories_swap_other v p a hwf hx, ?victim, fun loc hloc => ?other⟩
  case victim => exact (evictedMemories_readPte v p a hwf v).trans (if_pos rfl)
  case other => exact (evictedMemories_readPte v p a hwf loc).trans (if_neg hloc)

/-! ### Only the oldest page stops being present -/

/-- Obtaining a frame writes no PTE but the one at the head of `VQ`. -/
theorem obtainFrame_readPte {s t : State} {m n : Memories} {f : PhysAddr} (hwf : m.wf) (hm : s.mem = some m)
    (ho : obtainFrame s = .frame f t) (hn : t.mem = some n) {loc : PteLocation} (hhead : s.vq.head? ≠ some loc) :
    n.readPte loc = m.readPte loc := by
  rcases obtainFrame_frame.mp ho with ⟨rest, -, -, rfl⟩ | ⟨v, vq, a, sq, -, hvq, -, he⟩
  · cases hm.symm.trans hn
    rfl
  · obtain ⟨m', p, u, hm', -, -, -, -, rfl⟩ := evictTo_ok.mp he
    cases hm'.symm.trans hm
    cases hn
    have hne : loc ≠ v := by rintro rfl; exact hhead (by simp [hvq])
    rw [evictedMemories_readPte v p a hwf, if_neg hne]

/-- A held frame is no live page table, so the table it would be holds no live location. -/
theorem PagingHeld.live_not_in_held_table {f : PhysAddr} {held : List PhysAddr} {s : State} {m : Memories}
    (h : PagingHeld (f :: held) s m) {loc : PteLocation} (hl : loc ∈ liveLocs s.proc) : loc ∉ tableLocs f := by
  intro hf
  obtain ⟨r, hr, hloc⟩ := mem_liveLocs.mp hl
  have hbase : r.base ∈ tableFrames s := List.mem_map_of_mem hr
  have hne : r.base ≠ f := fun heq => h.page_not_table (.inr List.mem_cons_self) (heq ▸ hbase)
  exact tableLocs_disjoint (h.base_range hbase).1 (h.mem_frames (by simp)).1 hne hloc hf

/-- Every effect of a command leaves each present live page present, but for the one at the head of `VQ`
(42_victim_queue.md R156, R162). -/
theorem Effect.keeps_present {s t : State} {i : Instr} {m n : Memories} (he : Effect s i t) (hc : s.Consistent)
    (hm : s.mem = some m) (hn : t.mem = some n) {loc : PteLocation} (hl : loc ∈ liveLocs s.proc)
    (hpres : isPresent m loc = true) (hhead : s.vq.head? ≠ some loc) : isPresent n loc = true := by
  have hp := hc.paging hm
  have kept {l : Memories} (h : l.readPte loc = m.readPte loc) : isPresent l loc = true := by
    simpa only [isPresent, h] using hpres
  cases he with
  | response i st v =>
    cases hm.symm.trans hn
    exact hpres
  | failed i hi hr =>
    cases hm.symm.trans hn
    exact hpres
  | initialised pm sw hu =>
    obtain ⟨-, -, hnone, -⟩ := hc.of_uninit hu
    cases hnone.symm.trans hm
  | cleared => cases hn
  | stored m' pa data hr hm' =>
    cases hm.symm.trans hm'
    cases hn
    exact kept (Memories.readPte_writePmem m pa data loc)
  | admitted pid f s1 s2 hr hnew ho ha =>
    obtain ⟨m1, hm1, hheld, -⟩ := hp.obtain hm ho
    obtain ⟨m1', hm1', -, rfl⟩ := addProcess_ok.mp ha
    cases hm1'.symm.trans hm1
    cases hn
    obtain ⟨-, hproc, -⟩ := obtainFrame_keeps ho
    have hdead : loc ∉ tableLocs f := hheld.live_not_in_held_table (hproc ▸ hl)
    refine kept ?_
    rw [zeroTable_readPte f hheld.wf, if_neg hdead, obtainFrame_readPte hp.wf hm ho hm1 hhead]
  | bound pid va b m' f s1 s2 hr hb hm' hu ho hbind =>
    obtain ⟨m1, hm1, hheld, -⟩ := hp.obtain hm ho
    obtain ⟨m1', hm1', -, rfl⟩ := bindFrame_ok.mp hbind
    cases hm1'.symm.trans hm1
    cases hn
    have hread := boundMemories_readPte (pteLoc b (vpnOfVa va)) f hheld.wf loc
    by_cases hloc : loc = pteLoc b (vpnOfVa va)
    · rw [isPresent, hread, if_pos hloc, pteEncPresent_bit0]
    · exact kept (by rw [hread, if_neg hloc, obtainFrame_readPte hp.wf hm ho hm1 hhead])
  | swappedIn pid va b m' x w vq s2 hr hb hm' hx hv hi =>
    obtain ⟨m1, p, u, hm1, -, -, -, -, rfl⟩ := swapIn_ok.mp hi
    cases hm1.symm.trans hm
    cases hn
    have hread := swappedInMemories_readPte (pteLoc b (vpnOfVa va)) w p x hp.wf loc
    have hne : loc ≠ w := by rintro rfl; exact hhead (by simp [hv])
    by_cases hloc : loc = pteLoc b (vpnOfVa va)
    · rw [isPresent, hread, if_pos hloc, pteEncPresent_bit0]
    · exact kept (by rw [hread, if_neg hloc, if_neg hne])

/-- Settles O49: a page but the oldest stays present, and the victim queue of the next, consistent state holds none
that is not present. -/
theorem evictionIsFifo : Obligations.EvictionIsFifo := by
  intro i s t m n hc h hm hn loc hl hpres hgone
  have he := exec_effect h
  have hgone : ¬ isPresent n loc = true := ne_true_of_eq_false hgone
  constructor
  · by_contra hhead
    exact hgone (he.keeps_present hc hm hn hl hpres hhead)
  · intro hhead
    have hvq : loc ∈ t.vq := List.mem_of_mem_head? hhead
    obtain ⟨-, hstill⟩ := ((he.consistent hc).paging hn).mem_vq.mp hvq
    exact hgone hstill

end Sys2Proof.Machine
end

section
/-!
PROOFS. The process table (43_process_table.md): which record a pid finds, what `LOOKUP` and `ADMIT` answer in each
case, what the creation of a process leaves in the memories, and that a base stays its pid's until `TEARDOWN`.
-/

namespace Sys2Proof.Machine

/-! ### Operand and response words -/

/-- A byte zero-extended to an operand field or a response value. -/
theorem setWidth_eq_zero_append (x : BitVec 8) : x.setWidth 12 = 0#4 ++ x :=
  BitVec.setWidth_eq_append (by decide)

/-- The word of a command whose one operand is a byte (30_encoding.md R92, R93). -/
theorem commandWord_byte (op : BitVec 4) (x : BitVec 8) :
    commandWord op (x.setWidth 12) 0 = op ++ 0#4 ++ (0#4 ++ x) ++ 0#12 := by
  simp only [commandWord, setWidth_eq_zero_append, BitVec.ofNat_eq_ofNat]

/-- A state already holds the response it is given again. -/
theorem State.answer_eq_self {s : State} {st : Status} {v : BitVec 12} (hrsp : s.rsp = responseWord st v)
    (hvalid : s.rspValid = true) : s.answer st v = s := by
  rw [State.answer, ← hrsp, ← hvalid]

/-! ### The records -/

/-- The records are searched in order: those before first, those after only where none before has the pid. -/
theorem procLookup_append_or (before after : List ProcRecord) (pid : Pid) :
    procLookup (before ++ after) pid = (procLookup before pid).or (procLookup after pid) := by
  induction before with
  | nil => rfl
  | cons r rest ih =>
    simp only [List.cons_append, procLookup]
    split
    · rfl
    · exact ih

/-- The first record of a pid gives its base (43_process_table.md R170). -/
theorem procLookup_first {before after : List ProcRecord} {pid : Pid} {b : PhysAddr}
    (h : pid ∉ before.map (·.pid)) : procLookup (before ++ ⟨pid, b⟩ :: after) pid = some b := by
  rw [procLookup_append_or, procLookup_none.mpr h, Option.none_or, procLookup, if_pos rfl]

/-- Records appended at the tail take no base away. -/
theorem procLookup_append_some {proc : List ProcRecord} {pid : Pid} {b : PhysAddr}
    (h : procLookup proc pid = some b) (new : List ProcRecord) : procLookup (proc ++ new) pid = some b := by
  rw [procLookup_append_or, h, Option.some_or]

/-! ### `LOOKUP` -/

theorem exec_lookup_found {pid : Pid} {s : State} {b : PhysAddr} (hr : s.lc = .ready)
    (hb : procLookup s.proc pid = some b) : exec (.lookup pid) s = .next (s.answer .ok (0#4 ++ b)) := by
  simp only [exec, execLookup, whenReady_of_ready hr, hb, respond, setWidth_eq_zero_append]

theorem exec_lookup_notFound {pid : Pid} {s : State} (hr : s.lc = .ready) (hn : procLookup s.proc pid = none) :
    exec (.lookup pid) s = .next (s.answer .notFound 0) := by
  simp only [exec, execLookup, whenReady_of_ready hr, hn, respond]

/-- Settles O19: the records are searched in order, and the answer is the base found. -/
theorem lookupFindsTheBase : Obligations.LookupFindsTheBase := by
  intro pid s
  refine ⟨commandWord_byte 0x3 pid, fun hr => lifecycleRefusal _ s (decide_eq_false hr),
    fun hr hn => exec_lookup_notFound hr (procLookup_none.mpr hn), fun before after b hr hproc hfirst => ?_⟩
  exact exec_lookup_found hr (hproc ▸ procLookup_first hfirst)

/-! ### `ADMIT` in each case (43_process_table.md R172) -/

/-- The switch to an admitted pid. -/
theorem exec_admit_known {pid : Pid} {s : State} {b : PhysAddr} (hr : s.lc = .ready)
    (hb : procLookup s.proc pid = some b) : exec (.admitProc pid) s = .next (s.answer .ok (0#4 ++ b)) := by
  simp only [exec, execAdmit, whenReady_of_ready hr, hb, respond, setWidth_eq_zero_append]

/-- A new pid, with no frame to be had. -/
theorem exec_admit_exhausted {pid : Pid} {s : State} (hr : s.lc = .ready) (hn : procLookup s.proc pid = none)
    (ho : obtainFrame s = .exhausted) :
    exec (.admitProc pid) s = .next ({ s with lc := .failed }.answer .noCapacity 0) := by
  simp only [exec, execAdmit, whenReady_of_ready hr, hn, admitNew, ho, failNoCapacity, respond]

/-- A new pid, with a frame obtained: its table is zeroed and the record appended. -/
theorem exec_admit_created {pid : Pid} {s s1 : State} {f : PhysAddr} {m : Memories} (hr : s.lc = .ready)
    (hn : procLookup s.proc pid = none) (ho : obtainFrame s = .frame f s1) (hm : s1.mem = some m)
    (hroom : s1.proc.length < 64) :
    exec (.admitProc pid) s =
      .next (State.answer { s1 with mem := some (zeroTable f m), proc := s1.proc ++ [⟨pid, f⟩] } .ok (0#4 ++ f)) := by
  have ha := addProcess_ok (pid := pid) (f := f) |>.mpr ⟨m, hm, hroom, rfl⟩
  simp only [exec, execAdmit, whenReady_of_ready hr, hn, admitNew, ho, ha, orBreak, respond, setWidth_eq_zero_append]

/-! ### The memories a creation leaves -/

theorem zeroTable_readPmem (f : PhysAddr) {m : Memories} (h : m.wf) (x : PhysAddr) :
    (zeroTable f m).readPmem x = m.readPmem x := by
  rw [Memories.readPmem, zeroTable_pmem f h, Memories.readPmem]

theorem zeroTable_readSwap (f : PhysAddr) {m : Memories} (h : m.wf) (x : SwapAddr) :
    (zeroTable f m).readSwap x = m.readSwap x := by
  rw [Memories.readSwap, zeroTable_swap f h, Memories.readSwap]

/-- Every VPN of the new table has no mapping. -/
theorem zeroTable_readPte_table (f : PhysAddr) {m : Memories} (h : m.wf) (vpn : Vpn) :
    (zeroTable f m).readPte (pteLoc f vpn) = 0 := by
  rw [zeroTable_readPte f h, if_pos (pteLoc_mem_tableLocs f vpn)]

theorem zeroTable_readPte_other (f : PhysAddr) {m : Memories} (h : m.wf) {loc : PteLocation}
    (hloc : ∀ vpn, loc ≠ pteLoc f vpn) : (zeroTable f m).readPte loc = m.readPte loc := by
  rw [zeroTable_readPte f h, if_neg]
  intro hmem
  obtain ⟨n, -, hn⟩ := List.mem_map.mp hmem
  exact hloc _ hn.symm

/-- Settles O20: a new pid's frame is the head of the free queue or the one an eviction gives, and the memories are
those with the frame's table zeroed, read byte by byte. -/
theorem admitCreatesOrSwitches : Obligations.AdmitCreatesOrSwitches := by
  intro pid s
  refine ⟨commandWord_byte 0x2 pid, fun hr => lifecycleRefusal _ s (decide_eq_false hr),
    fun b hr hb => exec_admit_known hr hb, ?free, ?evicted, ?exhausted⟩
  case free =>
    intro f rest m hr hn hfq halign hlt hm hwf hroom
    exact ⟨zeroTable f m,
      exec_admit_created hr (procLookup_none.mpr hn) (obtainFrame_free hfq halign hlt) hm hroom,
      zeroTable_wf f hwf, zeroTable_readPmem f hwf, zeroTable_readSwap f hwf, zeroTable_readPte_table f hwf,
      fun loc hloc => zeroTable_readPte_other f hwf hloc⟩
  case evicted =>
    intro v vq a sq m p u hr hn hfq hvq hsq hm hwf hp hpfn halign hpos hlt hroom
    have ho := obtainFrame_evict hfq hvq hsq hm hp hpfn (slotInRange_iff.mpr ⟨halign, hpos, hlt⟩)
    have hwf' := evictedMemories_wf v p a hwf
    refine ⟨zeroTable (frameAddr p) (evictedMemories v p a m),
      exec_admit_created hr (procLookup_none.mpr hn) ho rfl hroom, zeroTable_wf _ hwf',
      fun i => ?frame, fun x hx => ?pmem, fun i => ?slot, fun x hx => ?swap, zeroTable_readPte_table _ hwf',
      fun hv => ?victim, fun loc hne hloc => ?pte⟩
    case frame => rw [zeroTable_readPmem _ hwf', evictedMemories_frame v p a hwf]
    case pmem => rw [zeroTable_readPmem _ hwf', evictedMemories_pmem_other v p a hwf hx]
    case slot => rw [zeroTable_readSwap _ hwf', evictedMemories_slot v p a hwf]
    case swap => rw [zeroTable_readSwap _ hwf', evictedMemories_swap_other v p a hwf hx]
    case victim =>
      rw [zeroTable_readPte_other _ hwf' hv, evictedMemories_readPte v p a hwf, if_pos rfl, pteEncSwapped, slotIdx]
    case pte => rw [zeroTable_readPte_other _ hwf' hloc, evictedMemories_readPte v p a hwf, if_neg hne]
  case exhausted =>
    intro hr hn hfq hempty
    exact exec_admit_exhausted hr (procLookup_none.mpr hn) (obtainFrame_exhausted.mpr ⟨hfq, hempty⟩)

/-! ### A base once given stays (43_process_table.md R173) -/

/-- A new pid is given a frame and a record, or the engine fails. -/
theorem admitNew_next {pid : Pid} {s t : State} (h : admitNew pid s = .next t) :
    t = { s with lc := .failed }.answer .noCapacity 0 ∨
    ∃ f s1 s2, obtainFrame s = .frame f s1 ∧ addProcess pid f s1 = .ok s2 ∧ t = s2.answer .ok (0#4 ++ f) := by
  unfold admitNew at h
  split at h
  · cases h; exact .inl rfl
  · cases h
  · rename_i f s1 ho
    obtain ⟨s2, ha, h⟩ := orBreak_next.mp h
    cases h
    exact .inr ⟨f, s1, s2, ho, ha, by rw [setWidth_eq_zero_append]⟩

/-- The state in which `ADMIT` of a pid has ended with `OK`: the response is the base of the pid's record. -/
def Admitted (pid : Pid) (t : State) : Prop :=
  t.lc = .ready ∧ ∃ b, procLookup t.proc pid = some b ∧ t.rsp = responseWord .ok (0#4 ++ b) ∧ t.rspValid = true

theorem Admitted.exec_again {pid : Pid} {t : State} (h : Admitted pid t) : exec (.admitProc pid) t = .next t := by
  obtain ⟨hr, b, hb, hrsp, hvalid⟩ := h
  rw [exec_admit_known hr hb, State.answer_eq_self hrsp hvalid]

/-- A created process is admitted. -/
theorem addProcess_admitted {pid : Pid} {f : PhysAddr} {s s1 s2 : State} (hr : s.lc = .ready)
    (hn : procLookup s.proc pid = none) (ho : obtainFrame s = .frame f s1) (ha : addProcess pid f s1 = .ok s2) :
    Admitted pid (s2.answer .ok (0#4 ++ f)) := by
  obtain ⟨hlc, hproc, -⟩ := obtainFrame_keeps ho
  obtain ⟨m, -, -, rfl⟩ := addProcess_ok.mp ha
  refine ⟨hlc.trans hr, f, ?_, rfl, rfl⟩
  simp only [answer_proc, hproc]
  exact procLookup_first (procLookup_none.mp hn)

/-- Only the status `OK` has the code 0 (30_encoding.md R96). -/
theorem status_of_answer {s : State} {st : Status} {v : BitVec 12} (h : (s.answer st v).rsp.extractLsb' 12 4 = 0) :
    st = .ok := by
  rw [answer_rsp, responseWord_status] at h
  exact statusCode_inj.mp h

/-- An `ADMIT` that answers `OK` has found the pid's record or created it. -/
theorem exec_admit_ok {pid : Pid} {s t : State} (h : exec (.admitProc pid) s = .next t)
    (hok : t.rsp.extractLsb' 12 4 = 0) : Admitted pid t := by
  rcases whenReady_next.mp h with ⟨hr, hbody⟩ | ⟨-, rfl⟩
  · cases hb : procLookup s.proc pid with
    | some b =>
      cases (exec_admit_known hr hb).symm.trans h
      exact ⟨hr, b, hb, rfl, rfl⟩
    | none =>
      rw [hb] at hbody
      rcases admitNew_next hbody with rfl | ⟨f, s1, s2, ho, ha, rfl⟩
      · cases status_of_answer hok
      · exact addProcess_admitted hr hb ho ha
  · cases status_of_answer hok

/-- Outside `UNINIT` the process table only grows at its tail, but for `TEARDOWN`. -/
theorem Effect.proc_appended {s t : State} {i : Instr} (he : Effect s i t) (hu : s.lc ≠ .uninit)
    (hnt : i ≠ .teardown) : ∃ new, t.proc = s.proc ++ new := by
  cases he with
  | response | failed | stored => exact ⟨[], (List.append_nil _).symm⟩
  | initialised pm sw huninit => exact absurd huninit hu
  | cleared => exact absurd rfl hnt
  | admitted pid f s1 s2 hr hn ho ha =>
    obtain ⟨-, hproc, -⟩ := obtainFrame_keeps ho
    obtain ⟨m, -, -, rfl⟩ := addProcess_ok.mp ha
    exact ⟨[⟨pid, f⟩], by simp only [answer_proc, hproc]⟩
  | bound pid va b m f s1 s2 hr hb hm hx ho hbind =>
    obtain ⟨-, hproc, -⟩ := obtainFrame_keeps ho
    obtain ⟨n, -, -, rfl⟩ := bindFrame_ok.mp hbind
    exact ⟨[], hproc.trans (List.append_nil _).symm⟩
  | swappedIn pid va b m x w vq s2 hr hb hm hx hv hi =>
    obtain ⟨n, p, u, -, -, -, -, -, rfl⟩ := swapIn_ok.mp hi
    exact ⟨[], (List.append_nil _).symm⟩

/-- Settles O21: the second `ADMIT` finds the record of the first and gives the response that is there already; and
records are only appended. -/
theorem admitIsIdempotent : Obligations.AdmitIsIdempotent := by
  refine ⟨fun pid s t h hok => (exec_admit_ok h hok).exec_again, fun i s t pid b hu h hnt hb => ?_⟩
  obtain ⟨new, hnew⟩ := (exec_effect h).proc_appended hu hnt
  exact hnew ▸ procLookup_append_some hb new

end Sys2Proof.Machine
end

section
/-!
PROOFS. The content of pages (44_fault_engine.md R192): an eviction, a bind and a swap-in touch the frames and slots of
the pages they move, and a moved page's bytes go with it.
-/

namespace Sys2Proof.Machine

/-! ### What the content of a page depends on -/

theorem pageByte_of_present {m : Memories} {loc : PteLocation} {p : Pfn} {u : Bool}
    (h : pteDecode (m.readPte loc) = .present p u) (k : BitVec 2) :
    pageByte m loc k = some (m.readPmem (frameByte (frameAddr p) k)) := by
  simp only [pageByte, h]

theorem pageByte_of_swapped {m : Memories} {loc : PteLocation} {x : SlotIndex}
    (h : pteDecode (m.readPte loc) = .swapped x) (k : BitVec 2) :
    pageByte m loc k = some (m.readSwap (slotByte (slotAddr x) k)) := by
  simp only [pageByte, h]

theorem pageByte_of_unmapped {m : Memories} {loc : PteLocation} (h : pteDecode (m.readPte loc) = .unmapped)
    (k : BitVec 2) : pageByte m loc k = none := by
  simp only [pageByte, h]

theorem pageByte_eq_none_iff {m : Memories} {loc : PteLocation} {k : BitVec 2} :
    pageByte m loc k = none ↔ m.readPte loc = 0 := by
  rw [← pteDecode_eq_unmapped_iff]
  cases h : pteDecode (m.readPte loc) with
  | present p u => simp [pageByte_of_present h]
  | swapped x => simp [pageByte_of_swapped h]
  | unmapped => simp [pageByte_of_unmapped h]

/-- A page keeps its content where its PTE and the frame or slot the PTE names are as before. -/
theorem pageByte_congr {m n : Memories} {loc : PteLocation} {k : BitVec 2} (hpte : n.readPte loc = m.readPte loc)
    (hframe : ∀ f, presentFrame m loc = some f → n.readPmem (frameByte f k) = m.readPmem (frameByte f k))
    (hslot : ∀ a, swappedSlot m loc = some a → n.readSwap (slotByte a k) = m.readSwap (slotByte a k)) :
    pageByte n loc k = pageByte m loc k := by
  cases h : pteDecode (m.readPte loc) with
  | present p u =>
    rw [pageByte_of_present h, pageByte_of_present (hpte ▸ h), hframe _ (presentFrame_of_present h)]
  | swapped x => rw [pageByte_of_swapped h, pageByte_of_swapped (hpte ▸ h), hslot _ (swappedSlot_of_swapped h)]
  | unmapped => rw [pageByte_of_unmapped h, pageByte_of_unmapped (hpte ▸ h)]

/-- The memories `n` hold every mapped page of the processes, with the content it has in `m`. -/
def KeepsPages (proc : List ProcRecord) (m n : Memories) : Prop :=
  ∀ loc ∈ liveLocs proc, m.readPte loc ≠ 0 → ∀ k, pageByte n loc k = pageByte m loc k

theorem KeepsPages.refl (proc : List ProcRecord) (m : Memories) : KeepsPages proc m m := fun _ _ _ _ => rfl

theorem KeepsPages.trans {proc : List ProcRecord} {l m n : Memories} (h1 : KeepsPages proc l m)
    (h2 : KeepsPages proc m n) : KeepsPages proc l n := by
  intro loc hl hmapped k
  have hstill : m.readPte loc ≠ 0 := by
    rw [Ne, ← pageByte_eq_none_iff (k := k), h1 loc hl hmapped k, pageByte_eq_none_iff]
    exact hmapped
  rw [h2 loc hl hstill k, h1 loc hl hmapped k]

/-! ### No two owners of a frame or a slot share a byte -/

theorem frameByte_ne {f g : PhysAddr} (hf : f.toNat % 4 = 0) (hg : g.toNat % 4 = 0) (hne : g ≠ f) (i j : BitVec 2) :
    frameByte g i ≠ frameByte f j := by
  intro h
  have hquot : (frameByte g i).toNat / 4 = f.toNat / 4 := (exists_frameByte hf).mp ⟨j, h⟩
  have hquot' : (frameByte g i).toNat / 4 = g.toNat / 4 := (exists_frameByte hg).mp ⟨i, rfl⟩
  exact hne (BitVec.eq_of_toNat_eq (by omega))

theorem slotByte_ne {a b : SwapAddr} (ha : a.toNat % 4 = 0) (hb : b.toNat % 4 = 0) (hne : b ≠ a) (i j : BitVec 2) :
    slotByte b i ≠ slotByte a j := by
  intro h
  have hquot : (slotByte b i).toNat / 4 = a.toNat / 4 := (exists_slotByte ha).mp ⟨j, h⟩
  have hquot' : (slotByte b i).toNat / 4 = b.toNat / 4 := (exists_slotByte hb).mp ⟨i, rfl⟩
  exact hne (BitVec.eq_of_toNat_eq (by omega))

/-- The slot an eviction writes is not slot 0, so the PTE that names it reads as swapped. -/
theorem slotIdx_ne_zero {s : State} {a : SwapAddr} (ha : slotInRange s a = true) : slotIdx a ≠ 0 := by
  intro hzero
  obtain ⟨halign, hpos, -⟩ := slotInRange_iff.mp ha
  have hidx : a.toNat / 4 = 0 := by rw [← slotIdx_toNat, hzero]; rfl
  omega

section Held

variable {held : List PhysAddr} {s : State} {m : Memories} {loc v : PteLocation}

theorem mem_swappedSlots (hl : loc ∈ liveLocs s.proc) {a : SwapAddr} (ha : swappedSlot m loc = some a) :
    a ∈ swappedSlots s m := List.mem_filterMap.mpr ⟨loc, hl, ha⟩

theorem PagingHeld.frameByte_ne_page (h : PagingHeld held s m) (hl : loc ∈ liveLocs s.proc)
    (hv : v ∈ liveLocs s.proc) (hne : loc ≠ v) {f g : PhysAddr} (hg : presentFrame m loc = some g)
    (hf : presentFrame m v = some f) (i j : BitVec 2) : frameByte g i ≠ frameByte f j := by
  have hnodup := h.frames_nodup
  simp only [List.nodup_append] at hnodup
  obtain ⟨⟨⟨-, hpresent, -⟩, -⟩, -⟩ := hnodup
  exact frameByte_ne (h.presentFrame_range hv hf).1 (h.presentFrame_range hl hg).1
    (ne_of_nodup_filterMap hpresent hl hv hne hg hf) i j

theorem PagingHeld.frameByte_ne_held {f : PhysAddr} (h : PagingHeld (f :: held) s m) (hl : loc ∈ liveLocs s.proc)
    {g : PhysAddr} (hg : presentFrame m loc = some g) (i j : BitVec 2) : frameByte g i ≠ frameByte f j := by
  have hnodup := h.frames_nodup
  simp only [List.nodup_append] at hnodup
  obtain ⟨-, -, hheld⟩ := hnodup
  have hmem : g ∈ presentFrames s m := List.mem_filterMap.mpr ⟨loc, hl, hg⟩
  have hne : g ≠ f := hheld g (List.mem_append_left _ (List.mem_append_right _ hmem)) f List.mem_cons_self
  exact frameByte_ne (h.mem_frames (by simp)).1 (h.presentFrame_range hl hg).1 hne i j

theorem PagingHeld.slots_nodup (h : PagingHeld held s m) : (s.sq ++ swappedSlots s m).Nodup :=
  h.slots.nodup_iff.mpr (swapInit_nodup h.swapSize_le)

theorem PagingHeld.slot_aligned (h : PagingHeld held s m) {a : SwapAddr} (ha : a ∈ s.sq ++ swappedSlots s m) :
    a.toNat % 4 = 0 := (h.slot_range ha).1

theorem PagingHeld.slotByte_ne_page (h : PagingHeld held s m) (hl : loc ∈ liveLocs s.proc)
    (hv : v ∈ liveLocs s.proc) (hne : loc ≠ v) {a b : SwapAddr} (hb : swappedSlot m loc = some b)
    (ha : swappedSlot m v = some a) (i j : BitVec 2) : slotByte b i ≠ slotByte a j := by
  obtain ⟨-, hused, -⟩ := List.nodup_append.mp h.slots_nodup
  exact slotByte_ne (h.slot_aligned (List.mem_append_right _ (mem_swappedSlots hv ha)))
    (h.slot_aligned (List.mem_append_right _ (mem_swappedSlots hl hb)))
    (ne_of_nodup_filterMap hused hl hv hne hb ha) i j

theorem PagingHeld.slotByte_ne_free (h : PagingHeld held s m) (hl : loc ∈ liveLocs s.proc) {a b : SwapAddr}
    (hb : swappedSlot m loc = some b) (ha : a ∈ s.sq) (i j : BitVec 2) : slotByte b i ≠ slotByte a j := by
  obtain ⟨-, -, hfree⟩ := List.nodup_append.mp h.slots_nodup
  have hmem := mem_swappedSlots hl hb
  exact slotByte_ne (h.slot_aligned (List.mem_append_left _ ha)) (h.slot_aligned (List.mem_append_right _ hmem))
    (hfree a ha b hmem).symm i j

theorem PagingHeld.victim_live (h : PagingHeld held s m) {vq : List PteLocation} (hvq : s.vq = v :: vq) :
    v ∈ liveLocs s.proc := (h.mem_vq.mp (hvq ▸ List.mem_cons_self)).1

/-! ### What each operation on the memories keeps -/

/-- The victim's bytes go to a free slot, and its frame is no other page's. -/
theorem PagingHeld.evicted_keepsPages (h : PagingHeld held s m) (hv : v ∈ liveLocs s.proc) {p : Pfn} {u : Bool}
    (hp : pteDecode (m.readPte v) = .present p u) {a : SwapAddr} (ha : a ∈ s.sq) :
    KeepsPages s.proc m (evictedMemories v p a m) := by
  have hread := evictedMemories_readPte v p a h.wf
  have hrange := h.slot_range (List.mem_append_left (swappedSlots s m) ha)
  intro loc hl _ k
  by_cases hloc : loc = v
  · subst hloc
    have hswapped : pteDecode ((evictedMemories loc p a m).readPte loc) = .swapped (slotIdx a) := by
      rw [hread, if_pos rfl, pteDecode_encSwapped (slotIdx_ne_zero (slotInRange_iff.mpr hrange))]
    rw [pageByte_of_present hp, pageByte_of_swapped hswapped, slotAddr_slotIdx hrange.1,
      evictedMemories_slot loc p a h.wf]
  · refine pageByte_congr ((hread loc).trans (if_neg hloc)) (fun g hg => ?frame) (fun b hb => ?slot)
    case frame =>
      exact evictedMemories_pmem_other v p a h.wf (h.frameByte_ne_page hl hv hloc hg (presentFrame_of_present hp) k)
    case slot => exact evictedMemories_swap_other v p a h.wf (h.slotByte_ne_free hl hb ha k)

/-- A held frame is no page's, and the location it is bound to had no page. -/
theorem PagingHeld.bound_keepsPages {f : PhysAddr} (h : PagingHeld (f :: held) s m) {e : PteLocation}
    (he : pteDecode (m.readPte e) = .unmapped) : KeepsPages s.proc m (boundMemories e f m) := by
  intro loc hl hmapped k
  have hloc : loc ≠ e := by rintro rfl; exact hmapped (pteDecode_eq_unmapped_iff.mp he)
  refine pageByte_congr ((boundMemories_readPte e f h.wf loc).trans (if_neg hloc)) (fun g hg => ?_) fun _ _ => rfl
  rw [boundMemories_readPmem e f h.wf, if_neg]
  rintro ⟨i, hi⟩
  exact h.frameByte_ne_held hl hg k i hi

/-- The two pages change places; the frame and the slot are no other page's. -/
theorem PagingHeld.swappedIn_keepsPages (h : PagingHeld held s m) {e : PteLocation} (he : e ∈ liveLocs s.proc)
    {x : SlotIndex} (hx : pteDecode (m.readPte e) = .swapped x) (hv : v ∈ liveLocs s.proc) {p : Pfn} {u : Bool}
    (hp : pteDecode (m.readPte v) = .present p u) : KeepsPages s.proc m (swappedInMemories e v p x m) := by
  have hread := swappedInMemories_readPte e v p x h.wf
  have hve : v ≠ e := by rintro rfl; rw [hx] at hp; cases hp
  intro loc hl _ k
  by_cases hloc : loc = e
  · subst hloc
    have hpresent : pteDecode ((swappedInMemories loc v p x m).readPte loc) = .present p false := by
      rw [hread, if_pos rfl, pteDecode_encPresent]
    rw [pageByte_of_swapped hx, pageByte_of_present hpresent, swappedInMemories_frame loc v p x h.wf]
  by_cases hlocv : loc = v
  · subst hlocv
    have hswapped : pteDecode ((swappedInMemories e loc p x m).readPte loc) = .swapped x := by
      rw [hread, if_neg hve, if_pos rfl, pteDecode_encSwapped (pteDecode_swapped_ne_zero hx)]
    rw [pageByte_of_present hp, pageByte_of_swapped hswapped, swappedInMemories_slot e loc p x h.wf]
  · have hpte : (swappedInMemories e v p x m).readPte loc = m.readPte loc := by rw [hread, if_neg hloc, if_neg hlocv]
    refine pageByte_congr hpte (fun g hg => ?frame) (fun b hb => ?slot)
    case frame =>
      exact swappedInMemories_pmem_other e v p x h.wf
        (h.frameByte_ne_page hl hv hlocv hg (presentFrame_of_present hp) k)
    case slot =>
      exact swappedInMemories_swap_other e v p x h.wf
        (h.slotByte_ne_page hl he hloc hb (swappedSlot_of_swapped hx) k)

/-- A held frame is no live page table, so the table it becomes holds no page. -/
theorem PagingHeld.zeroTable_keepsPages {f : PhysAddr} (h : PagingHeld (f :: held) s m) :
    KeepsPages s.proc m (zeroTable f m) := by
  intro loc hl _ k
  refine pageByte_congr ?_ (fun g _ => zeroTable_readPmem f h.wf _) fun b _ => zeroTable_readSwap f h.wf _
  rw [zeroTable_readPte f h.wf, if_neg (h.live_not_in_held_table hl)]

/-- Obtaining a frame moves at most the oldest page, with its content. -/
theorem PagingHeld.obtain_keepsPages (h : PagingHeld held s m) (hm : s.mem = some m) {t : State} {n : Memories}
    {f : PhysAddr} (ho : obtainFrame s = .frame f t) (hn : t.mem = some n) : KeepsPages s.proc m n := by
  rcases obtainFrame_frame.mp ho with ⟨rest, -, -, rfl⟩ | ⟨w, vq, a, sq, -, hvq, hsq, he⟩
  · cases hm.symm.trans hn
    exact KeepsPages.refl s.proc m
  · obtain ⟨m', p, u, hm', hp, -, -, -, rfl⟩ := evictTo_ok.mp he
    cases hm'.symm.trans hm
    cases hn
    exact h.evicted_keepsPages (h.victim_live hvq) hp (hsq ▸ List.mem_cons_self)

end Held

/-- Every effect of a command but `MEMWR`'s keeps every mapped page. -/
theorem Effect.keepsPages {s t : State} {i : Instr} {m n : Memories} (he : Effect s i t) (hc : s.Consistent)
    (hm : s.mem = some m) (hn : t.mem = some n) (hi : ∀ pa data, i ≠ .memwr pa data) : KeepsPages s.proc m n := by
  have hp := hc.paging hm
  cases he with
  | response | failed =>
    cases hm.symm.trans hn
    exact KeepsPages.refl s.proc m
  | initialised pm sw hu =>
    obtain ⟨-, -, hnone, -⟩ := hc.of_uninit hu
    cases hnone.symm.trans hm
  | cleared => cases hn
  | stored m' pa data => exact absurd rfl (hi pa data)
  | admitted pid f s1 s2 hr hnew ho ha =>
    obtain ⟨m1, hm1, hheld, -⟩ := hp.obtain hm ho
    obtain ⟨-, hproc, -⟩ := obtainFrame_keeps ho
    obtain ⟨m1', hm1', -, rfl⟩ := addProcess_ok.mp ha
    cases hm1'.symm.trans hm1
    cases hn
    exact (hp.obtain_keepsPages hm ho hm1).trans (hproc ▸ hheld.zeroTable_keepsPages)
  | bound pid va b m' f s1 s2 hr hb hm' hu ho hbind =>
    cases hm'.symm.trans hm
    obtain ⟨m1, hm1, hheld, hunmapped⟩ := hp.obtain hm ho
    obtain ⟨-, hproc, -⟩ := obtainFrame_keeps ho
    obtain ⟨m1', hm1', -, rfl⟩ := bindFrame_ok.mp hbind
    cases hm1'.symm.trans hm1
    cases hn
    exact (hp.obtain_keepsPages hm ho hm1).trans (hproc ▸ hheld.bound_keepsPages (hunmapped _ hu))
  | swappedIn pid va b m' x w vq s2 hr hb hm' hx hv hswap =>
    cases hm'.symm.trans hm
    obtain ⟨m1, p, u, hm1, hpte, -, -, -, rfl⟩ := swapIn_ok.mp hswap
    cases hm1.symm.trans hm
    cases hn
    exact hp.swappedIn_keepsPages (pteLoc_mem_liveLocs hb _) hx (hp.victim_live hv) hpte

/-- Settles O50: no two owners of frames and slots share a byte, so an effect touches only the pages it moves, and
those move with their content. -/
theorem pagingKeepsPageContents : Obligations.PagingKeepsPageContents :=
  fun _ _ _ _ _ hc h hm hn hi => (exec_effect h).keepsPages hc hm hn hi

end Sys2Proof.Machine
end

section
/-!
PROOFS. `RESOLVE` (44_fault_engine.md R186 to R196): its answer in each case, the bytes and queues each path writes, and
that a page it answers `OK` for is present.
-/

namespace Sys2Proof.Machine

/-! ### Bytes -/

/-- The word of a command whose two operands are bytes (30_encoding.md R92, R93). -/
theorem commandWord_bytes (op : BitVec 4) (x y : BitVec 8) :
    commandWord op (x.setWidth 12) (y.setWidth 12) = op ++ 0#4 ++ (0#4 ++ x) ++ (0#4 ++ y) := by
  simp only [commandWord, setWidth_eq_zero_append]

theorem pteDecode_of_bit {b : Byte} (h : b.getLsbD 0 = true) :
    pteDecode b = .present (b.extractLsb' 2 6) (b.getLsbD 1) := if_pos h

theorem pteDecode_of_not_bit {b : Byte} (h : b.getLsbD 0 = false) (hne : b ≠ 0) :
    pteDecode b = .swapped (b.extractLsb' 1 7) := by
  simp only [pteDecode, h, Bool.false_eq_true, if_false, if_neg hne]

theorem ne_zero_of_swapped {b : Byte} {x : SlotIndex} (h : pteDecode b = .swapped x) : b ≠ 0 := by
  rintro rfl
  cases pteDecode_zero.symm.trans h

theorem boundMemories_frame (e : PteLocation) (f : PhysAddr) {m : Memories} (h : m.wf) (i : BitVec 2) :
    (boundMemories e f m).readPmem (frameByte f i) = 0 := by
  rw [boundMemories_readPmem e f h, if_pos ⟨i, rfl⟩]

theorem boundMemories_pmem_other (e : PteLocation) (f : PhysAddr) {m : Memories} (h : m.wf) {x : PhysAddr}
    (hx : ∀ i, x ≠ frameByte f i) : (boundMemories e f m).readPmem x = m.readPmem x := by
  rw [boundMemories_readPmem e f h, if_neg]
  rintro ⟨i, hi⟩
  exact hx i hi

/-- The location of a page in a table, as the rules write it (40_pte_codec.md R129; 44_fault_engine.md R195). -/
theorem pteLoc_vpnOfVa (b : PhysAddr) (va : VirtAddr) :
    pteLoc b (vpnOfVa va) = b.extractLsb' 2 6 ++ va.extractLsb' 2 6 := rfl

/-! ### The answer in each case -/

section Paths

variable {pid : Pid} {va : VirtAddr} {s : State} {m : Memories} {b : PhysAddr}

/-- Path 1 (44_fault_engine.md R187). -/
theorem exec_resolve_present (hr : s.lc = .ready) (hb : procLookup s.proc pid = some b) (hm : s.mem = some m)
    {p : Pfn} {u : Bool} (hp : pteDecode (m.readPte (pteLoc b (vpnOfVa va))) = .present p u) :
    exec (.resolve pid va) s = .next (s.answer .ok 0) := by
  simp only [exec, execResolve, whenReady_of_ready hr, hb, withMemories_some hm, hp, respond]

/-- Paths 2a and 2b, a frame obtained (44_fault_engine.md R188, R189). -/
theorem exec_resolve_bound (hr : s.lc = .ready) (hb : procLookup s.proc pid = some b) (hm : s.mem = some m)
    (hu : m.readPte (pteLoc b (vpnOfVa va)) = 0) {f : PhysAddr} {s1 : State} (ho : obtainFrame s = .frame f s1)
    {n : Memories} (hn : s1.mem = some n) (hroom : s1.vq.length < 64) :
    exec (.resolve pid va) s =
      .next (State.answer { s1 with mem := some (boundMemories (pteLoc b (vpnOfVa va)) f n),
                                    vq := s1.vq ++ [pteLoc b (vpnOfVa va)] } .ok 0) := by
  have hbind := bindFrame_ok (e := pteLoc b (vpnOfVa va)) (f := f) |>.mpr ⟨n, hn, hroom, rfl⟩
  simp only [exec_resolve_unmapped hr hb hm hu, resolveUnmapped, ho, hbind, orBreak, respond]

/-- Path 2b, no frame to be had (44_fault_engine.md R189). -/
theorem exec_resolve_exhausted (hr : s.lc = .ready) (hb : procLookup s.proc pid = some b) (hm : s.mem = some m)
    (hu : m.readPte (pteLoc b (vpnOfVa va)) = 0) (hfq : s.fq = []) (hempty : s.vq = [] ∨ s.sq = []) :
    exec (.resolve pid va) s = .next ({ s with lc := .failed }.answer .noCapacity 0) := by
  simp only [exec_resolve_unmapped hr hb hm hu, resolveUnmapped, obtainFrame_exhausted.mpr ⟨hfq, hempty⟩,
    failNoCapacity, respond]

/-- Path 3, with a victim (44_fault_engine.md R191). -/
theorem exec_resolve_swappedIn (hr : s.lc = .ready) (hb : procLookup s.proc pid = some b) (hm : s.mem = some m)
    {x : SlotIndex} (hx : pteDecode (m.readPte (pteLoc b (vpnOfVa va))) = .swapped x) {v : PteLocation}
    {vq : List PteLocation} (hvq : s.vq = v :: vq) {p : Pfn} {u : Bool} (hp : pteDecode (m.readPte v) = .present p u)
    (hpfn : p.toNat < nframes s) (hslot : slotInRange s (slotAddr x) = true) (hroom : vq.length < 64) :
    exec (.resolve pid va) s =
      .next (State.answer { s with mem := some (swappedInMemories (pteLoc b (vpnOfVa va)) v p x m),
                                   vq := vq ++ [pteLoc b (vpnOfVa va)] } .ok 0) := by
  have hi := swapIn_ok (e := pteLoc b (vpnOfVa va)) (v := v) (x := x) (s := { s with vq := vq }) |>.mpr
    ⟨m, p, u, hm, hp, hpfn, hslot, hroom, rfl⟩
  simp only [exec_resolve_swapped hr hb hm hx, resolveSwapped, victimSelect, hvq, hi, orBreak, respond]

/-- Path 3, no victim (44_fault_engine.md R191). -/
theorem exec_resolve_noVictim (hr : s.lc = .ready) (hb : procLookup s.proc pid = some b) (hm : s.mem = some m)
    {x : SlotIndex} (hx : pteDecode (m.readPte (pteLoc b (vpnOfVa va))) = .swapped x) (hvq : s.vq = []) :
    exec (.resolve pid va) s = .next ({ s with lc := .failed }.answer .noCapacity 0) := by
  simp only [exec_resolve_swapped hr hb hm hx, resolveSwapped, victimSelect, hvq, failNoCapacity, respond]

end Paths

/-- Settles O23: the records are searched before the memories are asked for. -/
theorem resolveUnknownPid : Obligations.ResolveUnknownPid := by
  intro pid va s
  refine ⟨commandWord_bytes 0x5 pid va, fun hr => lifecycleRefusal _ s (decide_eq_false hr), fun hr hn => ?_⟩
  simp only [exec, execResolve, whenReady_of_ready hr, procLookup_none.mpr hn]
  rfl

/-- Settles O25: the memories are those a bind of the free frame leaves, read byte by byte. -/
theorem resolveBindsAFreeFrame : Obligations.ResolveBindsAFreeFrame := by
  intro pid va s m b f rest hr hb hm hwf
  rw [← pteLoc_vpnOfVa]
  intro hu hfq halign hlt hroom
  have hread := boundMemories_readPte (pteLoc b (vpnOfVa va)) f hwf
  exact ⟨boundMemories (pteLoc b (vpnOfVa va)) f m,
    exec_resolve_bound hr hb hm hu (obtainFrame_free hfq halign hlt) hm hroom, boundMemories_wf _ f hwf,
    boundMemories_frame _ f hwf, fun x hx => boundMemories_pmem_other _ f hwf hx, fun x => rfl,
    (hread _).trans (if_pos rfl), fun loc hloc => (hread loc).trans (if_neg hloc)⟩

/-- Settles O26: the memories are those an eviction and then a bind of the victim's frame leave, read byte by byte; the
faulting location is not the victim's, since its page is not present. -/
theorem resolveEvictsTheOldest : Obligations.ResolveEvictsTheOldest := by
  intro pid va s m b hr hb hm hwf
  rw [← pteLoc_vpnOfVa]
  intro hu hfq
  refine ⟨fun hempty => exec_resolve_exhausted hr hb hm hu hfq hempty, ?_⟩
  intro v vq a sq p u hvq hsq hp hpfn halign hpos hlt hroom
  have ho := obtainFrame_evict hfq hvq hsq hm hp hpfn (slotInRange_iff.mpr ⟨halign, hpos, hlt⟩)
  have hwf' := evictedMemories_wf v p a hwf
  have hread := boundMemories_readPte (pteLoc b (vpnOfVa va)) (frameAddr p) hwf'
  have hne : v ≠ pteLoc b (vpnOfVa va) := by
    rintro rfl
    cases (unmapped_of_zero hu).symm.trans hp
  refine ⟨boundMemories (pteLoc b (vpnOfVa va)) (frameAddr p) (evictedMemories v p a m),
    exec_resolve_bound hr hb hm hu ho rfl hroom, boundMemories_wf _ _ hwf', boundMemories_frame _ _ hwf',
    fun x hx => ?pmem, fun i => ?slot, fun x hx => ?swap, ?victim, ?faulting, fun loc hv he => ?pte⟩
  case pmem => rw [boundMemories_pmem_other _ _ hwf' hx, evictedMemories_pmem_other v p a hwf hx]
  case slot => rw [boundMemories_readSwap, evictedMemories_slot v p a hwf]
  case swap => rw [boundMemories_readSwap, evictedMemories_swap_other v p a hwf hx]
  case victim => rw [hread, if_neg hne, evictedMemories_readPte v p a hwf, if_pos rfl, pteEncSwapped, slotIdx]
  case faulting => rw [hread, if_pos rfl, pfnOf_frameAddr, pteEncPresent]
  case pte => rw [hread, if_neg he, evictedMemories_readPte v p a hwf, if_neg hv]

/-- Settles O27: the memories are those a swap-in leaves, read byte by byte; the slot a swapped PTE names is not slot
0, and the faulting location is not the victim's. -/
theorem resolveSwapsIn : Obligations.ResolveSwapsIn := by
  intro pid va s m b slot hr hb hm hwf
  rw [← pteLoc_vpnOfVa]
  intro hx
  refine ⟨fun hvq => exec_resolve_noVictim hr hb hm hx hvq, ?_⟩
  intro v vq p u hvq hp hpfn hslot hroom
  have hpos : 0 < slot.toNat := Nat.pos_of_ne_zero fun h => pteDecode_swapped_ne_zero hx (BitVec.eq_of_toNat_eq h)
  have hrange : slotInRange s (slotAddr slot) = true := by rw [slotInRange_iff, slotAddr_toNat]; omega
  have hne : v ≠ pteLoc b (vpnOfVa va) := by
    rintro rfl
    cases hx.symm.trans hp
  have hread := swappedInMemories_readPte (pteLoc b (vpnOfVa va)) v p slot hwf
  exact ⟨swappedInMemories (pteLoc b (vpnOfVa va)) v p slot m,
    exec_resolve_swappedIn hr hb hm hx hvq hp hpfn hrange hroom, swappedInMemories_wf _ v p slot hwf,
    swappedInMemories_frame _ v p slot hwf, fun x hx => swappedInMemories_pmem_other _ v p slot hwf hx,
    swappedInMemories_slot _ v p slot hwf, fun x hx => swappedInMemories_swap_other _ v p slot hwf hx,
    (hread v).trans ((if_neg hne).trans (if_pos rfl)), (hread _).trans (if_pos rfl),
    fun loc hv he => (hread loc).trans ((if_neg he).trans (if_neg hv))⟩

/-! ### What `RESOLVE` can do, with the case it does it in -/

theorem resolveUnmapped_next {e : PteLocation} {s t : State} (h : resolveUnmapped e s = .next t) :
    (s.fq = [] ∧ (s.vq = [] ∨ s.sq = []) ∧ t = { s with lc := .failed }.answer .noCapacity 0) ∨
    ∃ f s1 s2, obtainFrame s = .frame f s1 ∧ bindFrame e f s1 = .ok s2 ∧ t = s2.answer .ok 0 := by
  unfold resolveUnmapped at h
  split at h
  · rename_i ho
    obtain ⟨hfq, hempty⟩ := obtainFrame_exhausted.mp ho
    cases h
    exact .inl ⟨hfq, hempty, rfl⟩
  · cases h
  · rename_i f s1 ho
    obtain ⟨s2, hbind, h⟩ := orBreak_next.mp h
    cases h
    exact .inr ⟨f, s1, s2, ho, hbind, rfl⟩

theorem resolveSwapped_next {e : PteLocation} {x : SlotIndex} {s t : State} (h : resolveSwapped e x s = .next t) :
    (s.vq = [] ∧ t = { s with lc := .failed }.answer .noCapacity 0) ∨
    ∃ v vq s2, s.vq = v :: vq ∧ swapIn e x v { s with vq := vq } = .ok s2 ∧ t = s2.answer .ok 0 := by
  unfold resolveSwapped victimSelect at h
  cases hvq : s.vq with
  | nil =>
    simp only [hvq] at h
    cases h
    exact .inl ⟨rfl, by rw [hvq]⟩
  | cons v vq =>
    simp only [hvq] at h
    obtain ⟨s2, hi, h⟩ := orBreak_next.mp h
    cases h
    exact .inr ⟨v, vq, s2, rfl, hi, rfl⟩

/-- The cases in which `RESOLVE` has no frame to give (44_fault_engine.md R193). -/
def NoFrameFor (pid : Pid) (va : VirtAddr) (s : State) : Prop :=
  s.lc = .ready ∧ ∃ b m, procLookup s.proc pid = some b ∧ s.mem = some m ∧
    ((m.readPte (pteLoc b (vpnOfVa va)) = 0 ∧ s.fq = [] ∧ (s.vq = [] ∨ s.sq = [])) ∨
     (m.readPte (pteLoc b (vpnOfVa va)) ≠ 0 ∧ (m.readPte (pteLoc b (vpnOfVa va))).getLsbD 0 = false ∧ s.vq = []))

/-- The ends of `RESOLVE`, each with its case. It is finer than `Effect`, which does not say where an answer that only
writes the response, or the failure, comes from. -/
inductive ResolveEnd (pid : Pid) (va : VirtAddr) (s : State) : State → Prop
  /-- `REFUSED` or `NOT_FOUND`. -/
  | rejected (st : Status) (hok : st ≠ .ok) (hcap : st ≠ .noCapacity) : ResolveEnd pid va s (s.answer st 0)
  /-- Path 1. -/
  | present (b : PhysAddr) (m : Memories) (hr : s.lc = .ready) (hb : procLookup s.proc pid = some b)
      (hm : s.mem = some m) (hp : isPresent m (pteLoc b (vpnOfVa va)) = true) : ResolveEnd pid va s (s.answer .ok 0)
  /-- Paths 2b and 3 without what they need. -/
  | failed (h : NoFrameFor pid va s) : ResolveEnd pid va s ({ s with lc := .failed }.answer .noCapacity 0)
  /-- Paths 2a and 2b. -/
  | bound (b : PhysAddr) (m : Memories) (f : PhysAddr) (s1 s2 : State) (hr : s.lc = .ready)
      (hb : procLookup s.proc pid = some b) (hm : s.mem = some m) (hu : m.readPte (pteLoc b (vpnOfVa va)) = 0)
      (ho : obtainFrame s = .frame f s1) (hbind : bindFrame (pteLoc b (vpnOfVa va)) f s1 = .ok s2) :
      ResolveEnd pid va s (s2.answer .ok 0)
  /-- Path 3. -/
  | swappedIn (b : PhysAddr) (m : Memories) (x : SlotIndex) (v : PteLocation) (vq : List PteLocation) (s2 : State)
      (hr : s.lc = .ready) (hb : procLookup s.proc pid = some b) (hm : s.mem = some m)
      (hx : pteDecode (m.readPte (pteLoc b (vpnOfVa va))) = .swapped x) (hvq : s.vq = v :: vq)
      (hi : swapIn (pteLoc b (vpnOfVa va)) x v { s with vq := vq } = .ok s2) : ResolveEnd pid va s (s2.answer .ok 0)

theorem exec_resolve_end {pid : Pid} {va : VirtAddr} {s t : State} (h : exec (.resolve pid va) s = .next t) :
    ResolveEnd pid va s t := by
  rcases whenReady_next.mp h with ⟨hr, hbody⟩ | ⟨-, rfl⟩
  · split at hbody
    · cases hbody
      exact .rejected .notFound (by decide) (by decide)
    · rename_i b hb
      obtain ⟨m, hm, hbody⟩ := withMemories_next.mp hbody
      split at hbody
      · rename_i hp
        cases hbody
        exact .present b m hr hb hm (isPresent_of_present hp)
      · rename_i hu
        have hzero := pteDecode_eq_unmapped_iff.mp hu
        rcases resolveUnmapped_next hbody with ⟨hfq, hempty, rfl⟩ | ⟨f, s1, s2, ho, hbind, rfl⟩
        · exact .failed ⟨hr, b, m, hb, hm, .inl ⟨hzero, hfq, hempty⟩⟩
        · exact .bound b m f s1 s2 hr hb hm hzero ho hbind
      · rename_i x hx
        rcases resolveSwapped_next hbody with ⟨hvq, rfl⟩ | ⟨v, vq, s2, hvq, hi, rfl⟩
        · exact .failed ⟨hr, b, m, hb, hm, .inr ⟨ne_zero_of_swapped hx, isPresent_of_swapped hx, hvq⟩⟩
        · exact .swappedIn b m x v vq s2 hr hb hm hx hvq hi
  · exact .rejected .refused (by decide) (by decide)

/-! ### Failure (44_fault_engine.md R193) -/

theorem NoFrameFor.exec_resolve {pid : Pid} {va : VirtAddr} {s : State} (h : NoFrameFor pid va s) :
    exec (.resolve pid va) s = .next ({ s with lc := .failed }.answer .noCapacity 0) := by
  obtain ⟨hr, b, m, hb, hm, ⟨hu, hfq, hempty⟩ | ⟨hne, hbit, hvq⟩⟩ := h
  · exact exec_resolve_exhausted hr hb hm hu hfq hempty
  · exact exec_resolve_noVictim hr hb hm (pteDecode_of_not_bit hbit hne) hvq

theorem ResolveEnd.noFrameFor {pid : Pid} {va : VirtAddr} {s t : State} (h : ResolveEnd pid va s t)
    (hrsp : t.rsp = 0x2000) : NoFrameFor pid va s := by
  cases h with
  | failed h => exact h
  | rejected st _ hcap => exact absurd (status_of_noCapacity_word hrsp) hcap
  | present | bound | swappedIn => cases status_of_noCapacity_word hrsp

/-- Settles O28: of the ends of `RESOLVE` only the failure has this response; in `FAILED` no gate is open. -/
theorem resolveFailsExactly : Obligations.ResolveFailsExactly := by
  refine ⟨fun pid va s t h => ⟨⟨(exec_resolve_end h).noFrameFor, fun hno => ?answers⟩, fun hrsp => ?changes⟩,
    fun i s hf hnt hnc => lifecycleRefusal i s ?closed, fun s hf => ⟨?register, s.cleared.answer .ok 0, rfl, rfl, rfl⟩⟩
  case answers =>
    cases (NoFrameFor.exec_resolve hno).symm.trans h
    rfl
  case changes =>
    cases ((exec_resolve_end h).noFrameFor hrsp).exec_resolve.symm.trans h
    rfl
  case closed =>
    rw [hf]
    cases i with
    | teardown => exact absurd rfl hnt
    | csrrd n => exact absurd rfl (hnc n)
    | init | admitProc | lookup | translate | resolve | memrd | memwr | swrd | pterd => rfl
  case register =>
    obtain ⟨-, -, hcsr, -⟩ := lifecycleTransitions
    rw [hcsr s, hf]
    rfl

/-! ### Success (44_fault_engine.md R187, R194) -/

/-- The state in which `RESOLVE` has ended with `OK`: the page is present. -/
def Resolved (pid : Pid) (va : VirtAddr) (t : State) : Prop :=
  t.lc = .ready ∧ t.rsp = responseWord .ok 0 ∧ t.rspValid = true ∧
    ∃ b m, procLookup t.proc pid = some b ∧ t.mem = some m ∧ isPresent m (pteLoc b (vpnOfVa va)) = true

/-- Each path that answers `OK` finds the page present or writes its PTE so. -/
theorem ResolveEnd.resolved {pid : Pid} {va : VirtAddr} {s t : State} (h : ResolveEnd pid va s t) (hc : s.Consistent)
    (hok : t.rsp.extractLsb' 12 4 = 0) : Resolved pid va t := by
  cases h with
  | rejected st hne => exact absurd (status_of_answer hok) hne
  | failed => cases status_of_answer hok
  | present b m hr hb hm hp => exact ⟨hr, rfl, rfl, b, m, hb, hm, hp⟩
  | bound b m f s1 s2 hr hb hm hu ho hbind =>
    obtain ⟨m1, hm1, hheld, -⟩ := (hc.paging hm).obtain hm ho
    obtain ⟨hlc, hproc, -⟩ := obtainFrame_keeps ho
    obtain ⟨m1', hm1', -, rfl⟩ := bindFrame_ok.mp hbind
    cases hm1'.symm.trans hm1
    refine ⟨hlc.trans hr, rfl, rfl, b, _, hproc ▸ hb, rfl, ?_⟩
    rw [isPresent, boundMemories_readPte _ f hheld.wf, if_pos rfl, pteEncPresent_bit0]
  | swappedIn b m x v vq s2 hr hb hm hx hvq hi =>
    obtain ⟨m1, p, u, hm1, -, -, -, -, rfl⟩ := swapIn_ok.mp hi
    cases hm1.symm.trans hm
    refine ⟨hr, rfl, rfl, b, _, hb, rfl, ?_⟩
    rw [isPresent, swappedInMemories_readPte _ v p x (hc.paging hm).wf, if_pos rfl, pteEncPresent_bit0]

theorem Resolved.exec_again {pid : Pid} {va : VirtAddr} {t : State} (h : Resolved pid va t) :
    exec (.resolve pid va) t = .next t := by
  obtain ⟨hr, hrsp, hvalid, b, m, hb, hm, hp⟩ := h
  rw [exec_resolve_present hr hb hm (pteDecode_of_bit hp), State.answer_eq_self hrsp hvalid]

/-- Settles O24: a present page is path 1, and a page `RESOLVE` has answered `OK` for is present. -/
theorem resolvePresentPage : Obligations.ResolvePresentPage := by
  refine ⟨fun pid va s m b hr hb hm hp => exec_resolve_present hr hb hm (pteDecode_of_bit hp),
    fun pid va s t hc h hrsp => ((exec_resolve_end h).resolved hc ?_).exec_again⟩
  rw [hrsp]
  rfl

/-- `TRANSLATE` of a present page answers the physical address its PTE gives (45_translator.md R205). -/
theorem exec_translate_present {base : PhysAddr} {va : VirtAddr} {s : State} {m : Memories} (hr : s.lc = .ready)
    (hbase : base ∈ s.proc.map (·.base)) (hm : s.mem = some m) {p : Pfn} {u : Bool}
    (hp : pteDecode (m.readPte (pteLoc base (vpnOfVa va))) = .present p u) :
    exec (.translate base va) s = .next (s.answer .ok (0#4 ++ physAddr p (offOfVa va))) := by
  simp only [exec, execTranslate, whenReady_of_ready hr, if_pos (liveBase_iff.mpr hbase), withMemories_some hm, hp,
    respond, setWidth_eq_zero_append]

/-- Settles O29: `TRANSLATE` walks to the PTE that `RESOLVE` left present, under a base that the record found holds. -/
theorem translateAfterResolve : Obligations.TranslateAfterResolve := by
  intro pid va s t hc h hok
  obtain ⟨hr, -, -, b, m, hb, hm, hp⟩ := (exec_resolve_end h).resolved hc hok
  have hbase : b ∈ t.proc.map (·.base) := List.mem_map_of_mem (procLookup_mem hb)
  exact ⟨b, m, hb, hm, hp, exec_translate_present hr hbase hm (pteDecode_of_bit hp)⟩

end Sys2Proof.Machine
end

section
/-!
PROOFS. `TRANSLATE` (45_translator.md R205, R208): its answer for a base that no record holds, and for a PTE that is not
present. The answer for a present PTE is `exec_translate_present`.
-/

namespace Sys2Proof.Machine

/-- A base that no record holds is refused before the memories are asked for (45_translator.md R208). -/
theorem exec_translate_dead {base : PhysAddr} (va : VirtAddr) {s : State} (hr : s.lc = .ready)
    (hbase : base ∉ s.proc.map (·.base)) : exec (.translate base va) s = .next (s.answer .refused 0) := by
  have hdead : ¬ liveBase s.proc base = true := mt liveBase_iff.mp hbase
  simp only [exec, execTranslate, whenReady_of_ready hr, if_neg hdead, refuse, respond]

/-- An unmapped and a swapped page have the same answer (45_translator.md R205). -/
theorem exec_translate_fault {base : PhysAddr} {va : VirtAddr} {s : State} {m : Memories} (hr : s.lc = .ready)
    (hbase : base ∈ s.proc.map (·.base)) (hm : s.mem = some m)
    (hbit : (m.readPte (pteLoc base (vpnOfVa va))).getLsbD 0 = false) :
    exec (.translate base va) s = .next (s.answer .fault 0) := by
  cases hd : pteDecode (m.readPte (pteLoc base (vpnOfVa va))) with
  | present p u => cases hbit.symm.trans (pteDecode_present_bit hd)
  | unmapped | swapped =>
    simp only [exec, execTranslate, whenReady_of_ready hr, if_pos (liveBase_iff.mpr hbase), withMemories_some hm, hd,
      respond]

/-- Settles O22: the lifecycle and then the base are checked, and bit 0 of the PTE at the walk's location decides
between `OK` and `FAULT`; the present arm holds for either user flag. -/
theorem translateWalksTheTable : Obligations.TranslateWalksTheTable := by
  intro base va s m
  rw [← pteLoc_vpnOfVa]
  exact ⟨commandWord_bytes 0x4 base va, fun hr => lifecycleRefusal _ s (decide_eq_false hr),
    fun hr hbase => exec_translate_dead va hr hbase,
    fun hr hbase hm hbit => exec_translate_present hr hbase hm (pteDecode_of_bit hbit),
    fun hr hbase hm hbit => exec_translate_fault hr hbase hm hbit⟩

end Sys2Proof.Machine
end

section
/-!
PROOFS. The host access commands (46_lifecycle_and_access.md R218 to R222): their command words, the operand bound that
`MEMRD`, `MEMWR` and `SWRD` share, the base that `PTERD` wants live, and the registers `CSRRD` reads.
-/

namespace Sys2Proof.Machine

/-! ### The bound on an address operand -/

section Bounded

variable {s : State} {size addr : Nat}

/-- An address at or beyond the size register is refused before the memories are asked for. -/
theorem bounded_refused {body : Out} (hr : s.lc = .ready) (h : size ≤ addr) :
    whenReady s (if size ≤ addr then refuse s else body) = .next (s.answer .refused 0) := by
  rw [whenReady_of_ready hr, if_pos h, refuse, respond]

/-- An address below the size register reaches the memories. -/
theorem bounded_body {body : Memories → Out} {m : Memories} (hr : s.lc = .ready) (h : addr < size)
    (hm : s.mem = some m) : whenReady s (if size ≤ addr then refuse s else withMemories s body) = body m := by
  rw [whenReady_of_ready hr, if_neg (Nat.not_le_of_lt h), withMemories_some hm]

end Bounded

/-! ### `MEMWR` (R219) -/

theorem exec_memwr_refused {pa : PhysAddr} (data : Byte) {s : State} (hr : s.lc = .ready)
    (h : s.pmemSize.toNat ≤ pa.toNat) : exec (.memwr pa data) s = .next (s.answer .refused 0) := bounded_refused hr h

theorem exec_memwr_stored {pa : PhysAddr} (data : Byte) {s : State} {m : Memories} (hr : s.lc = .ready)
    (h : pa.toNat < s.pmemSize.toNat) (hm : s.mem = some m) :
    exec (.memwr pa data) s = .next ({ s with mem := some (m.writePmem pa data) }.answer .ok 0) :=
  bounded_body hr h hm

/-- Settles O15: the memories are those a store of the byte leaves, read byte by byte. -/
theorem memwrWritesOneByte : Obligations.MemwrWritesOneByte := by
  intro pa data s m
  refine ⟨commandWord_bytes 0x7 pa data, fun hr => lifecycleRefusal _ s (decide_eq_false hr),
    fun hr h => exec_memwr_refused data hr h, fun hr h hm hwf => ?stored⟩
  case stored =>
    have hread := Memories.readPmem_writePmem hwf pa data
    refine ⟨m.writePmem pa data, exec_memwr_stored data hr h hm, Memories.wf_writePmem hwf pa data, ?_,
      fun x hx => ?_, Memories.readSwap_writePmem m pa data, Memories.readPte_writePmem m pa data⟩
    · rw [hread, if_pos rfl]
    · rw [hread, if_neg hx]

/-! ### `MEMRD` and `SWRD` (R218, R220) -/

theorem exec_memrd_refused {pa : PhysAddr} {s : State} (hr : s.lc = .ready) (h : s.pmemSize.toNat ≤ pa.toNat) :
    exec (.memrd pa) s = .next (s.answer .refused 0) := bounded_refused hr h

theorem exec_memrd_read {pa : PhysAddr} {s : State} {m : Memories} (hr : s.lc = .ready)
    (h : pa.toNat < s.pmemSize.toNat) (hm : s.mem = some m) :
    exec (.memrd pa) s = .next (s.answer .ok (0#4 ++ m.readPmem pa)) := by
  rw [← setWidth_eq_zero_append]
  exact bounded_body hr h hm

theorem exec_swrd_refused {sa : SwapAddr} {s : State} (hr : s.lc = .ready) (h : s.swapSize.toNat ≤ sa.toNat) :
    exec (.swrd sa) s = .next (s.answer .refused 0) := bounded_refused hr h

theorem exec_swrd_read {sa : SwapAddr} {s : State} {m : Memories} (hr : s.lc = .ready)
    (h : sa.toNat < s.swapSize.toNat) (hm : s.mem = some m) :
    exec (.swrd sa) s = .next (s.answer .ok (0#4 ++ m.readSwap sa)) := by
  rw [← setWidth_eq_zero_append]
  exact bounded_body hr h hm

/-- The word of `SWRD`, whose operand has nine bits (30_encoding.md R93). -/
theorem encode_swrd (sa : SwapAddr) : encode (.swrd sa) = 0x8#4 ++ 0#4 ++ (0#3 ++ sa) ++ 0#12 := by
  have hop : sa.setWidth 12 = 0#3 ++ sa := BitVec.setWidth_eq_append (by decide)
  simp only [encode, commandWord, hop, BitVec.ofNat_eq_ofNat]

/-- Settles O14. -/
theorem memrdReadsOneByte : Obligations.MemrdReadsOneByte := fun pa s _ =>
  ⟨commandWord_byte 0x6 pa, fun hr => lifecycleRefusal _ s (decide_eq_false hr), exec_memrd_refused, exec_memrd_read⟩

/-- Settles O16. -/
theorem swrdReadsOneByte : Obligations.SwrdReadsOneByte := fun sa s _ =>
  ⟨encode_swrd sa, fun hr => lifecycleRefusal _ s (decide_eq_false hr), exec_swrd_refused, exec_swrd_read⟩

/-! ### `PTERD` (R221) -/

/-- The word of `PTERD`, whose second operand has six bits (30_encoding.md R93). -/
theorem encode_pterd (base : PhysAddr) (vpn : Vpn) :
    encode (.pterd base vpn) = 0x9#4 ++ 0#4 ++ (0#4 ++ base) ++ (0#6 ++ vpn) := by
  have hop : vpn.setWidth 12 = 0#6 ++ vpn := BitVec.setWidth_eq_append (by decide)
  simp only [encode, commandWord, setWidth_eq_zero_append, hop, BitVec.ofNat_eq_ofNat]

/-- A base that no record holds is refused before the memories are asked for. -/
theorem exec_pterd_dead {base : PhysAddr} (vpn : Vpn) {s : State} (hr : s.lc = .ready)
    (hbase : base ∉ s.proc.map (·.base)) : exec (.pterd base vpn) s = .next (s.answer .refused 0) := by
  have hdead : ¬ liveBase s.proc base = true := mt liveBase_iff.mp hbase
  simp only [exec, execPterd, whenReady_of_ready hr, if_neg hdead, refuse, respond]

theorem exec_pterd_read {base : PhysAddr} (vpn : Vpn) {s : State} {m : Memories} (hr : s.lc = .ready)
    (hbase : base ∈ s.proc.map (·.base)) (hm : s.mem = some m) :
    exec (.pterd base vpn) s = .next (s.answer .ok (0#4 ++ m.readPte (pteLoc base vpn))) := by
  simp only [exec, execPterd, whenReady_of_ready hr, if_pos (liveBase_iff.mpr hbase), withMemories_some hm, respond,
    setWidth_eq_zero_append]

/-- Settles O17. -/
theorem pterdReadsThePte : Obligations.PterdReadsThePte := fun base vpn s _ =>
  ⟨encode_pterd base vpn, fun hr => lifecycleRefusal _ s (decide_eq_false hr), exec_pterd_dead vpn,
    exec_pterd_read vpn⟩

/-! ### `CSRRD` (R222) -/

/-- An `OK` response whose value is a number of at most 12 bits is that number (30_encoding.md R95). -/
theorem responseWord_ok_ofNat {k : Nat} (h : k < 4096) : responseWord .ok (BitVec.ofNat 12 k) = BitVec.ofNat 16 k := by
  have hword : responseWord .ok (BitVec.ofNat 12 k) = (BitVec.ofNat 12 k).setWidth 16 :=
    (BitVec.setWidth_eq_append (by decide)).symm
  rw [hword, ← BitVec.toNat_inj, BitVec.toNat_setWidth, BitVec.toNat_ofNat, BitVec.toNat_ofNat, Nat.mod_eq_of_lt h]

/-- The numbers above 8 are reserved (10_state.md R33). -/
theorem csrRead_reserved {n : BitVec 8} (s : State) (h : 8 < n.toNat) : csrRead s n = none := by
  unfold csrRead
  split
  case h_10 => rfl
  all_goals omega

/-- At reset each of the nine registers is 0 (10_state.md R37). -/
theorem csrRead_reset {n : BitVec 8} (h : n.toNat ≤ 8) : csrRead State.reset n = some (.ok 0) := by
  unfold csrRead
  interval_cases n.toNat <;> rfl

section Registers

variable {n : BitVec 8} {s : State}

theorem exec_csrrd_reserved (hn : csrRead s n = none) : exec (.csrrd n) s = .next (s.answer .refused 0) := by
  simp only [exec, execCsrrd, hn, refuse, respond]

theorem exec_csrrd_value {v : BitVec 12} (hn : csrRead s n = some (.ok v)) :
    exec (.csrrd n) s = .next (s.answer .ok v) := by
  simp only [exec, execCsrrd, hn, orBreak, respond]

/-- A register that counts answers the count. -/
theorem exec_csrrd_number {k : Nat} (hn : csrRead s n = some (.ok (BitVec.ofNat 12 k))) (hk : k < 4096) :
    exec (.csrrd n) s = .next { s with rsp := BitVec.ofNat 16 k, rspValid := true } := by
  rw [exec_csrrd_value hn, State.answer, responseWord_ok_ofNat hk]

/-- A count register answers the length of its queue or table, where that is within the hardware's. -/
theorem exec_csrrd_length {most len : Nat} (hn : csrRead s n = some (countRegister most len)) (hmost : most < 4096)
    (h : len ≤ most) : exec (.csrrd n) s = .next { s with rsp := BitVec.ofNat 16 len, rspValid := true } :=
  exec_csrrd_number (hn.trans (congrArg some (countRegister_ok h))) (h.trans_lt hmost)

end Registers

/-- Settles O18: the numbers of the register map, one by one. -/
theorem csrrdReadsTheRegisterMap : Obligations.CsrrdReadsTheRegisterMap := by
  intro n s
  refine ⟨commandWord_byte 0xA n, fun h => exec_csrrd_reserved (csrRead_reserved s h), ?lifecycle, ?pmemSize, ?swapSize,
    ?nframes, ?nslots, exec_csrrd_length rfl (by decide), exec_csrrd_length rfl (by decide),
    exec_csrrd_length rfl (by decide), exec_csrrd_length rfl (by decide),
    fun h => exec_csrrd_value (csrRead_reset h)⟩
  case lifecycle =>
    obtain ⟨-, -, hcsr, -⟩ := lifecycleTransitions
    exact hcsr s
  case pmemSize =>
    have hvalue : s.pmemSize.setWidth 12 = 0#3 ++ s.pmemSize := BitVec.setWidth_eq_append (by decide)
    rw [← hvalue]
    exact exec_csrrd_value rfl
  case swapSize =>
    have hvalue : s.swapSize.setWidth 12 = 0#2 ++ s.swapSize := BitVec.setWidth_eq_append (by decide)
    rw [← hvalue]
    exact exec_csrrd_value rfl
  case nframes => exact exec_csrrd_number rfl (by omega)
  case nslots => exact exec_csrrd_number rfl (by omega)

end Sys2Proof.Machine
end

section
/-!
PROOFS. `INIT` and `TEARDOWN` (46_lifecycle_and_access.md R215 to R217).
-/

namespace Sys2Proof.Machine

/-! ### `INIT` (R215, R216) -/

section Init

variable {pm sw : BitVec 12} {s : State}

theorem whenUninit_of_uninit (hu : s.lc = .uninit) (body : Out) : whenUninit s body = body := if_pos hu

/-- Both sizes are checked before anything is written. -/
theorem exec_init_tooLarge (hu : s.lc = .uninit) (h : 256 < pm.toNat ∨ 512 < sw.toNat) :
    exec (.init pm sw) s = .next (s.answer .allocError 0) := by
  rw [exec, execInit, whenUninit_of_uninit hu, Config.pmemCap, Config.swapCap, if_pos h, respond]

theorem exec_init_built (hu : s.lc = .uninit) (hpm : pm.toNat ≤ 256) (hsw : sw.toNat ≤ 512) :
    exec (.init pm sw) s = .next ((s.initialised pm sw).answer .ok 0) := by
  have hsizes : ¬ (256 < pm.toNat ∨ 512 < sw.toNat) := by omega
  rw [exec, execInit, whenUninit_of_uninit hu, Config.pmemCap, Config.swapCap, if_neg hsizes, respond]

end Init

/-- Settles O12: the state built is `State.initialised`, over the zeroed memories. -/
theorem initBuildsThePagingState : Obligations.InitBuildsThePagingState := by
  intro pm sw s
  refine ⟨rfl, fun hu => lifecycleRefusal _ s (decide_eq_false hu), exec_init_tooLarge, fun hu hpm hsw => ?built⟩
  case built =>
    refine ⟨Memories.zeroed, ?_, Memories.readPmem_zeroed, Memories.readSwap_zeroed, Memories.readPte_zeroed⟩
    rw [exec_init_built hu hpm hsw, BitVec.ofNat_toNat, BitVec.ofNat_toNat]
    rfl

/-! ### `TEARDOWN` (R217) -/

/-- A consistent `UNINIT` state has nothing to clear. -/
theorem State.Consistent.cleared_eq_self {s : State} (hc : s.Consistent) (hu : s.lc = .uninit) : s.cleared = s := by
  obtain ⟨hpm, hsw, hmem, hfq, hsq, hvq, hproc⟩ := hc.of_uninit hu
  rw [State.cleared, ← hu, ← hpm, ← hsw, ← hmem, ← hfq, ← hsq, ← hvq, ← hproc]

/-- Among the transitions of `LC` only `TEARDOWN`'s leads out of `FAILED`. -/
theorem teardown_of_leaves_failed {i : Instr} {s t : State} (hf : s.lc = .failed) (h : exec i s = .next t)
    (hne : t.lc ≠ .failed) : i = .teardown := by
  obtain hsame | ⟨hu, -⟩ | ⟨hr, -⟩ | ⟨-, hi⟩ := (exec_effect h).lifecycle
  · exact absurd (hsame.trans hf) hne
  · cases hf.symm.trans hu
  · cases hf.symm.trans hr
  · exact hi

/-- Settles O13: `TEARDOWN` answers in `State.cleared`, which a consistent `UNINIT` state is already. -/
theorem teardownClearsThePagingState : Obligations.TeardownClearsThePagingState := by
  have hexec : ∀ s : State, exec .teardown s = .next (s.cleared.answer .ok 0) := fun _ => rfl
  refine ⟨by decide, hexec, fun i s t => teardown_of_leaves_failed, fun s hc hu => ?_⟩
  rw [hexec, hc.cleared_eq_self hu]
  rfl

end Sys2Proof.Machine
end

section
/-!
PROOFS. What a command that does not succeed leaves unchanged (60_exceptions.md R250): everything but the response and,
on `NO_CAPACITY`, `LC`.
-/

namespace Sys2Proof.Machine

/-- The status of an effect says what it changes: of the eight effects, six answer `OK`, and only the failure answers
`NO_CAPACITY`. -/
theorem Effect.by_status {s t : State} {i : Instr} (he : Effect s i t) :
    t.rsp.extractLsb' 12 4 = statusCode .ok ∨
    (t.rsp.extractLsb' 12 4 ≠ statusCode .noCapacity ∧ t = { s with rsp := t.rsp, rspValid := true }) ∨
    (t.rsp.extractLsb' 12 4 = statusCode .noCapacity ∧
      t = { s with lc := .failed, rsp := t.rsp, rspValid := true }) := by
  cases he with
  | response i st v h =>
    have hstatus : (s.answer st v).rsp.extractLsb' 12 4 ≠ statusCode .noCapacity := by
      rwa [answer_rsp, responseWord_status, Ne, statusCode_inj]
    exact .inr (.inl ⟨hstatus, rfl⟩)
  | failed => exact .inr (.inr ⟨responseWord_status _ _, rfl⟩)
  | initialised | cleared | stored | admitted | bound | swappedIn => exact .inl (responseWord_status _ _)

/-- Settles O47: only an effect that answers `OK` changes more than the response and `LC`. -/
theorem unsuccessfulCommandsChangeNothing : Obligations.UnsuccessfulCommandsChangeNothing := by
  intro i s t h
  obtain hok | ⟨hne, hsame⟩ | ⟨hcapacity, hfailed⟩ := (exec_effect h).by_status
  · rw [hok]
    exact ⟨fun hmem => absurd hmem (by decide), fun htwo => absurd htwo (by decide)⟩
  · exact ⟨fun _ => hsame, fun htwo => absurd htwo hne⟩
  · rw [hcapacity]
    exact ⟨fun hmem => absurd hmem (by decide), fun _ => hfailed⟩

end Sys2Proof.Machine
end

section
/-!
PROOFS. The `rst` input (70_reset_and_hazards.md R270).
-/

namespace Sys2Proof.Machine

/-- A step that takes `rst` off the port is the power-on reset, whatever command is in flight. -/
theorem step_reset {s : State} {inFlight : Option CommandWord} {rest : List PortInput}
    (hport : s.port = .reset inFlight :: rest) :
    step s = .next { s with port := rest }.powerOnReset := by
  rw [step_cons hport, takeInput_reset]

/-- Settles O7: the next state is `State.powerOnReset`, read off field by field. -/
theorem powerOnResetClears : Obligations.PowerOnResetClears := fun _ _ _ hport =>
  ⟨_, step_reset hport, powerOnReset_lc _, powerOnReset_pmemSize _, powerOnReset_swapSize _, powerOnReset_mem _,
    powerOnReset_fq _, powerOnReset_sq _, powerOnReset_vq _, powerOnReset_proc _, powerOnReset_rspValid _,
    powerOnReset_port _⟩

end Sys2Proof.Machine
end
